-- ==== Sys2Proof/Word.lean ====
section
/-! DEFINITION. The two word types of the block: 8-bit bytes (payload bytes, wire bytes, operand bytes) and the 16-bit
word-cells of the PixelBuffer and of the panel's GRAM (`00_scope.md` R10, R12). -/

namespace Sys2Proof

/-- An 8-bit value, bits 7 down to 0 (R12). -/
abbrev Byte := BitVec 8

/-- A 16-bit word-cell (R10 `WORD_W`), bit 15 the leftmost pixel (R57). -/
abbrev Word := BitVec 16

end Sys2Proof
end

