-- ==== Sys2Proof/Config.lean ====
section
/-! DEFINITION. What the source fixes (R10), the shape of the parameters it leaves open (R11, R36, R37), and the free
values: constants without a body, of which nothing can be proved (log 1, log 6). -/

namespace Sys2Proof

/-! ## Fixed parameters (R10) -/

/-- `CANVAS_W`. -/
abbrev Config.canvasW : Nat := 128
/-- `CANVAS_H`. -/
abbrev Config.canvasH : Nat := 64
/-- `HALF_H`. -/
abbrev Config.halfH : Nat := 32
/-- `PB_COLS`. -/
abbrev Config.pbCols : Nat := 16
/-- `WORD_W`. -/
abbrev Config.wordW : Nat := 16
/-- `BANK_COLS`. -/
abbrev Config.bankCols : Nat := 8
/-- `PEN_LIMIT`. -/
abbrev Config.penLimit : Int := 128
/-- `FIX_ONE`. -/
abbrev Config.fixOne : Int := 64

/-! ## The width of a coordinate at the port (R11, R101) -/

/-- The default of `COORD_W` in bits (R11, D3). The width a machine reads is the field `coordW` of its environment; the
decoder and the encoder take it as an argument. -/
abbrev Config.coordW : Nat := 16

/-! ## The font parameters (R36, R37) -/

/-- A rasterised glyph (R37). -/
structure Glyph where
  /-- pixels per raster row -/
  width : Nat
  /-- number of raster rows -/
  rows : Nat
  /-- bytes from the start of one raster row to the next -/
  pitch : Nat
  /-- the raster, 1-bpp packed MSB-first rows -/
  buf : List Byte
  /-- pixels from the pen to raster column 0 -/
  left : Int
  /-- pixels from the baseline up to raster row 0 -/
  top : Int
  /-- horizontal advance in 26.6 units -/
  adv : Int
  deriving DecidableEq, Repr, Inhabited

/-- R37's well-formedness conditions on what the FontProvider returns (D23). -/
def Glyph.wf (g : Glyph) : Bool := decide (g.width ≤ g.pitch * 8 ∧ g.buf.length = g.rows * g.pitch)

/-- The face at one pixel height: its ascender in 26.6 units and the codepoints it can rasterise. A list of these is `Font`
and `Asc` of R11; a run asks about finitely many heights and codepoints, so such a table can be any of them (log 28). -/
structure FontSize where
  height : Nat
  ascender : Int
  glyphs : List (Nat × Glyph)
  deriving DecidableEq, Repr, Inhabited

/-- A result of `Transport.write` (R34, R35). -/
inductive WriteResult where
  /-- The whole frame was transferred. -/
  | all
  /-- The call reported this many bytes. -/
  | count (n : Nat)
  /-- The call answered `Error`. -/
  | error
  deriving DecidableEq, Repr

/-! ## Parameters without a default (R11): no body, so a statement holds for every value of them -/

/-- `Font(h, cp)` and `Asc(h)` (R11, D23). -/
opaque Config.font : List FontSize
/-- `INIT_FONT_HEIGHT` (R11, D8). -/
opaque Config.initFontHeight : Nat
/-- `TRANSPORT_PATH(busId, deviceId)`: a label for an opaque path (R11, D22). -/
opaque Config.transportPath : Byte → Byte → Nat
/-- `SPI_MODE`: a label for an opaque mode (R11, D22). -/
opaque Config.spiMode : Nat
/-- `SPI_SPEED_HZ` (R11, D22). -/
opaque Config.spiSpeedHz : Nat
/-- `FONT_RESOURCE`: a label for an opaque resource (R11, D23). -/
opaque Config.fontResource : Nat

/-! ## Free values: the `n`-th time the machine needs a value nothing constrains, its `k`-th part -/

/-- A free bit pattern (U5, U10, U12). -/
opaque Config.freeBits (w n k : Nat) : BitVec w
/-- A free natural number (U5, U12: the busy deadline). -/
opaque Config.freeNat (n k : Nat) : Nat

/-- A free bit. -/
def Config.freeBit (n k : Nat) : Bool := (Config.freeBits 1 n k).getLsbD 0

end Sys2Proof
end

