-- ==== Sys2Proof/Syntax.lean ====
section
/-! DEFINITION. The one instruction type: one constructor per row of `spec/opcode_table.json`, in the table's order.
The operands are the mathematical values of `30_encoding.md` R101 ("After decoding, every operand is a mathematical
integer"); which values an encoding admits is `WellFormed.lean`. -/

namespace Sys2Proof

/-- Host operations (R100, R103), internal micro-operations (R100, R104), wire instruction bytes (R86 to R90), frame
bytes (R81, R82) and the data payload byte (R91). -/
inductive Instr where
  /-- `CONSTRUCT` (R236). -/
  | construct (busId deviceId : Byte)
  /-- `DESTRUCT` (R242). -/
  | destruct
  /-- `SET_FUNCTION_SET` (R142). -/
  | setFunctionSet (ext gfx : Bool)
  /-- `SET_DISPLAY_CONTROL` (R143). -/
  | setDisplayControl (d c b : Bool)
  /-- `SET_SHIFT_CONTROL` (R144). -/
  | setShiftControl (s right : Bool)
  /-- `SET_ENTRY_MODE` (R145). -/
  | setEntryMode (inc sh : Bool)
  /-- `SET_FONT_HEIGHT` (R190). -/
  | setFontHeight (px : Nat)
  /-- `SET_PIXEL` (R120). -/
  | setPixel (x y : Int) (on : Bool)
  /-- `SET_REGION` (R122). -/
  | setRegion (x1 y1 x2 y2 : Int) (on : Bool)
  /-- `PUT_STRING` (R196): `text` is a list of codepoints. -/
  | putString (x y : Int) (text : List Nat)
  /-- `PUT_BITMAP` (R220): `data` carries its own `len` (R102). -/
  | putBitmap (x y width : Int) (data : List Byte)
  /-- `DRAW_ALL` (R176). -/
  | drawAll
  /-- `DRAW_ROW` (R174). -/
  | drawRow (r : Int)
  /-- `DRAW_SECTIONS_FOR_BB` (R170). -/
  | drawSectionsForBB (x1 y1 x2 y2 : Int)
  /-- `SEND` (R140), internal. -/
  | send (rs rw : Bool) (data : List Byte)
  /-- `GRAM_ADDR_SET` (R146), internal. -/
  | gramAddrSet (row col : Nat)
  /-- `PUT_CHAR` (R192), internal. -/
  | putChar (x y : Int) (codepoint : Nat)
  /-- `WIRE_FUNCTION_SET` (R86, R284). -/
  | wireFunctionSet (e g : Bool)
  /-- `WIRE_DISPLAY_CONTROL` (R87, R284). -/
  | wireDisplayControl (d c b : Bool)
  /-- `WIRE_SHIFT_CONTROL` (R88, R284). -/
  | wireShiftControl (s r : Bool)
  /-- `WIRE_ENTRY_MODE` (R89, R284). -/
  | wireEntryMode (i h : Bool)
  /-- `WIRE_GRAM_ADDR_ROW` (R90, R283): the first byte of an address set. -/
  | wireGramAddrRow (row : BitVec 6)
  /-- `WIRE_GRAM_ADDR_COL` (R90, R283): the second byte of an address set. -/
  | wireGramAddrCol (col : BitVec 4)
  /-- `WIRE_SYNC` (R81). -/
  | wireSync (rw rs : Bool)
  /-- `WIRE_NIBBLE_HIGH` (R82). -/
  | wireNibbleHigh (h : BitVec 4)
  /-- `WIRE_NIBBLE_LOW` (R82). -/
  | wireNibbleLow (l : BitVec 4)
  /-- `WIRE_DATA` (R91, R282). -/
  | wireData (d : Byte)
  deriving DecidableEq, Repr

end Sys2Proof
end

