-- ==== Sys2Proof/WellFormed.lean ====
section
/-! DEFINITION. Which operand values the encodings of `30_encoding.md` admit (R101, R86 and R93). -/

namespace Sys2Proof

/-- A signed value of `w` bits, `-2^(w-1)` to `2^(w-1) - 1`: the `i16` of R101 at the width `COORD_W` (R11). At the default 16 it
goes from -32768 to 32767. -/
def fitsCoord (w : Nat) (v : Int) : Bool := decide (-2 ^ w ≤ 2 * v ∧ 2 * v < 2 ^ w)

/-- `u8` of R101. -/
def fitsU8 (v : Nat) : Bool := decide (v < 256)

/-- `u16` of R101, also every count of a `bytes` or `cps` field. -/
def fitsU16 (v : Nat) : Bool := decide (v < 65536)

/-- `u32` of R101: one codepoint. -/
def fitsU32 (v : Nat) : Bool := decide (v < 4294967296)

/-- The operand values an instruction's encoding can carry at a coordinate width (`COORD_W`, R11). For host operations these
are the ranges of R101; the function set byte carries a graphics bit only with the extended bit (R86: 0x32 is never emitted,
R93). -/
def Instr.wf (i : Instr) (coordW : Nat := Config.coordW) : Bool :=
  match i with
  | .construct _ _ => true
  | .destruct => true
  | .setFunctionSet _ _ => true
  | .setDisplayControl _ _ _ => true
  | .setShiftControl _ _ => true
  | .setEntryMode _ _ => true
  | .setFontHeight px => fitsU16 px
  | .setPixel x y _ => fitsCoord coordW x && fitsCoord coordW y
  | .setRegion x1 y1 x2 y2 _ => fitsCoord coordW x1 && fitsCoord coordW y1 && fitsCoord coordW x2 && fitsCoord coordW y2
  | .putString x y text => fitsCoord coordW x && fitsCoord coordW y && fitsU16 text.length && text.all fitsU32
  | .putBitmap x y width data => fitsCoord coordW x && fitsCoord coordW y && fitsCoord coordW width && fitsU16 data.length
  | .drawAll => true
  | .drawRow r => fitsCoord coordW r
  | .drawSectionsForBB x1 y1 x2 y2 =>
    fitsCoord coordW x1 && fitsCoord coordW y1 && fitsCoord coordW x2 && fitsCoord coordW y2
  | .send _ _ data => fitsU16 data.length
  | .gramAddrSet row col => fitsU8 row && fitsU8 col
  | .putChar x y codepoint => fitsCoord coordW x && fitsCoord coordW y && fitsU32 codepoint
  | .wireFunctionSet e g => e || !g
  | .wireDisplayControl _ _ _ => true
  | .wireShiftControl _ _ => true
  | .wireEntryMode _ _ => true
  | .wireGramAddrRow _ => true
  | .wireGramAddrCol _ => true
  | .wireSync _ _ => true
  | .wireNibbleHigh _ => true
  | .wireNibbleLow _ => true
  | .wireData _ => true

end Sys2Proof
end

