-- ==== Sys2Proof/Decode.lean ====
section
/-! DEFINITION. Decoding and encoding, both levels of `30_encoding.md`. The host port reads one descriptor, a whole byte
string (R101 to R105); the panel reads the serial line one byte at a time, and what a byte is depends on where in a frame
it stands (R80 to R84, R90, R92). `decode` is total on any bytes at any of these places and rejects by name. After it the
encoder, and the two functions that number a table word's bits as `spec/opcode_table.json` does. -/

namespace Sys2Proof

/-! ## Byte order -/

/-- `hi8` of R14: `w[15:8]`. -/
def hi8 (w : Word) : Byte := w.extractLsb' 8 8

/-- `lo8` of R14: `w[7:0]`. -/
def lo8 (w : Word) : Byte := w.extractLsb' 0 8

/-- Two bytes, most significant first (R101), as one 16-bit word. -/
def joinBytes (h l : Byte) : Word := h ++ l

/-- The number whose bytes these are, most significant first (R101). -/
def natOfBytes : List Byte → Nat
  | [] => 0
  | b :: bs => b.toNat * 256 ^ bs.length + natOfBytes bs

/-- The low `n` bytes of a number, most significant first (R101). -/
def bytesOfNat : (n v : Nat) → List Byte
  | 0, _ => []
  | n + 1, v => BitVec.ofNat 8 (v / 256 ^ n) :: bytesOfNat n v

/-- The two's complement number whose bytes these are, most significant first: `sext` of R13. -/
def signedOfBytes (bs : List Byte) : Int := (BitVec.ofNat (8 * bs.length) (natOfBytes bs)).toInt

/-- The two's complement number of `n` bytes, most significant first. -/
def bytesOfSigned (n : Nat) (v : Int) : List Byte := bytesOfNat n (BitVec.ofInt (8 * n) v).toNat

/-- The bytes of a coordinate field: two for the default width 16 (R101); for another width the whole bytes that hold it
(log 34). -/
def coordBytes (coordW : Nat) : Nat := (coordW + 7) / 8

/-! ## Where an instruction's bytes are read -/

/-- Which instruction byte of an `rs = 0` frame comes next: an instruction frame's payload is one instruction byte, or two
for the address set, "told apart only by position: first row, then column" (R85, R90). -/
inductive Slot where
  /-- No payload byte of this frame has been read. -/
  | first
  /-- The row byte of an address set has been read. -/
  | column
  /-- The frame's one instruction is complete. -/
  | done
  deriving DecidableEq, Repr

/-- A place where bytes are read. -/
inductive Port where
  /-- The block's command port: one whole descriptor (R102). -/
  | host
  /-- The panel's end of the serial line: one wire byte, read after a synchronisation byte or not (`inFrame`), as the
  partner of a high nibble or not (`awaitLow`) (R82, R84). -/
  | line (inFrame awaitLow : Bool)
  /-- A joined payload byte of an `rs = 0`, `rw = 0` frame (R92). -/
  | instruction (slot : Slot)
  /-- A joined payload byte of an `rs = 1`, `rw = 0` frame (R91). -/
  | data
  /-- A joined payload byte of an `rw = 1` frame, which no rule describes ("always write in this design", R81). -/
  | read
  deriving DecidableEq, Repr

/-- Why bytes are no instruction at the place they are read. -/
inductive DecodeError where
  /-- The descriptor has no byte, not even an operation code (R102, R105). -/
  | empty
  /-- An operation code outside R103 (R104, U8). -/
  | reservedCode
  /-- The descriptor is shorter than its computed length (R105, U8). -/
  | truncated
  /-- The descriptor is longer than its computed length (R105, U8). -/
  | trailing
  /-- A `bool` byte that is neither 0x00 nor 0x01 (R101, R105). -/
  | badBoolean
  /-- A coordinate field whose value does not fit `COORD_W` bits (R11); none where the width fills its bytes, as the default
  16 does (log 34). -/
  | coordinateTooWide
  /-- A panel instruction byte the block never emits, to which the spec gives no meaning (R93, U9). -/
  | neverEmitted
  /-- A payload byte after a complete instruction of the same frame (R85 gives a frame one instruction). -/
  | extraInstructionByte
  /-- A wire byte that is neither a synchronisation byte nor a nibble byte (R84). -/
  | notAFrameByte
  /-- A nibble byte before any synchronisation byte (R80). -/
  | nibbleOutsideFrame
  /-- A payload byte of a frame with `rw = 1` (R81: never used; no readback exists). -/
  | readFrame
  /-- Not exactly one byte where the panel reads one. -/
  | notOneByte
  deriving DecidableEq, Repr

/-- What a decoder answers. -/
abbrev Decoded := Except DecodeError Instr

/-! ## Operand fields of a descriptor (R101): each reader hands its value and the bytes left to what follows -/

/-- `u8` (R101). -/
def readU8 (l : List Byte) (k : Byte → List Byte → Decoded) : Decoded :=
  match l with
  | [] => .error .truncated
  | b :: rest => k b rest

/-- `bool` (R101): 0x00 or 0x01, anything else is malformed (R105). -/
def readBool (l : List Byte) (k : Bool → List Byte → Decoded) : Decoded :=
  readU8 l fun b rest => if b = 0 then k false rest else if b = 1 then k true rest else .error .badBoolean

/-- A 16-bit field, most significant byte first (R101). -/
def readWord (l : List Byte) (k : Word → List Byte → Decoded) : Decoded :=
  readU8 l fun h rest => readU8 rest fun lo rest => k (joinBytes h lo) rest

/-- `u16` (R101): `zext_16`. -/
def readU16 (l : List Byte) (k : Nat → List Byte → Decoded) : Decoded :=
  readWord l fun w rest => k w.toNat rest

/-- `u32` (R101): most significant byte first, `zext_32`. -/
def readU32 (l : List Byte) (k : Nat → List Byte → Decoded) : Decoded :=
  readU16 l fun h rest => readU16 rest fun lo rest => k (h * 65536 + lo) rest

/-- `n` bytes of a `bytes` field (R101). -/
def readBytes : Nat → List Byte → (List Byte → List Byte → Decoded) → Decoded
  | 0, l, k => k [] l
  | n + 1, l, k => readU8 l fun b rest => readBytes n rest fun bs rest => k (b :: bs) rest

/-- `i16` (R101): two's complement, of `coordW` bits (R11); at the default 16 this is `sext_16` of two bytes. -/
def readCoord (coordW : Nat) (l : List Byte) (k : Int → List Byte → Decoded) : Decoded :=
  readBytes (coordBytes coordW) l fun bs rest =>
    if fitsCoord coordW (signedOfBytes bs) then k (signedOfBytes bs) rest else .error .coordinateTooWide

/-- `n` codepoints of a `cps` field (R101). -/
def readCps : Nat → List Byte → (List Nat → List Byte → Decoded) → Decoded
  | 0, l, k => k [] l
  | n + 1, l, k => readU32 l fun c rest => readCps n rest fun cs rest => k (c :: cs) rest

/-- The descriptor ends here: one that is longer is malformed (R105). -/
def finishAt (i : Instr) (l : List Byte) : Decoded :=
  match l with
  | [] => .ok i
  | _ :: _ => .error .trailing

/-! ## The host port (R102 to R105) -/

/-- The operands after the operation code, by R103's layouts. -/
def decodeOperands (coordW code : Nat) (l : List Byte) : Decoded :=
  match code with
  | 0x01 => readU8 l fun busId l => readU8 l fun deviceId l => finishAt (.construct busId deviceId) l
  | 0x02 => finishAt .destruct l
  | 0x10 => readBool l fun ext l => readBool l fun gfx l => finishAt (.setFunctionSet ext gfx) l
  | 0x11 => readBool l fun d l => readBool l fun c l => readBool l fun b l => finishAt (.setDisplayControl d c b) l
  | 0x12 => readBool l fun s l => readBool l fun right l => finishAt (.setShiftControl s right) l
  | 0x13 => readBool l fun inc l => readBool l fun sh l => finishAt (.setEntryMode inc sh) l
  | 0x14 => readU16 l fun px l => finishAt (.setFontHeight px) l
  | 0x20 => readCoord coordW l fun x l => readCoord coordW l fun y l => readBool l fun on l => finishAt (.setPixel x y on) l
  | 0x21 =>
    readCoord coordW l fun x1 l => readCoord coordW l fun y1 l => readCoord coordW l fun x2 l =>
    readCoord coordW l fun y2 l => readBool l fun on l => finishAt (.setRegion x1 y1 x2 y2 on) l
  | 0x22 =>
    readCoord coordW l fun x l => readCoord coordW l fun y l => readU16 l fun n l =>
    readCps n l fun text l => finishAt (.putString x y text) l
  | 0x23 =>
    readCoord coordW l fun x l => readCoord coordW l fun y l => readCoord coordW l fun width l => readU16 l fun n l =>
    readBytes n l fun data l => finishAt (.putBitmap x y width data) l
  | 0x30 => finishAt .drawAll l
  | 0x31 => readCoord coordW l fun r l => finishAt (.drawRow r) l
  | 0x32 =>
    readCoord coordW l fun x1 l => readCoord coordW l fun y1 l => readCoord coordW l fun x2 l =>
    readCoord coordW l fun y2 l => finishAt (.drawSectionsForBB x1 y1 x2 y2) l
  | 0x80 =>
    readBool l fun rs l => readBool l fun rw l => readU16 l fun n l =>
    readBytes n l fun data l => finishAt (.send rs rw data) l
  | 0x81 => readU8 l fun row l => readU8 l fun col l => finishAt (.gramAddrSet row.toNat col.toNat) l
  | 0x82 =>
    readCoord coordW l fun x l => readCoord coordW l fun y l => readU32 l fun cp l => finishAt (.putChar x y cp) l
  | _ => .error .reservedCode

/-- One descriptor. The internal codes 0x80 to 0x82 decode to the micro-operation they name (R103); that the host port
refuses them (R104) is said where the port is read (`Machine/Fetch.lean`). -/
def decodeDescriptor (coordW : Nat) (l : List Byte) : Decoded :=
  match l with
  | [] => .error .empty
  | code :: rest => decodeOperands coordW code.toNat rest

/-! ## The panel's side (R81, R82, R84, R86 to R93) -/

/-- A wire byte, told apart by its low bits (R84): a synchronisation byte is `11111 rw rs 0` (R81), a nibble byte has bits
3:0 zero (R82). -/
def decodeFrameByte (inFrame awaitLow : Bool) (b : Byte) : Decoded :=
  if b &&& 0xF9 = 0xF8 then .ok (.wireSync (b.getLsbD 2) (b.getLsbD 1))
  else if b &&& 0x0F = 0x00 then
    if inFrame then
      if awaitLow then .ok (.wireNibbleLow (b.extractLsb' 4 4)) else .ok (.wireNibbleHigh (b.extractLsb' 4 4))
    else .error .nibbleOutsideFrame
  else .error .notAFrameByte

/-- The first payload byte of an instruction frame, by the map of R92 with the masks of the opcode table; the bytes of R93
are rejected, 0x32 among them (R86). -/
def decodeFirstByte (b : Byte) : Decoded :=
  if b &&& 0xC0 = 0x80 then .ok (.wireGramAddrRow (b.extractLsb' 0 6))
  else if b &&& 0xF9 = 0x30 then
    if b.getLsbD 1 && !b.getLsbD 2 then .error .neverEmitted else .ok (.wireFunctionSet (b.getLsbD 2) (b.getLsbD 1))
  else if b &&& 0xF3 = 0x10 then .ok (.wireShiftControl (b.getLsbD 3) (b.getLsbD 2))
  else if b &&& 0xF8 = 0x08 then .ok (.wireDisplayControl (b.getLsbD 2) (b.getLsbD 1) (b.getLsbD 0))
  else if b &&& 0xFC = 0x04 then .ok (.wireEntryMode (b.getLsbD 1) (b.getLsbD 0))
  else .error .neverEmitted

/-- The second payload byte of an address set (R90). -/
def decodeColumnByte (b : Byte) : Decoded :=
  if b &&& 0xF0 = 0x80 then .ok (.wireGramAddrCol (b.extractLsb' 0 4)) else .error .neverEmitted

/-- One joined payload byte of an instruction frame. -/
def decodeInstructionByte (slot : Slot) (b : Byte) : Decoded :=
  match slot with
  | .first => decodeFirstByte b
  | .column => decodeColumnByte b
  | .done => .error .extraInstructionByte

/-- The instruction that stands in these bytes at this place. `coordW` is `COORD_W` (R11), read at the host port alone. -/
def decode (port : Port) (bytes : List Byte) (coordW : Nat := Config.coordW) : Decoded :=
  match port with
  | .host => decodeDescriptor coordW bytes
  | .line inFrame awaitLow =>
    match bytes with
    | [b] => decodeFrameByte inFrame awaitLow b
    | _ => .error .notOneByte
  | .instruction slot =>
    match bytes with
    | [b] => decodeInstructionByte slot b
    | _ => .error .notOneByte
  | .data =>
    match bytes with
    | [b] => .ok (.wireData b)
    | _ => .error .notOneByte
  | .read => .error .readFrame

/-! ## The encoder, from the same tables -/

/-- `bool` (R101). -/
def encBool (v : Bool) : List Byte := [if v then 1 else 0]

/-- A 16-bit field, most significant byte first (R101). -/
def encWord (w : Word) : List Byte := [hi8 w, lo8 w]

/-- `u16` (R101). -/
def encU16 (v : Nat) : List Byte := encWord (BitVec.ofNat 16 v)

/-- `i16` (R101), of `coordW` bits (R11). -/
def encCoord (coordW : Nat) (v : Int) : List Byte := bytesOfSigned (coordBytes coordW) v

/-- `u32` (R101). -/
def encU32 (v : Nat) : List Byte := encU16 (v / 65536) ++ encU16 v

/-- The codepoints of a `cps` field (R101). -/
def encCps : List Nat → List Byte
  | [] => []
  | c :: cs => encU32 c ++ encCps cs

/-- The place where an instruction's bytes are read. -/
def Instr.port : Instr → Port
  | .construct _ _ => .host
  | .destruct => .host
  | .setFunctionSet _ _ => .host
  | .setDisplayControl _ _ _ => .host
  | .setShiftControl _ _ => .host
  | .setEntryMode _ _ => .host
  | .setFontHeight _ => .host
  | .setPixel _ _ _ => .host
  | .setRegion _ _ _ _ _ => .host
  | .putString _ _ _ => .host
  | .putBitmap _ _ _ _ => .host
  | .drawAll => .host
  | .drawRow _ => .host
  | .drawSectionsForBB _ _ _ _ => .host
  | .send _ _ _ => .host
  | .gramAddrSet _ _ => .host
  | .putChar _ _ _ => .host
  | .wireFunctionSet _ _ => .instruction .first
  | .wireDisplayControl _ _ _ => .instruction .first
  | .wireShiftControl _ _ => .instruction .first
  | .wireEntryMode _ _ => .instruction .first
  | .wireGramAddrRow _ => .instruction .first
  | .wireGramAddrCol _ => .instruction .column
  | .wireSync _ _ => .line true false
  | .wireNibbleHigh _ => .line true false
  | .wireNibbleLow _ => .line true true
  | .wireData _ => .data

/-- The bytes of an instruction: a host operation's descriptor (R103), or the one byte of a wire-level row (R81, R82, R86 to
R91). -/
def encode (i : Instr) (coordW : Nat := Config.coordW) : List Byte :=
  match i with
  | .construct busId deviceId => [0x01, busId, deviceId]
  | .destruct => [0x02]
  | .setFunctionSet ext gfx => 0x10 :: (encBool ext ++ encBool gfx)
  | .setDisplayControl d c b => 0x11 :: (encBool d ++ encBool c ++ encBool b)
  | .setShiftControl s right => 0x12 :: (encBool s ++ encBool right)
  | .setEntryMode inc sh => 0x13 :: (encBool inc ++ encBool sh)
  | .setFontHeight px => 0x14 :: encU16 px
  | .setPixel x y on => 0x20 :: (encCoord coordW x ++ encCoord coordW y ++ encBool on)
  | .setRegion x1 y1 x2 y2 on =>
    0x21 :: (encCoord coordW x1 ++ encCoord coordW y1 ++ encCoord coordW x2 ++ encCoord coordW y2 ++ encBool on)
  | .putString x y text => 0x22 :: (encCoord coordW x ++ encCoord coordW y ++ encU16 text.length ++ encCps text)
  | .putBitmap x y width data =>
    0x23 :: (encCoord coordW x ++ encCoord coordW y ++ encCoord coordW width ++ encU16 data.length ++ data)
  | .drawAll => [0x30]
  | .drawRow r => 0x31 :: encCoord coordW r
  | .drawSectionsForBB x1 y1 x2 y2 =>
    0x32 :: (encCoord coordW x1 ++ encCoord coordW y1 ++ encCoord coordW x2 ++ encCoord coordW y2)
  | .send rs rw data => 0x80 :: (encBool rs ++ encBool rw ++ encU16 data.length ++ data)
  | .gramAddrSet row col => [0x81, BitVec.ofNat 8 row, BitVec.ofNat 8 col]
  | .putChar x y codepoint => 0x82 :: (encCoord coordW x ++ encCoord coordW y ++ encU32 codepoint)
  | .wireFunctionSet e g => [0b00110#5 ++ BitVec.ofBool e ++ BitVec.ofBool g ++ 0b0#1]
  | .wireDisplayControl d c b => [0b00001#5 ++ BitVec.ofBool d ++ BitVec.ofBool c ++ BitVec.ofBool b]
  | .wireShiftControl s r => [0b0001#4 ++ BitVec.ofBool s ++ BitVec.ofBool r ++ 0b00#2]
  | .wireEntryMode i h => [0b000001#6 ++ BitVec.ofBool i ++ BitVec.ofBool h]
  | .wireGramAddrRow row => [0b10#2 ++ row]
  | .wireGramAddrCol col => [0b1000#4 ++ col]
  | .wireSync rw rs => [0b11111#5 ++ BitVec.ofBool rw ++ BitVec.ofBool rs ++ 0b0#1]
  | .wireNibbleHigh h => [h ++ 0b0000#4]
  | .wireNibbleLow l => [l ++ 0b0000#4]
  | .wireData d => [d]

/-- R104: the internal micro-operations cannot be issued by the host; neither can a wire-level row, which has no operation
code (R103). -/
def Instr.issuable : Instr → Bool
  | .construct _ _ => true
  | .destruct => true
  | .setFunctionSet _ _ => true
  | .setDisplayControl _ _ _ => true
  | .setShiftControl _ _ => true
  | .setEntryMode _ _ => true
  | .setFontHeight _ => true
  | .setPixel _ _ _ => true
  | .setRegion _ _ _ _ _ => true
  | .putString _ _ _ => true
  | .putBitmap _ _ _ _ => true
  | .drawAll => true
  | .drawRow _ => true
  | .drawSectionsForBB _ _ _ _ => true
  | .send _ _ _ => false
  | .gramAddrSet _ _ => false
  | .putChar _ _ _ => false
  | .wireFunctionSet _ _ => false
  | .wireDisplayControl _ _ _ => false
  | .wireShiftControl _ _ => false
  | .wireEntryMode _ _ => false
  | .wireGramAddrRow _ => false
  | .wireGramAddrCol _ => false
  | .wireSync _ _ => false
  | .wireNibbleHigh _ => false
  | .wireNibbleLow _ => false
  | .wireData _ => false

/-! ## Words numbered as the opcode table numbers them: bit 0 is the least significant bit of the first byte -/

/-- The first `n` bytes of the word `w`, the lowest byte first; bytes above the word are 0. -/
def wordBytes : (n w : Nat) → List Byte
  | 0, _ => []
  | n + 1, w => BitVec.ofNat 8 w :: wordBytes n (w / 256)

/-- Byte `k` of the word `w`. -/
def wordByte (w k : Nat) : Nat := w / 256 ^ k % 256

/-- The total length of the descriptor that begins with these bytes, at a coordinate width: R103's last column at the default
16, the counted lists by the `u16` count inside (R105); none for a reserved code. -/
def descriptorLength (coordW w : Nat) : Option Nat :=
  let c := coordBytes coordW
  match wordByte w 0 with
  | 0x01 => some 3
  | 0x02 => some 1
  | 0x10 => some 3
  | 0x11 => some 4
  | 0x12 => some 3
  | 0x13 => some 3
  | 0x14 => some 3
  | 0x20 => some (2 + 2 * c)
  | 0x21 => some (2 + 4 * c)
  | 0x22 => some (3 + 2 * c + 4 * (wordByte w (1 + 2 * c) * 256 + wordByte w (2 + 2 * c)))
  | 0x23 => some (3 + 3 * c + (wordByte w (1 + 3 * c) * 256 + wordByte w (2 + 3 * c)))
  | 0x30 => some 1
  | 0x31 => some (1 + c)
  | 0x32 => some (1 + 4 * c)
  | 0x80 => some (5 + (wordByte w 3 * 256 + wordByte w 4))
  | 0x81 => some 3
  | 0x82 => some (5 + 2 * c)
  | _ => none

/-- Where a table word is read, and its bytes there. A word that begins with an operation code of R103 is a descriptor at
the host port. Another is a byte of the panel's side: an instruction byte where it is one (R92), otherwise a frame byte
read after a synchronisation byte. DESIGN CHOICE (log 11): the table gives its host rows and its wire rows overlapping
8-bit patterns and no bit that tells them apart. -/
def tableWordPlace (nbits w : Nat) (coordW : Nat := Config.coordW) : Port × List Byte :=
  let word := w % 2 ^ nbits
  match descriptorLength coordW word with
  | some n => (.host, wordBytes n word)
  | none =>
    match decodeFirstByte (BitVec.ofNat 8 word) with
    | .ok _ => (.instruction .first, wordBytes 1 word)
    | .error _ => (.line true false, wordBytes 1 word)

/-- The instruction the decoder reads from a table word, at the default width of a coordinate, the one the table has. -/
def decodeTableWord (nbits w : Nat) : Option Instr :=
  match decode (tableWordPlace nbits w).1 (tableWordPlace nbits w).2 with
  | .ok i => some i
  | .error _ => none

end Sys2Proof
end

