-- ==== Sys2Proof/Machine/State.lean ====
section
/-! DEFINITION. Everything the spec gives the machine, as plain data, and the state after reset (R32, R300). -/

namespace Sys2Proof.Machine

/-! ## The block -/

/-- `LC` (R26). -/
inductive Lifecycle where
  | off
  | ready
  | faulted
  | closed
  deriving DecidableEq, Repr

/-- The fault kinds of R260. -/
inductive FaultKind where
  /-- code 1: "Transport path cannot be opened". -/
  | deviceOpenFailure
  /-- code 2: "serial mode/speed rejected". -/
  | modeConfigFailure
  /-- code 3: "font resource or face cannot be initialized". -/
  | fontLoadFailure
  /-- code 4: "a specific codepoint cannot be rasterized". -/
  | glyphLoadFailure
  /-- code 5: never raised, "no readback exists". -/
  | readbackFailure
  /-- code 6: a write did not transfer the whole frame (R265). -/
  | transportWriteFailure
  deriving DecidableEq, Repr

/-- `FAULT` (R27): a kind and its information word. -/
structure FaultRecord where
  kind : FaultKind
  info : Nat
  deriving DecidableEq, Repr

/-- One event of `TRACE` (R9, R28). -/
inductive Event where
  /-- One Transport write call with its exact bytes. -/
  | tx (bytes : List Byte)
  /-- One settle delay of at least `T_SETTLE_MIN`. -/
  | settle
  deriving DecidableEq, Repr

/-- The open Transport handle (R31, R34): what `open` and `configure` were given. -/
structure LinkHandle where
  path : Nat
  mode : Nat
  speedHz : Nat
  deriving DecidableEq, Repr

/-! ## The panel controller as the receiver model gives it (R281) -/

/-- Where the panel stands in the frame it is receiving (R80 to R85, R90). -/
structure FrameRx where
  /-- a synchronisation byte has been received -/
  inFrame : Bool
  /-- the frame's register-select flag -/
  rs : Bool
  /-- the frame's read/write flag -/
  rw : Bool
  /-- a high nibble waiting for its partner -/
  high : Option (BitVec 4)
  /-- which instruction byte comes next -/
  slot : Slot
  /-- a joined payload byte not yet acted on -/
  payload : Option Byte
  deriving DecidableEq, Repr

/-- The panel's registers (R30, R281). -/
structure PanelRegs where
  /-- `AR`, the GRAM row -/
  ar : BitVec 6
  /-- `AC`, the GRAM column -/
  ac : BitVec 4
  /-- `BP`, the byte phase: true when a high byte is held -/
  bp : Bool
  /-- `HB`, the held byte -/
  hb : Byte
  modeE : Bool
  modeG : Bool
  modeD : Bool
  modeC : Bool
  modeB : Bool
  modeS : Bool
  modeR : Bool
  modeI : Bool
  modeH : Bool
  /-- the busy deadline, as microseconds still to wait -/
  busyUs : Nat
  rx : FrameRx
  deriving DecidableEq, Repr

/-- Whether the receiver model still speaks for the panel (log 7). -/
inductive Standing where
  /-- Every byte so far has a meaning in R281 to R285. -/
  | following
  /-- A byte arrived for which the spec says the panel's model refuses (U9, U11, U14): no claim about the panel. -/
  | unspecified
  deriving DecidableEq, Repr

/-- The panel: its registers, its GRAM, its properties `AUTO_INC` (R11, U17) and settle floor (R285), and the model's own
counter of the free values taken so far. -/
structure Panel where
  regs : PanelRegs
  /-- `GRAM` as byte cells; an unlisted cell has no known value (log 4). -/
  gram : List Host.Cell
  standing : Standing
  autoInc : Bool
  floorUs : Nat
  draws : Nat
  deriving DecidableEq, Repr

/-! ## The environment -/

/-- The parameters of R11 and of `93_implementation_defined.md` section 3 that an operation reads (log 1). -/
structure Env where
  /-- the `(busId, deviceId)` pairs whose path `Transport.open` cannot open -/
  unopenable : List (Byte × Byte)
  /-- `Transport.configure` accepts the mode and speed -/
  configureOk : Bool
  /-- `FontProvider.loadFace` succeeds -/
  loadFaceOk : Bool
  /-- the results of the coming `Transport.write` calls; when the list is used up, every write transfers all -/
  writes : List WriteResult
  /-- the heights `FontProvider.setPixelHeight` answers `Error` for: `FontSetOk(px)` says that `px` is not among them -/
  rejectedHeights : List Nat
  /-- `Font` and `Asc` -/
  font : List FontSize
  /-- `INIT_FONT_HEIGHT` -/
  initFontHeight : Nat
  /-- `T_SETTLE_MIN` in microseconds -/
  settleMin : Nat
  /-- `COORD_W`, the width in bits of a coordinate operand at the command port -/
  coordW : Nat
  deriving DecidableEq, Repr

/-! ## The whole machine -/

/-- The block, the panel, the environment, and the inputs not yet taken. -/
structure State where
  /-- `PB` as byte cells, 0x00 where nothing is listed (R24, log 5). -/
  pb : List Host.Cell
  /-- `PB` is allocated (R24, R32). -/
  pbExists : Bool
  /-- `FH` (R25). -/
  fh : Nat
  /-- `LC` (R26). -/
  lc : Lifecycle
  /-- `FAULT` (R27). -/
  fault : Option FaultRecord
  /-- `TRACE` (R28). -/
  trace : List Event
  /-- `CI` (R22). -/
  ci : Nat
  /-- The Transport handle (R31); none is closed. -/
  link : Option LinkHandle
  /-- The font face (R31), a label of the loaded resource; none is closed. -/
  face : Option Nat
  panel : Panel
  env : Env
  /-- The descriptors the host has still to issue, the next first (R102, R246). -/
  port : List (List Byte)
  /-- Bytes on the serial line that the panel has not taken (log 11). -/
  line : List Byte
  deriving DecidableEq, Repr

/-- Why the machine stops with a fault. -/
inductive Fault where
  /-- An operation that reads or writes `PB` in a state where `LC = READY` and `PB` does not exist (R32: "does not exist; no
  operation may touch it"). Raised by the gate `onCanvas` of `Machine/Ops.lean`. No run from reset reaches it. Safe. -/
  | noPixelBuffer
  deriving DecidableEq, Repr

/-- Why an operation has no meaning. Each constructor but the first is a point where the spec says the model refuses. -/
inductive Refusal where
  /-- An instruction whose meaning is not written yet; raised only by `exec`. Safe. -/
  | notModelled (mnemonic : String)
  /-- The bytes are no instruction where they stand (R104, R105, R93; U8, U9). Raised by `step`. Safe. -/
  | undecodable (why : DecodeError)
  /-- An internal micro-operation offered at the host port (R104, U8). Raised by `step`. Safe. -/
  | internalOperation
  /-- An operation other than `CONSTRUCT` while `LC` is not `READY` (R26, U1). Raised by the gates of `Machine/Ops.lean`. Safe. -/
  | notReady
  /-- `CONSTRUCT` while `LC` is not `OFF` (R26, R236, U1). Safe. -/
  | notOff
  /-- `DRAW_ROW` with a row outside 0 to 63 (R174, U2). Safe. -/
  | rowOffCanvas
  /-- `DRAW_SECTIONS_FOR_BB` with a corner off the canvas (R170, U3). Safe. -/
  | boxOffCanvas
  /-- `PUT_BITMAP` with `width < 1` (R220, U4). Safe. -/
  | widthBelowOne
  /-- A wire-level row while the panel's behaviour is no longer specified (log 7). Safe. -/
  | panelUnspecified
  /-- A GRAM address byte or data byte while the panel is in the basic set, `E = 0` (R282, R283, U9, U14). Safe. -/
  | basicSet
  /-- A GRAM address byte or data byte while the panel is in the extended set with graphics off, `E = 1` and `G = 0` (U14, which
  names R282, R283 and R316). Safe. -/
  | graphicsOff
  /-- A GRAM row above 31, which "addresses nothing the source describes" (R283, U11). Safe. -/
  | noSuchGramRow
  /-- The function set byte 0x32, which the block never emits (R86, R93, U9). Safe. -/
  | neverEmitted
  /-- The second nibble of a payload byte without the first (R82 gives the second a meaning only after it). Safe. -/
  | noHighNibble
  /-- A host-level row handed to the panel's side, which reads wire bytes only. No run reaches it. Safe. -/
  | notAWireByte
  deriving DecidableEq, Repr

/-! ## Reset -/

/-- No frame has begun. DESIGN CHOICE (log 3): power-on values are not in the source (R281). -/
def FrameRx.reset : FrameRx :=
  { inFrame := false, rs := false, rw := false, high := none, slot := .first, payload := none }

/-- DESIGN CHOICE zero everywhere (log 3): "Power-on values are not in the source" (R281, U13). -/
def PanelRegs.reset : PanelRegs :=
  { ar := 0, ac := 0, bp := false, hb := 0, modeE := false, modeG := false, modeD := false, modeC := false,
    modeB := false, modeS := false, modeR := false, modeI := false, modeH := false, busyUs := 0, rx := FrameRx.reset }

/-- The panel at power-on: no GRAM cell has a known value (R56, log 4); `AUTO_INC` at its default true (R11). -/
def Panel.reset : Panel :=
  { regs := PanelRegs.reset, gram := [], standing := .following, autoInc := true, floorUs := 75, draws := 0 }

/-- Every external call succeeds (the default of `93_implementation_defined.md` section 3; DESIGN CHOICE for
`setPixelHeight`), `T_SETTLE_MIN` and `COORD_W` are at their defaults 75 and 16 (R11), and `Font`, `Asc` and
`INIT_FONT_HEIGHT`, which have no default, are the opaque constants of `Config` (log 1). -/
def Env.reset : Env :=
  { unopenable := [], configureOk := true, loadFaceOk := true, writes := [], rejectedHeights := [],
    font := Config.font, initFontHeight := Config.initFontHeight, settleMin := 75
    coordW := Config.coordW }

/-- The state before `CONSTRUCT` (R32, R300). `FH` is unspecified there; DESIGN CHOICE 0 (log 2). -/
def State.reset : State :=
  { pb := [], pbExists := false, fh := 0, lc := .off, fault := none, trace := [], ci := 0, link := none, face := none,
    panel := Panel.reset, env := Env.reset, port := [], line := [] }

end Sys2Proof.Machine
end

