-- ==== Sys2Proof/Machine/Operands.lean ====
section
/-! DEFINITION. Operand arithmetic: the pixel mapping (R52), the inclusive ranges of the loops (R14, R122, R170), frame and
address bytes (R81, R82, R90, R108), glyph bits and 26.6 conversions (R37, R194), the bit stream of a bitmap (R59, R221). -/

namespace Sys2Proof.Machine

/-! ## The canvas (R50 to R52, R55) -/

/-- The range test of R120: `0 <= x < 128` and `0 <= y < 64`. -/
def inCanvas (x y : Int) : Bool := decide (0 ≤ x ∧ x < Config.canvasW ∧ 0 ≤ y ∧ y < Config.canvasH)

/-- `r = y mod 32` (R52). -/
def wordRow (y : Nat) : Nat := y % Config.halfH

/-- The column bank of a logical row: 0 for the upper half, 8 for the lower (R51). -/
def bankOf (y : Nat) : Nat := if Config.halfH ≤ y then Config.bankCols else 0

/-- `c = (x div 16) + (8 if y >= 32 else 0)` (R52). -/
def wordCol (x y : Nat) : Nat := x / Config.wordW + bankOf y

/-- The word whose one set bit is bit `15 - (x mod 16)` (R52). -/
def pixelMask (x : Nat) : Word := 1#16 <<< (15 - x % Config.wordW)

/-- The canvas coordinates `v` below `limit` with `lo <= v <= hi`, ascending: the loop of R122 intersected with the canvas
first, which R122 allows; empty when `lo > hi` (log 17). -/
def canvasSpan (lo hi : Int) (limit : Nat) : List Nat :=
  (List.range limit).filter fun v => decide (lo ≤ (v : Int) ∧ (v : Int) ≤ hi)

/-- `lo..hi` of R14: ascending, both ends inclusive, empty when `lo > hi`. -/
def upTo (lo hi : Nat) : List Nat := List.range' lo (hi + 1 - lo)

/-! ## Bytes of a frame (R80 to R82, R90) -/

/-- A flag as bit 0 of a byte. -/
def flagBit (v : Bool) : Byte := if v then 1 else 0

/-- `0xF8 | (rw&1)<<2 | (rs&1)<<1` (R81). -/
def syncByte (rs rw : Bool) : Byte := 0xF8 ||| (flagBit rw <<< 2) ||| (flagBit rs <<< 1)

/-- `b & 0xF0` and then `(b & 0x0F) << 4` (R82). -/
def nibbleBytes (b : Byte) : List Byte := [b &&& 0xF0, (b &&& 0x0F) <<< 4]

/-- The bytes of one frame (R80, R140). -/
def frameBytes (rs rw : Bool) (data : List Byte) : List Byte := syncByte rs rw :: data.flatMap nibbleBytes

/-- `0x80|(row&0x3F)` then `0x80|(col&0x0F)` (R90). -/
def gramAddrBytes (row col : Nat) : List Byte :=
  [0x80 ||| (BitVec.ofNat 8 row &&& 0x3F), 0x80 ||| (BitVec.ofNat 8 col &&& 0x0F)]

/-- A word-cell on the wire: high byte first (R58, D4; log 18). -/
def cellPayload (w : Word) : List Byte := [hi8 w, lo8 w]

/-! ## Glyphs (R37, R194) -/

/-- `floor(a / 64)` (R194). -/
def floorPx (a : Int) : Int := a / Config.fixOne

/-- `ceil(a / 64)` as `(a + 63) div 64` (R194). -/
def ceilPx (a : Int) : Int := (a + (Config.fixOne - 1)) / Config.fixOne

/-- `GlyphBit(g, r, xa)` (R37). A well-formed glyph is never read outside `buf` (log 28). -/
def glyphBit (g : Glyph) (r xa : Nat) : Bool := (g.buf.getD (r * g.pitch + xa / 8) 0).getLsbD (7 - xa % 8)

/-- The face at a height (R36); where there is none, every codepoint answers `Error`. -/
def sizeAt (font : List FontSize) (h : Nat) : Option FontSize := font.find? fun z => z.height == h

/-- `FontSetOk(px)` (R11). -/
def fontSetOk (env : Env) (px : Nat) : Bool := !env.rejectedHeights.contains px

/-- `Font(h, cp)` at one height: a glyph, or none for `Error` (R36). -/
def glyphAt (size : FontSize) (cp : Nat) : Option Glyph := (size.glyphs.find? fun e => e.1 == cp).map Prod.snd

/-! ## Bitmaps (R59, R221) -/

/-- The bits of a byte, most significant first. -/
def bitsMsbFirst (b : Byte) : List Bool :=
  [b.getLsbD 7, b.getLsbD 6, b.getLsbD 5, b.getLsbD 4, b.getLsbD 3, b.getLsbD 2, b.getLsbD 1, b.getLsbD 0]

/-- The bit stream of a bitmap: bit `n = 8*i + (7 - k)` is bit `k` of byte `i` (R221). -/
def bitStream (data : List Byte) : List Bool := data.flatMap bitsMsbFirst

end Sys2Proof.Machine
end

