-- ==== Sys2Proof/Machine/Memory.lean ====
section
/-! DEFINITION. The two memories, `PB` and `GRAM` (R50), as lists of byte cells in one canonical form, and the whole-word
accesses built on them, the only ones there are (R62, R63). Word-cell `(r, c)` is the two bytes at `2*(16*r + c)`, the high
byte first, the order in which it is sent (R58; log 5). -/

namespace Sys2Proof.Machine

/-! ## Cells -/

/-- What is listed at an address. -/
def cellAt : List Host.Cell → Nat → Option Byte
  | [], _ => none
  | (a, v) :: m, k => if a = k then some v else cellAt m k

/-- List a value at an address, in its place by rising address. -/
def putCell : List Host.Cell → Nat → Byte → List Host.Cell
  | [], k, v => [(k, v)]
  | (a, w) :: m, k, v =>
    if k < a then (k, v) :: (a, w) :: m else if a = k then (k, v) :: m else (a, w) :: putCell m k v

/-- List nothing at an address. -/
def dropCell (m : List Host.Cell) (k : Nat) : List Host.Cell := m.filter fun e => !(e.1 == k)

/-- Addresses strictly rise. -/
def rising : List Host.Cell → Bool
  | [] => true
  | [_] => true
  | (a, _) :: (b, w) :: m => decide (a < b) && rising ((b, w) :: m)

/-- Bytes in each memory: 32 * 16 word-cells of two bytes (R50). -/
abbrev memoryBytes : Nat := 1024

/-- The canonical form of `PB`: rising addresses inside the grid, and no byte listed that an unlisted address reads as. -/
def pbWf (m : List Host.Cell) : Bool := rising m && m.all fun e => decide (e.1 < memoryBytes) && !(e.2 == 0)

/-- The canonical form of `GRAM`: rising addresses inside the grid. An unlisted address has no value, so no listed value is
superfluous. -/
def gramWf (m : List Host.Cell) : Bool := rising m && m.all fun e => decide (e.1 < memoryBytes)

/-- The address of the high byte of word-cell `(r, c)`. -/
def cellAddr (r c : Nat) : Nat := 2 * (Config.pbCols * r + c)

/-! ## `PB`: an unlisted byte reads as 0x00 ("zeroed", R24) -/

/-- One byte of `PB`. -/
def pbByte (m : List Host.Cell) (a : Nat) : Byte := (cellAt m a).getD 0

/-- Write one byte of `PB`, keeping the canonical form. -/
def pbSetByte (m : List Host.Cell) (a : Nat) (v : Byte) : List Host.Cell :=
  if v = 0 then dropCell m a else putCell m a v

/-- `MemRead(r, c)` (R14): the only read width. -/
def memRead (m : List Host.Cell) (r c : Nat) : Word :=
  joinBytes (pbByte m (cellAddr r c)) (pbByte m (cellAddr r c + 1))

/-- `MemWrite(r, c, v)` (R14): the only write width. -/
def memWrite (m : List Host.Cell) (r c : Nat) (v : Word) : List Host.Cell :=
  pbSetByte (pbSetByte m (cellAddr r c) (hi8 v)) (cellAddr r c + 1) (lo8 v)

/-! ## `GRAM`: an unlisted byte has no known value (R56, R281; log 4) -/

/-- A GRAM word-cell, where its contents are known. -/
def gramRead (m : List Host.Cell) (r c : Nat) : Option Word :=
  match cellAt m (cellAddr r c), cellAt m (cellAddr r c + 1) with
  | some h, some l => some (joinBytes h l)
  | _, _ => none

/-- Write one GRAM word-cell. -/
def gramWrite (m : List Host.Cell) (r c : Nat) (v : Word) : List Host.Cell :=
  putCell (putCell m (cellAddr r c) (hi8 v)) (cellAddr r c + 1) (lo8 v)

end Sys2Proof.Machine
end

