-- ==== Sys2Proof/Machine/Receiver.lean ====
section
/-! DEFINITION. The panel controller as the receiver model gives it (R281 to R285): what each wire byte does to it, and how
it takes the bytes of a frame. A rule of the block never depends on this file (R280). -/

namespace Sys2Proof.Machine

/-! ## Any value (U5, U10, U12) -/

/-- Registers that nothing constrains: the `n`-th free value. No payload byte is pending, since that field only carries a
byte from one wire step to the next (log 6). -/
def freeRegs (n : Nat) : PanelRegs :=
  { ar := Config.freeBits 6 n 0, ac := Config.freeBits 4 n 1, bp := Config.freeBit n 2, hb := Config.freeBits 8 n 3
    modeE := Config.freeBit n 4, modeG := Config.freeBit n 5, modeD := Config.freeBit n 6, modeC := Config.freeBit n 7
    modeB := Config.freeBit n 8, modeS := Config.freeBit n 9, modeR := Config.freeBit n 10, modeI := Config.freeBit n 11
    modeH := Config.freeBit n 12, busyUs := Config.freeNat n 13
    rx :=
      { inFrame := Config.freeBit n 14, rs := Config.freeBit n 15, rw := Config.freeBit n 16
        high := if Config.freeBit n 17 then some (Config.freeBits 4 n 18) else none
        slot := if Config.freeBit n 19 then .first else if Config.freeBit n 20 then .column else .done
        payload := none } }

/-- "the receiver's whole state any value" (R285, R265): free registers, and no GRAM cell of known value. -/
def Panel.anyValue (p : Panel) : Panel := { p with regs := freeRegs p.draws, gram := [], draws := p.draws + 1 }

/-! ## Frame bytes -/

/-- `WIRE_SYNC`: a new frame with these flags (R80, R81). A frame that arrives before the busy deadline makes the whole
state any value (R285, U12). -/
def Panel.sync (rw rs : Bool) (p : Panel) : Except Refusal Panel :=
  if p.regs.busyUs = 0 then
    .ok { p with regs.rx := { inFrame := true, rs := rs, rw := rw, high := none, slot := .first, payload := none } }
  else .ok p.anyValue

/-- `WIRE_NIBBLE_HIGH`: `b[7:4]` of a payload byte (R82). -/
def Panel.nibbleHigh (h : BitVec 4) (p : Panel) : Except Refusal Panel := .ok { p with regs.rx.high := some h }

/-- `WIRE_NIBBLE_LOW`: `b[3:0]`; "The receiver recovers `b = first | (second >> 4)`" (R82). -/
def Panel.nibbleLow (l : BitVec 4) (p : Panel) : Except Refusal Panel :=
  match p.regs.rx.high with
  | none => .error .noHighNibble
  | some h => .ok { p with regs.rx.high := none, regs.rx.payload := some (h ++ l) }

/-! ## Payload bytes -/

/-- The payload byte has been acted on, and the frame's instruction is complete. -/
def Panel.instructionTaken (p : Panel) : Panel := { p with regs.rx.payload := none, regs.rx.slot := .done }

/-- After a configuration instruction the panel is busy for its settle floor (R285). -/
def Panel.startBusy (p : Panel) : Panel := { p with regs.busyUs := p.floorUs }

/-- `WIRE_FUNCTION_SET` (R284): "the mode bits named in the byte take the values in the byte". 0x32 is never emitted and
has no meaning (R86, R93, U9). -/
def Panel.functionSet (e g : Bool) (p : Panel) : Except Refusal Panel :=
  if g && !e then .error .neverEmitted
  else .ok { p.instructionTaken.startBusy with regs.modeE := e, regs.modeG := g }

/-- `WIRE_DISPLAY_CONTROL` (R284). -/
def Panel.displayControl (d c b : Bool) (p : Panel) : Except Refusal Panel :=
  .ok { p.instructionTaken.startBusy with regs.modeD := d, regs.modeC := c, regs.modeB := b }

/-- `WIRE_SHIFT_CONTROL` (R284). -/
def Panel.shiftControl (s r : Bool) (p : Panel) : Except Refusal Panel :=
  .ok { p.instructionTaken.startBusy with regs.modeS := s, regs.modeR := r }

/-- `WIRE_ENTRY_MODE` (R284). -/
def Panel.entryMode (i h : Bool) (p : Panel) : Except Refusal Panel :=
  .ok { p.instructionTaken.startBusy with regs.modeI := i, regs.modeH := h }

/-- The panel takes GRAM addresses and data in extended graphics mode only: not in the basic set (R282, R283, U9), nor with
graphics switched off (R316, U14). -/
def Panel.whenGraphic (p : Panel) (k : Except Refusal Panel) : Except Refusal Panel :=
  if !p.regs.modeE then .error .basicSet else if !p.regs.modeG then .error .graphicsOff else k

/-- `WIRE_GRAM_ADDR_ROW` (R283): `AR <- byte1[5:0]`; a row above 31 is refused (U11). -/
def Panel.addrRow (row : BitVec 6) (p : Panel) : Except Refusal Panel :=
  p.whenGraphic
    (if 32 ≤ row.toNat then .error .noSuchGramRow
    else .ok { p with regs.ar := row, regs.rx.payload := none, regs.rx.slot := .column })

/-- `WIRE_GRAM_ADDR_COL` (R283): `AC <- byte2[3:0]`, `BP <- 0`. -/
def Panel.addrCol (col : BitVec 4) (p : Panel) : Except Refusal Panel :=
  p.whenGraphic (.ok { p.instructionTaken with regs.ac := col, regs.bp := false })

/-- The address after a word-cell has been written (R282): the next column under `AUTO_INC`; past column 15 the column, and
whether the row moves, are any value (U10; log 21). -/
def Panel.advance (p : Panel) : Panel :=
  if !p.autoInc then p
  else if p.regs.ac = 15 then
    { p with regs.ac := Config.freeBits 4 p.draws 0, regs.ar := Config.freeBits 6 p.draws 1, draws := p.draws + 1 }
  else { p with regs.ac := p.regs.ac + 1 }

/-- `WIRE_DATA` (R282): the first byte of a pair is held, the second writes `GRAM[AR][AC]`. -/
def Panel.dataByte (d : Byte) (p : Panel) : Except Refusal Panel :=
  p.whenGraphic
    (if !p.regs.bp then .ok { p with regs.hb := d, regs.bp := true, regs.rx.payload := none }
    else if 32 ≤ p.regs.ar.toNat then .error .noSuchGramRow
    else
      .ok { p.advance with
        gram := gramWrite p.gram p.regs.ar.toNat p.regs.ac.toNat (joinBytes p.regs.hb d)
        regs.bp := false, regs.rx.payload := none })

/-! ## Receiving -/

/-- A wire-level row's effect on the panel. -/
def wireEffect (i : Instr) (p : Panel) : Except Refusal Panel :=
  match i with
  | .construct _ _ => .error .notAWireByte
  | .destruct => .error .notAWireByte
  | .setFunctionSet _ _ => .error .notAWireByte
  | .setDisplayControl _ _ _ => .error .notAWireByte
  | .setShiftControl _ _ => .error .notAWireByte
  | .setEntryMode _ _ => .error .notAWireByte
  | .setFontHeight _ => .error .notAWireByte
  | .setPixel _ _ _ => .error .notAWireByte
  | .setRegion _ _ _ _ _ => .error .notAWireByte
  | .putString _ _ _ => .error .notAWireByte
  | .putBitmap _ _ _ _ => .error .notAWireByte
  | .drawAll => .error .notAWireByte
  | .drawRow _ => .error .notAWireByte
  | .drawSectionsForBB _ _ _ _ => .error .notAWireByte
  | .send _ _ _ => .error .notAWireByte
  | .gramAddrSet _ _ => .error .notAWireByte
  | .putChar _ _ _ => .error .notAWireByte
  | .wireFunctionSet e g => p.functionSet e g
  | .wireDisplayControl d c b => p.displayControl d c b
  | .wireShiftControl s r => p.shiftControl s r
  | .wireEntryMode i h => p.entryMode i h
  | .wireGramAddrRow row => p.addrRow row
  | .wireGramAddrCol col => p.addrCol col
  | .wireSync rw rs => p.sync rw rs
  | .wireNibbleHigh h => p.nibbleHigh h
  | .wireNibbleLow l => p.nibbleLow l
  | .wireData d => p.dataByte d

/-- Where the panel reads the next wire byte. -/
def Panel.linePort (p : Panel) : Port := .line p.regs.rx.inFrame p.regs.rx.high.isSome

/-- Where the panel reads a joined payload byte (R85, R91). -/
def Panel.payloadPort (p : Panel) : Port :=
  if p.regs.rx.rw then .read else if p.regs.rx.rs then .data else .instruction p.regs.rx.slot

/-- The panel is given something to which the spec gives no meaning: nothing is said of it any more (U9, U14; log 7). -/
def Panel.giveUp (p : Panel) : Panel := { p with standing := .unspecified, regs.rx.payload := none }

/-- The panel reads one byte at a place and acts on it. -/
def Panel.take (p : Panel) (port : Port) (b : Byte) : Panel :=
  match decode port [b] with
  | .error _ => p.giveUp
  | .ok i =>
    match wireEffect i p with
    | .error _ => p.giveUp
    | .ok q => q

/-- A payload byte that has just been joined is acted on. -/
def Panel.takePayload (p : Panel) : Panel :=
  match p.regs.rx.payload with
  | none => p
  | some d => p.take p.payloadPort d

/-- The panel receives one wire byte of a frame, and the payload byte it completes. -/
def Panel.receiveByte (p : Panel) (b : Byte) : Panel :=
  match p.standing with
  | .unspecified => p
  | .following => (p.take p.linePort b).takePayload

/-- The panel receives the bytes of a write, in order (R66). -/
def Panel.receive (p : Panel) (bytes : List Byte) : Panel := bytes.foldl Panel.receiveByte p

/-- Time passes for the panel: at least `us` microseconds (R285, R310). -/
def Panel.wait (p : Panel) (us : Nat) : Panel := { p with regs.busyUs := p.regs.busyUs - us }

/-! ## What the glass shows (R286) -/

/-- The pixel of the glass at column `x`, row `y`, when `D = E = G = 1`; nothing is said otherwise (U15). -/
def Panel.glass (p : Panel) (x y : Nat) : Option Bool :=
  match p.standing with
  | .unspecified => none
  | .following =>
    if p.regs.modeD && p.regs.modeE && p.regs.modeG && inCanvas x y then
      (gramRead p.gram (wordRow y) (wordCol x y)).map fun w => w.getLsbD (15 - x % 16)
    else none

end Sys2Proof.Machine
end

