-- ==== Sys2Proof/Machine/Ops.lean ====
section
/-! DEFINITION. The shared operations: raising a fault, sequencing the steps of an operation, the two primitives that reach
the outside (`TransportWrite` and `Settle`, R14), the gates of the lifecycle (R26), the end of an operation (R22), and the
observation `GET_PIXEL` (R124). -/

namespace Sys2Proof.Machine

/-- What `exec` answers. -/
abbrev Result := Host.Outcome State Fault Refusal

/-! ## Raising a fault (R266) -/

/-- Fault codes (R260). -/
def FaultKind.code : FaultKind → Nat
  | .deviceOpenFailure => 1
  | .modeConfigFailure => 2
  | .fontLoadFailure => 3
  | .glyphLoadFailure => 4
  | .readbackFailure => 5
  | .transportWriteFailure => 6

/-- Release the Transport handle and the font face (R236, R242). -/
def releaseHandles (s : State) : State := { s with link := none, face := none }

/-- Taking a fault: `raise K(info)` (R266). `FAULT <- (K, info)`, `LC <- FAULTED`; every effect already made stays; nothing is
saved and control goes to no handler. The handles are released, since they are open exactly when `LC = READY` (R31; log 12).
There is no return from a fault (R267), so no operation undoes this one. -/
def raiseFault (kind : FaultKind) (info : Nat) (s : State) : State :=
  { releaseHandles s with fault := some { kind := kind, info := info }, lc := .faulted }

/-! ## The steps of one operation -/

/-- Where an operation stands: its steps so far went through, or one of them raised and no later one runs (R266). -/
inductive Flow where
  | ok (s : State)
  | raised (s : State)
  deriving DecidableEq, Repr

/-- The state an operation has reached. -/
def Flow.state : Flow → State
  | .ok s => s
  | .raised s => s

/-- The next step of the operation, unless a fault was raised. -/
def Flow.andThen (m : Flow) (k : State → Flow) : Flow :=
  match m with
  | .ok s => k s
  | .raised s => .raised s

/-- A `for` loop of R14 over a list, in order. -/
def forEach {α : Type} (f : α → State → Flow) : List α → State → Flow
  | [], s => .ok s
  | a :: rest, s => (f a s).andThen (forEach f rest)

/-- A host operation ends: completed, `CI` goes up by one; faulted, it does not (R22). Both are next states. -/
def finishOperation (m : Flow) : Result :=
  .next
    (match m with
    | .ok s => { s with ci := s.ci + 1 }
    | .raised s => s)

/-- An internal micro-operation ends. It is not a host operation, so `CI` does not count it (R22, R104). -/
def finishMicro (m : Flow) : Result := .next m.state

/-! ## The gates (R26, R32) -/

/-- "Every operation other than `CONSTRUCT` requires `LC = READY`" (R26); otherwise refused (U1). -/
def whenReady (s : State) (k : Result) : Result := if s.lc = .ready then k else .refused .notReady

/-- An operation that touches `PB` needs it to exist (R32). -/
def onCanvas (s : State) (k : Result) : Result :=
  whenReady s (if s.pbExists then k else .fault .noPixelBuffer)

/-! ## The Transport (R34, R35) and the settle delay (R141, R273) -/

/-- The write went through: `TX(bytes)` enters the trace, and the panel has the bytes when the blocking write returns
(R33, R66). -/
def deliver (bytes : List Byte) (s : State) : State :=
  { s with trace := s.trace ++ [.tx bytes], panel := s.panel.receive bytes }

/-- The next result of `Transport.write`; with none listed, the whole frame is transferred (the reference behaviour, R35). -/
def nextWriteResult (s : State) : WriteResult := s.env.writes.headD .all

/-- That result is used up. -/
def useWriteResult (s : State) : State := { s with env.writes := s.env.writes.drop 1 }

/-- What part of a failed frame reached the panel is unknown: the panel is any value (R265, U5). -/
def losePanel (s : State) : State := { s with panel := s.panel.anyValue }

/-- The write failed (R265): no `TX`, and the fault is raised. The information word is what the write reported, 0 on `Error`
(R260). -/
def failWrite (reported : Nat) (s : State) : Flow :=
  .raised (raiseFault .transportWriteFailure reported (losePanel (useWriteResult s)))

/-- `TransportWrite(bytes)` (R14, R35): one call of `write`. A count below the frame's length is a failure, never retried. -/
def transportWrite (bytes : List Byte) (s : State) : Flow :=
  match nextWriteResult s with
  | .all => .ok (deliver bytes (useWriteResult s))
  | .count n => if bytes.length ≤ n then .ok (deliver bytes (useWriteResult s)) else failWrite n s
  | .error => failWrite 0 s

/-- `Settle()` (R14, R273): waits at least `T_SETTLE_MIN`. -/
def settle (s : State) : State :=
  { s with trace := s.trace ++ [.settle], panel := s.panel.wait s.env.settleMin }

/-! ## Observation (R124) -/

/-- `GET_PIXEL(x, y)` (R124) on the words of a PixelBuffer. -/
def pixelOf (pb : List Host.Cell) (x y : Nat) : Bool :=
  (memRead pb (wordRow y) (wordCol x y)).getLsbD (15 - x % 16)

/-- `GET_PIXEL(x, y)`: undefined outside the canvas (R124) and while `PB` does not exist (R32). -/
def getPixel (s : State) (x y : Int) : Option Bool :=
  if s.pbExists && inCanvas x y then some (pixelOf s.pb x.toNat y.toNat) else none

end Sys2Proof.Machine
end

