-- ==== Sys2Proof/Machine/PixelBuffer.lean ====
section
/-! DEFINITION. `SET_PIXEL` and `SET_REGION` (`40_pixelbuffer.md`): pure changes of `PB`. -/

namespace Sys2Proof.Machine

/-- The body of `SET_PIXEL` (R120): the four-sided range test, then a read-modify-write of the one word that holds the
pixel. -/
def drawPixel (x y : Int) (on : Bool) (pb : List Host.Cell) : List Host.Cell :=
  if inCanvas x y then
    let r := wordRow y.toNat
    let c := wordCol x.toNat y.toNat
    let w := memRead pb r c
    memWrite pb r c (if on then w ||| pixelMask x.toNat else w &&& ~~~pixelMask x.toNat)
  else pb

/-- The pixels of the rectangle that lie on the canvas, rows outermost (R122). -/
def regionPixels (x1 y1 x2 y2 : Int) : List (Nat × Nat) :=
  (canvasSpan y1 y2 Config.canvasH).flatMap fun y => (canvasSpan x1 x2 Config.canvasW).map fun x => (x, y)

/-- The body of `SET_REGION` (R122). -/
def drawRegion (x1 y1 x2 y2 : Int) (on : Bool) (pb : List Host.Cell) : List Host.Cell :=
  (regionPixels x1 y1 x2 y2).foldl (fun m p => drawPixel p.1 p.2 on m) pb

/-- `SET_PIXEL` (R120). -/
def execSetPixel (x y : Int) (on : Bool) (s : State) : Result :=
  onCanvas s (finishOperation (.ok { s with pb := drawPixel x y on s.pb }))

/-- `SET_REGION` (R122). -/
def execSetRegion (x1 y1 x2 y2 : Int) (on : Bool) (s : State) : Result :=
  onCanvas s (finishOperation (.ok { s with pb := drawRegion x1 y1 x2 y2 on s.pb }))

end Sys2Proof.Machine
end

