-- ==== Sys2Proof/Machine/Blit.lean ====
section
/-! DEFINITION. The bitmap blit (`44_blit.md`): `PUT_BITMAP`. -/

namespace Sys2Proof.Machine

/-- What the blit loop leaves: the buffer and the cursor. -/
structure Blitted where
  pb : List Host.Cell
  cx : Nat
  cy : Nat
  deriving DecidableEq, Repr

/-- The loop of R220 over the bit stream, with the cursor `(CX, CY)`: a set bit paints, every bit moves the cursor. -/
def blitBits (x y : Int) (width : Nat) : List Bool → Nat → Nat → List Host.Cell → Blitted
  | [], cx, cy, pb => { pb := pb, cx := cx, cy := cy }
  | b :: rest, cx, cy, pb =>
    blitBits x y width rest (if cx + 1 = width then 0 else cx + 1) (if cx + 1 = width then cy + 1 else cy)
      (if b then drawPixel (x + cx) (y + cy) true pb else pb)

/-- The body of `PUT_BITMAP` (R220). -/
def drawBitmap (x y : Int) (width : Nat) (data : List Byte) (pb : List Host.Cell) : Blitted :=
  blitBits x y width (bitStream data) 0 0 pb

/-- `PUT_BITMAP` (R220): `width >= 1`, otherwise refused (U4). -/
def execPutBitmap (x y width : Int) (data : List Byte) (s : State) : Result :=
  onCanvas s
    (if 1 ≤ width then finishOperation (.ok { s with pb := (drawBitmap x y width.toNat data s.pb).pb })
    else .refused .widthBelowOne)

end Sys2Proof.Machine
end

