-- ==== Sys2Proof/Machine/Flags.lean ====
section
/-! DEFINITION. The block has no status flag and no condition code (R23). What its flag operands do is enter an instruction
byte, "as one bit at the fixed position ..., ORed onto the base" (R108): the four instruction bytes of R142 to R145. -/

namespace Sys2Proof.Machine

/-- The function set byte (R86, R142): graphics only with the extended set. -/
def functionSetByte (ext gfx : Bool) : Byte :=
  0x30 ||| (if ext then 0x04 else 0) ||| (if ext && gfx then 0x02 else 0)

/-- The display control byte (R87, R143). -/
def displayControlByte (d c b : Bool) : Byte := 0x08 ||| (flagBit d <<< 2) ||| (flagBit c <<< 1) ||| flagBit b

/-- The shift control byte (R88, R144). -/
def shiftControlByte (s right : Bool) : Byte := 0x10 ||| (flagBit s <<< 3) ||| (flagBit right <<< 2)

/-- The entry mode byte (R89, R145). -/
def entryModeByte (inc sh : Bool) : Byte := 0x04 ||| (flagBit inc <<< 1) ||| flagBit sh

end Sys2Proof.Machine
end

