-- ==== Sys2Proof/Machine/Protocol.lean ====
section
/-! DEFINITION. The protocol encoder (`41_protocol.md`): `SEND`, `INSTR`, the GRAM address set, and the four panel
configuration operations. -/

namespace Sys2Proof.Machine

/-- The body of `SEND` (R140): one frame in one write call, no wait. -/
def sendFrame (rs rw : Bool) (data : List Byte) (s : State) : Flow := transportWrite (frameBytes rs rw data) s

/-- `INSTR b` (R141): one instruction frame, then the settle delay. -/
def sendInstruction (b : Byte) (s : State) : Flow :=
  (sendFrame false false [b] s).andThen fun t => .ok (settle t)

/-- The body of `GRAM_ADDR_SET` (R146): both address bytes in one frame, no settle delay. -/
def sendAddress (row col : Nat) (s : State) : Flow := sendFrame false false (gramAddrBytes row col) s

/-- The body of `SET_FUNCTION_SET` (R142). -/
def functionSetStep (ext gfx : Bool) (s : State) : Flow := sendInstruction (functionSetByte ext gfx) s

/-- The body of `SET_DISPLAY_CONTROL` (R143). -/
def displayControlStep (d c b : Bool) (s : State) : Flow := sendInstruction (displayControlByte d c b) s

/-- `SET_FUNCTION_SET` (R142). -/
def execSetFunctionSet (ext gfx : Bool) (s : State) : Result :=
  whenReady s (finishOperation (functionSetStep ext gfx s))

/-- `SET_DISPLAY_CONTROL` (R143). -/
def execSetDisplayControl (d c b : Bool) (s : State) : Result :=
  whenReady s (finishOperation (displayControlStep d c b s))

/-- `SET_SHIFT_CONTROL` (R144). -/
def execSetShiftControl (shifting right : Bool) (s : State) : Result :=
  whenReady s (finishOperation (sendInstruction (shiftControlByte shifting right) s))

/-- `SET_ENTRY_MODE` (R145). -/
def execSetEntryMode (inc sh : Bool) (s : State) : Result :=
  whenReady s (finishOperation (sendInstruction (entryModeByte inc sh) s))

/-- `SEND` (R140). -/
def execSend (rs rw : Bool) (data : List Byte) (s : State) : Result := whenReady s (finishMicro (sendFrame rs rw data s))

/-- `GRAM_ADDR_SET` (R146). -/
def execGramAddrSet (row col : Nat) (s : State) : Result := whenReady s (finishMicro (sendAddress row col s))

end Sys2Proof.Machine
end

