-- ==== Sys2Proof/Machine/Redraw.lean ====
section
/-! DEFINITION. The flush operations (`42_redraw.md`): they read `PB`, send address and data frames, and never change `PB`. -/

namespace Sys2Proof.Machine

/-- The payload of a row burst: the eight words of a bank, left to right, high byte first (R174). -/
def rowPayload (pb : List Host.Cell) (actualR c0 : Nat) : List Byte :=
  (upTo c0 (c0 + 7)).flatMap fun c => cellPayload (memRead pb actualR c)

/-- The body of `DRAW_ROW` (R174). -/
def flushRow (r : Nat) (s : State) : Flow :=
  (sendAddress (wordRow r) (bankOf r) s).andThen fun t =>
    sendFrame true false (rowPayload t.pb (wordRow r) (bankOf r)) t

/-- The body of `DRAW_ALL` (R176). -/
def flushAll (s : State) : Flow := forEach flushRow (upTo 0 63) s

/-- The word-cells a box touches, in the order they are sent (R170): rows outermost, then the columns `x1 div 16` to
`x2 div 16`. -/
def boxCells (x1 y1 x2 y2 : Nat) : List (Nat × Nat) :=
  (upTo y1 y2).flatMap fun y => (upTo (x1 / 16) (x2 / 16)).map fun j => (wordRow y, j + bankOf y)

/-- One cell of a box: an address set and one word-cell write (R170). -/
def flushCell (cell : Nat × Nat) (s : State) : Flow :=
  (sendAddress cell.1 cell.2 s).andThen fun t => sendFrame true false (cellPayload (memRead t.pb cell.1 cell.2)) t

/-- R170's precondition: all four corners on the canvas. `x1 <= x2` and `y1 <= y2` are not required. -/
def boxOnCanvas (x1 y1 x2 y2 : Int) : Bool := inCanvas x1 y1 && inCanvas x2 y2

/-- `DRAW_ALL` (R176). -/
def execDrawAll (s : State) : Result := onCanvas s (finishOperation (flushAll s))

/-- `DRAW_ROW` (R174): `0 <= r <= 63`, otherwise refused (U2). -/
def execDrawRow (r : Int) (s : State) : Result :=
  onCanvas s (if 0 ≤ r ∧ r ≤ 63 then finishOperation (flushRow r.toNat s) else .refused .rowOffCanvas)

/-- `DRAW_SECTIONS_FOR_BB` (R170): a box off the canvas is refused (U3). -/
def execDrawSectionsForBB (x1 y1 x2 y2 : Int) (s : State) : Result :=
  onCanvas s
    (if boxOnCanvas x1 y1 x2 y2 then
      finishOperation (forEach flushCell (boxCells x1.toNat y1.toNat x2.toNat y2.toNat) s)
    else .refused .boxOffCanvas)

end Sys2Proof.Machine
end

