-- ==== Sys2Proof/Machine/Text.lean ====
section
/-! DEFINITION. The glyph rasteriser (`43_glyph.md`): `SET_FONT_HEIGHT`, `PUT_CHAR`, `PUT_STRING`. -/

namespace Sys2Proof.Machine

/-- The set bits of a raster as (column, row), rows outermost (R192). -/
def glyphDots (g : Glyph) : List (Nat × Nat) :=
  (List.range g.rows).flatMap fun r =>
    ((List.range g.width).filter fun xa => glyphBit g r xa).map fun xa => (xa, r)

/-- Paint one glyph with the pen at `(x, y)`, given the ascender (R192): set bits only, always on. -/
def paintGlyph (g : Glyph) (ascender x y : Int) (pb : List Host.Cell) : List Host.Cell :=
  let baselineY := floorPx ascender + y
  let topY := baselineY - g.top
  (glyphDots g).foldl (fun m d => drawPixel (x + d.1 + g.left) (topY + d.2) true m) pb

/-- What painting text leaves: the buffer, the pen, and the codepoint that could not be rasterised, if one stopped it. -/
structure Painted where
  pb : List Host.Cell
  pen : Int
  failed : Option Nat
  deriving DecidableEq, Repr

/-- `PUT_CHAR` (R192) at a height whose face is `size`: paint, and move the pen by `ceil(adv / 64)` (R196). A height without
a face answers `Error` for every codepoint. -/
def paintChar (size : Option FontSize) (pen y : Int) (cp : Nat) (pb : List Host.Cell) : Painted :=
  match size with
  | none => { pb := pb, pen := pen, failed := some cp }
  | some z =>
    match glyphAt z cp with
    | none => { pb := pb, pen := pen, failed := some cp }
    | some g => { pb := paintGlyph g z.ascender pen y pb, pen := pen + ceilPx g.adv, failed := none }

/-- The loop of `PUT_STRING` (R196): paint, advance, then test `PEN >= 128`, codepoint by codepoint. -/
def paintText (size : Option FontSize) (y : Int) : List Nat → Int → List Host.Cell → Painted
  | [], pen, pb => { pb := pb, pen := pen, failed := none }
  | cp :: rest, pen, pb =>
    match (paintChar size pen y cp pb).failed with
    | some bad => { paintChar size pen y cp pb with failed := some bad }
    | none =>
      if Config.penLimit ≤ (paintChar size pen y cp pb).pen then paintChar size pen y cp pb
      else paintText size y rest (paintChar size pen y cp pb).pen (paintChar size pen y cp pb).pb

/-- The painted buffer enters the state; a codepoint that cannot be rasterised raises `GlyphLoadFailure` (R264), and what
was painted before it stays (R196). -/
def paintFlow (p : Painted) (s : State) : Flow :=
  match p.failed with
  | none => .ok { s with pb := p.pb }
  | some cp => .raised (raiseFault .glyphLoadFailure cp { s with pb := p.pb })

/-- The body of `SET_FONT_HEIGHT` (R190). -/
def fontHeightStep (px : Nat) (s : State) : Flow :=
  if fontSetOk s.env px then .ok { s with fh := px } else .raised (raiseFault .fontLoadFailure px s)

/-- `SET_FONT_HEIGHT` (R190). -/
def execSetFontHeight (px : Nat) (s : State) : Result := whenReady s (finishOperation (fontHeightStep px s))

/-- `PUT_STRING` (R196). -/
def execPutString (x y : Int) (text : List Nat) (s : State) : Result :=
  onCanvas s (finishOperation (paintFlow (paintText (sizeAt s.env.font s.fh) y text x s.pb) s))

/-- `PUT_CHAR` (R192). -/
def execPutChar (x y : Int) (codepoint : Nat) (s : State) : Result :=
  onCanvas s (finishMicro (paintFlow (paintChar (sizeAt s.env.font s.fh) x y codepoint s.pb) s))

end Sys2Proof.Machine
end

