-- ==== Sys2Proof/Machine/Lifecycle.lean ====
section
/-! DEFINITION. `CONSTRUCT` and `DESTRUCT` (`45_lifecycle.md`). -/

namespace Sys2Proof.Machine

/-- `INIT_SEQUENCE` (R237): basic function set, display on, extended function set with graphics, font height, each once and
in this order. -/
def initSequence (s : State) : Flow :=
  (functionSetStep false false s).andThen fun s1 =>
    (displayControlStep true false false s1).andThen fun s2 =>
      (functionSetStep true true s2).andThen fun s3 => fontHeightStep s3.env.initFontHeight s3

/-- The handle `open` and `configure` give (R34, D22). -/
def openedLink (busId deviceId : Byte) : LinkHandle :=
  { path := Config.transportPath busId deviceId, mode := Config.spiMode, speedHz := Config.spiSpeedHz }

/-- Both resources are held and `PB` is allocated and zeroed (R236: "for r in 0..31: for c in 0..15: MemWrite(r, c, 0)"; the
memory that lists nothing is the one whose every word is 0). -/
def acquired (busId deviceId : Byte) (s : State) : State :=
  { s with link := some (openedLink busId deviceId), face := some Config.fontResource, pb := [], pbExists := true }

/-- The body of `CONSTRUCT` (R236): open, configure, load the face, zero `PB`, run the initialisation sequence. A fault closes
what was opened (`raiseFault` releases the handles). -/
def constructFlow (busId deviceId : Byte) (s : State) : Flow :=
  if s.env.unopenable.contains (busId, deviceId) then .raised (raiseFault .deviceOpenFailure 0 s)
  else if !s.env.configureOk then .raised (raiseFault .modeConfigFailure 0 s)
  else if !s.env.loadFaceOk then .raised (raiseFault .fontLoadFailure 0 s)
  else (initSequence (acquired busId deviceId s)).andThen fun t => .ok { t with lc := .ready }

/-- `PB` is freed (R24, R242). -/
def freePixelBuffer (s : State) : State := { s with pb := [], pbExists := false }

/-- The body of `DESTRUCT` (R242): clear every pixel, flush all, release the resources. -/
def destructFlow (s : State) : Flow :=
  (flushAll { s with pb := drawRegion 0 0 127 63 false s.pb }).andThen fun t =>
    .ok { releaseHandles (freePixelBuffer t) with lc := .closed }

/-- `CONSTRUCT` (R236): needs `LC = OFF`, otherwise refused (U1). -/
def execConstruct (busId deviceId : Byte) (s : State) : Result :=
  if s.lc = .off then finishOperation (constructFlow busId deviceId s) else .refused .notOff

/-- `DESTRUCT` (R242). -/
def execDestruct (s : State) : Result := onCanvas s (finishOperation (destructFlow s))

end Sys2Proof.Machine
end

