-- ==== Sys2Proof/Machine/Wire.lean ====
section
/-! DEFINITION. The ten wire-level rows of the opcode table as instructions of their own: the panel takes one byte of a frame
(R81, R82, R282 to R284). The block is not touched: it keeps no copy of the panel's configuration (R29). -/

namespace Sys2Proof.Machine

/-- One wire byte acts on the panel and on nothing else. -/
def onPanel (effect : Panel → Except Refusal Panel) (s : State) : Result :=
  match s.panel.standing with
  | .unspecified => .refused .panelUnspecified
  | .following =>
    match effect s.panel with
    | .error why => .refused why
    | .ok p => .next { s with panel := p }

/-- `WIRE_FUNCTION_SET` (R86, R284). -/
def execWireFunctionSet (e g : Bool) (s : State) : Result := onPanel (Panel.functionSet e g) s

/-- `WIRE_DISPLAY_CONTROL` (R87, R284). -/
def execWireDisplayControl (d c b : Bool) (s : State) : Result := onPanel (Panel.displayControl d c b) s

/-- `WIRE_SHIFT_CONTROL` (R88, R284). -/
def execWireShiftControl (shifting right : Bool) (s : State) : Result := onPanel (Panel.shiftControl shifting right) s

/-- `WIRE_ENTRY_MODE` (R89, R284). -/
def execWireEntryMode (inc sh : Bool) (s : State) : Result := onPanel (Panel.entryMode inc sh) s

/-- `WIRE_GRAM_ADDR_ROW` (R90, R283). -/
def execWireGramAddrRow (row : BitVec 6) (s : State) : Result := onPanel (Panel.addrRow row) s

/-- `WIRE_GRAM_ADDR_COL` (R90, R283). -/
def execWireGramAddrCol (col : BitVec 4) (s : State) : Result := onPanel (Panel.addrCol col) s

/-- `WIRE_SYNC` (R81, R285). -/
def execWireSync (rw rs : Bool) (s : State) : Result := onPanel (Panel.sync rw rs) s

/-- `WIRE_NIBBLE_HIGH` (R82). -/
def execWireNibbleHigh (h : BitVec 4) (s : State) : Result := onPanel (Panel.nibbleHigh h) s

/-- `WIRE_NIBBLE_LOW` (R82). -/
def execWireNibbleLow (l : BitVec 4) (s : State) : Result := onPanel (Panel.nibbleLow l) s

/-- `WIRE_DATA` (R91, R282). -/
def execWireData (d : Byte) (s : State) : Result := onPanel (Panel.dataByte d) s

end Sys2Proof.Machine
end

