-- ==== Sys2Proof/Machine/Dispatch.lean ====
section
/-! DEFINITION. One arm per constructor of `Instr`, each one direct call of the instruction's meaning. -/

namespace Sys2Proof.Machine

def exec (i : Instr) (s : State) : Host.Outcome State Fault Refusal :=
  match i with
  | .construct busId deviceId => Sys2Proof.Machine.execConstruct busId deviceId s
  | .destruct => Sys2Proof.Machine.execDestruct s
  | .setFunctionSet ext gfx => Sys2Proof.Machine.execSetFunctionSet ext gfx s
  | .setDisplayControl d c b => Sys2Proof.Machine.execSetDisplayControl d c b s
  | .setShiftControl shifting right => Sys2Proof.Machine.execSetShiftControl shifting right s
  | .setEntryMode inc sh => Sys2Proof.Machine.execSetEntryMode inc sh s
  | .setFontHeight px => Sys2Proof.Machine.execSetFontHeight px s
  | .setPixel x y on => Sys2Proof.Machine.execSetPixel x y on s
  | .setRegion x1 y1 x2 y2 on => Sys2Proof.Machine.execSetRegion x1 y1 x2 y2 on s
  | .putString x y text => Sys2Proof.Machine.execPutString x y text s
  | .putBitmap x y width data => Sys2Proof.Machine.execPutBitmap x y width data s
  | .drawAll => Sys2Proof.Machine.execDrawAll s
  | .drawRow r => Sys2Proof.Machine.execDrawRow r s
  | .drawSectionsForBB x1 y1 x2 y2 => Sys2Proof.Machine.execDrawSectionsForBB x1 y1 x2 y2 s
  | .send rs rw data => Sys2Proof.Machine.execSend rs rw data s
  | .gramAddrSet row col => Sys2Proof.Machine.execGramAddrSet row col s
  | .putChar x y codepoint => Sys2Proof.Machine.execPutChar x y codepoint s
  | .wireFunctionSet e g => Sys2Proof.Machine.execWireFunctionSet e g s
  | .wireDisplayControl d c b => Sys2Proof.Machine.execWireDisplayControl d c b s
  | .wireShiftControl shifting right => Sys2Proof.Machine.execWireShiftControl shifting right s
  | .wireEntryMode inc sh => Sys2Proof.Machine.execWireEntryMode inc sh s
  | .wireGramAddrRow row => Sys2Proof.Machine.execWireGramAddrRow row s
  | .wireGramAddrCol col => Sys2Proof.Machine.execWireGramAddrCol col s
  | .wireSync rw rs => Sys2Proof.Machine.execWireSync rw rs s
  | .wireNibbleHigh h => Sys2Proof.Machine.execWireNibbleHigh h s
  | .wireNibbleLow l => Sys2Proof.Machine.execWireNibbleLow l s
  | .wireData d => Sys2Proof.Machine.execWireData d s

end Sys2Proof.Machine
end

