-- ==== Sys2Proof/Machine/Fetch.lean ====
section
/-! DEFINITION. Where the machine's next instruction comes from. The panel's side goes first, since the block starts its
next operation only after the bytes it sent have been taken (R22, R33): a payload byte the panel has joined, then a byte on
the serial line, then the host's next descriptor (R102, R246). In every run from reset that nothing puts line bytes into,
the panel's side has nothing waiting between operations (log 11). -/

namespace Sys2Proof.Machine

/-- Bytes to be read, where they are read, and the state with them taken from their place. -/
structure Waiting where
  port : Port
  bytes : List Byte
  rest : State
  deriving DecidableEq, Repr

/-- The bytes the machine reads next, if any wait. -/
def waiting (s : State) : Option Waiting :=
  match s.panel.regs.rx.payload with
  | some b => some { port := s.panel.payloadPort, bytes := [b], rest := s }
  | none =>
    match s.line with
    | b :: more => some { port := s.panel.linePort, bytes := [b], rest := { s with line := more } }
    | [] =>
      match s.port with
      | d :: more => some { port := .host, bytes := d, rest := { s with port := more } }
      | [] => none

/-- What a step has to do. -/
inductive Fetched where
  /-- Nothing waits: "the block waits for the next host operation" (R300). -/
  | idle
  /-- What waits is not an operation the machine admits there. -/
  | rejected (why : Refusal)
  /-- This instruction runs, in this state. -/
  | run (i : Instr) (s : State)
  deriving DecidableEq, Repr

/-- Read the next instruction, the coordinates of a descriptor at the machine's `COORD_W` (R11). At the host port an internal
micro-operation is refused (R104). -/
def fetch (s : State) : Fetched :=
  match waiting s with
  | none => .idle
  | some w =>
    match decode w.port w.bytes s.env.coordW with
    | .error why => .rejected (.undecodable why)
    | .ok i => if w.port = .host ∧ i.issuable = false then .rejected .internalOperation else .run i w.rest

/-- A place prepared for one instruction's bytes to be the next ones read there. At the host port nothing may wait on the
panel's side; an instruction byte waits as the joined first payload byte of an `rs = 0` frame; a line byte waits on the line
after a synchronisation byte. -/
def placeBytes (s : State) (port : Port) (bytes : List Byte) : State :=
  match port with
  | .host => { s with port := bytes :: s.port, line := [], panel.regs.rx.payload := none }
  | .line inFrame _ =>
    { s with
      line := bytes ++ s.line
      panel.regs.rx := { s.panel.regs.rx with inFrame := inFrame, high := none, payload := none } }
  | .instruction slot =>
    { s with
      panel.regs.rx :=
        { inFrame := true, rs := false, rw := false, high := none, slot := slot, payload := bytes.head? } }
  | .data =>
    { s with
      panel.regs.rx :=
        { inFrame := true, rs := true, rw := false, high := none, slot := .first, payload := bytes.head? } }
  | .read => s

end Sys2Proof.Machine
end

