-- ==== Sys2Proof/Machine/Step.lean ====
section
/-! DEFINITION. One step: read the next instruction and run it; with nothing to read, wait (R300, log 9). -/

namespace Sys2Proof.Machine

/-- One step of the machine. -/
def step (s : State) : Host.Outcome State Fault Refusal :=
  match fetch s with
  | .idle => .next s
  | .rejected why => .refused why
  | .run i t => exec i t

/-- `s` with the instruction of a table word where `step` reads its next instruction (log 9, log 11). -/
def State.withFetchWord (s : State) (nbits w : Nat) : State :=
  placeBytes s (tableWordPlace nbits w s.env.coordW).1 (tableWordPlace nbits w s.env.coordW).2

end Sys2Proof.Machine
end

