-- ==== Sys2Proof/Safety.lean ====
section
/-! DEFINITION. What counts as a good state, in the terms the statements use. -/

namespace Sys2Proof.Machine

/-- The invariant of the machine: both memories are canonical, a fault is recorded exactly in `FAULTED` (R27, R266), the
handles are open exactly in `READY` (R31), the PixelBuffer exists while `READY` and is empty where it does not exist (R24,
R32), the font height is one the FontProvider accepts while `READY` (R25, R190), and before `CONSTRUCT` nothing has been sent
or counted (R32). -/
structure State.Inv (s : State) : Prop where
  pbCanonical : pbWf s.pb = true
  gramCanonical : gramWf s.panel.gram = true
  faultRecorded : s.fault.isSome = true ↔ s.lc = .faulted
  linkOpen : s.link.isSome = true ↔ s.lc = .ready
  faceOpen : s.face.isSome = true ↔ s.lc = .ready
  pbWhenReady : s.lc = .ready → s.pbExists = true
  pbEmptyWhenAbsent : s.pbExists = false → s.pb = []
  pbAbsentOutside : s.lc = .off ∨ s.lc = .closed → s.pbExists = false
  heightAccepted : s.lc = .ready → fontSetOk s.env s.fh = true
  quietBefore : s.lc = .off → s.trace = [] ∧ s.ci = 0

/-- A frame as the block may send it: a synchronisation byte with `rw = 0`, then nibble bytes, two to a payload byte (R80 to
R82). -/
def wellFramed : Event → Bool
  | .settle => true
  | .tx [] => false
  | .tx (b :: rest) => (b == 0xF8 || b == 0xFA) && rest.length % 2 == 0 && rest.all fun v => v &&& 0x0F == 0

/-- A frame that carries one instruction byte: the synchronisation byte of an instruction frame and two nibble bytes. -/
def oneByteInstruction : Event → Bool
  | .tx [b, _, _] => b == 0xF8
  | _ => false

/-- Every one-byte instruction frame is followed at once by its settle delay (R141, R310). -/
def paced : List Event → Bool
  | [] => true
  | e :: rest => (!oneByteInstruction e || rest.head? == some .settle) && paced rest

/-- No coming write is made to fail: the reference behaviour of R35 for as long as the list says. -/
def linkSound (s : State) : Bool := s.env.writes.all fun w => w == .all

/-- The panel takes frames as R282 and R283 describe: the model speaks for it, it is in extended graphics mode (U14),
and it is not busy. -/
def panelListening (p : Panel) : Bool :=
  p.standing == .following && p.regs.modeE && p.regs.modeG && p.regs.busyUs == 0

/-- The panel is not busy and the model speaks for it, but it is in the basic set or graphics is off, where U14 gives a
flush's frames no meaning. -/
def panelDeaf (p : Panel) : Bool :=
  p.standing == .following && p.regs.busyUs == 0 && !(p.regs.modeE && p.regs.modeG)

/-- A payload byte to which the spec gives no meaning in the frame the panel stands in: any byte of an `rw = 1` frame; a data
byte outside extended graphics mode (U14), or the second of a pair for a row above 31 (U11); an instruction byte outside the
five patterns of R86 to R90 (U9), an address byte outside extended graphics mode, a row above 31, a second address byte that
is no column byte, and any byte after the frame's instruction. -/
def payloadMeaningless (p : Panel) (d : Byte) : Bool :=
  let graphic := p.regs.modeE && p.regs.modeG
  if p.regs.rx.rw then true
  else if p.regs.rx.rs then !graphic || (p.regs.bp && decide (32 ≤ p.regs.ar.toNat))
  else
    match p.regs.rx.slot with
    | .first =>
      !([0x30, 0x34, 0x36, 0x10, 0x14, 0x18, 0x1C, 0x04, 0x05, 0x06, 0x07].contains d.toNat ||
        decide (0x08 ≤ d.toNat ∧ d.toNat ≤ 0x0F) || (graphic && decide (0x80 ≤ d.toNat ∧ d.toNat ≤ 0x9F)))
    | .column => !(graphic && decide (0x80 ≤ d.toNat ∧ d.toNat ≤ 0x8F))
    | .done => true

/-- A byte of the serial line to which the spec gives no meaning where the panel stands: neither a synchronisation byte nor a
nibble byte (R84), a nibble byte before any frame (R80), or the second nibble of a payload byte without meaning. -/
def lineByteMeaningless (p : Panel) (b : Byte) : Bool :=
  if [0xF8, 0xFA, 0xFC, 0xFE].contains b.toNat then false
  else if b.toNat % 16 ≠ 0 || !p.regs.rx.inFrame then true
  else
    match p.regs.rx.high with
    | none => false
    | some h => payloadMeaningless p (h ++ b.extractLsb' 4 4)

/-! ## Drawing -/

/-- The address of the byte of `PB` that holds a pixel: the word-cell of R52, its high byte for the left eight pixels. -/
def pixelByte (x y : Nat) : Nat := cellAddr (wordRow y) (wordCol x y) + x % 16 / 8

/-- What a drawing leaves: on the canvas exactly the pixels of `paints` are `on` and every other is as it was, and every byte
outside the bytes that hold them reads as before. -/
def Draws (paints : Nat → Nat → Prop) (on : Bool) (before after : List Host.Cell) : Prop :=
  (∀ x y, x < 128 → y < 64 → paints x y → pixelOf after x y = on) ∧
  (∀ x y, x < 128 → y < 64 → ¬ paints x y → pixelOf after x y = pixelOf before x y) ∧
  ∀ a, (∀ x y, x < 128 → y < 64 → paints x y → a ≠ pixelByte x y) → pbByte after a = pbByte before a

/-- The pixels a glyph covers with the pen at `(pen, y)`, under an ascender (R192, R193). -/
def glyphPaints (g : Glyph) (ascender pen y : Int) (px py : Nat) : Prop :=
  ∃ r xa : Nat, r < g.rows ∧ xa < g.width ∧ glyphBit g r xa = true ∧ (px : Int) = pen + xa + g.left ∧
    (py : Int) = ascender / 64 + y - g.top + r

/-- The advance of a codepoint in whole pixels, `ceil(adv / 64)` (R194); 0 where there is no glyph. -/
def advancePx (size : FontSize) (cp : Nat) : Int :=
  match glyphAt size cp with
  | none => 0
  | some g => (g.adv + 63) / 64

/-- The pen after the first `i` codepoints of a text (R197): each advance is rounded up on its own. -/
def penAfter (size : FontSize) (x : Int) (text : List Nat) (i : Nat) : Int :=
  x + ((text.take i).map (advancePx size)).sum

/-- Codepoint `i` of a text is looked at (R197): every pen value after an earlier advance was below 128. -/
def penReaches (size : FontSize) (x : Int) (text : List Nat) (i : Nat) : Prop :=
  i < text.length ∧ ∀ m, 1 ≤ m → m ≤ i → penAfter size x text m < 128

/-- The pixels the first `n` codepoints of a text cover, those that are looked at (R196, R197). -/
def textPaints (size : FontSize) (x y : Int) (text : List Nat) (n : Nat) (px py : Nat) : Prop :=
  ∃ i cp g, i < n ∧ penReaches size x text i ∧ text[i]? = some cp ∧ glyphAt size cp = some g ∧
    glyphPaints g size.ascender (penAfter size x text i) y px py

/-- The pixels a bitmap covers (R221): bit `n` of the stream, bit `7 - n mod 8` of byte `n div 8`, lands at
`(x + n mod width, y + n div width)`. -/
def bitmapPaints (x y width : Int) (data : List Byte) (px py : Nat) : Prop :=
  ∃ n : Nat, ∃ b : Byte, data[n / 8]? = some b ∧ b.getLsbD (7 - n % 8) = true ∧
    (px : Int) = x + (n : Int) % width ∧ (py : Int) = y + (n : Int) / width

/-! ## Sending -/

/-- A `Transport.write` result that means the whole of these bytes was transferred (R35). -/
def goesThrough (bytes : List Byte) : WriteResult → Bool
  | .all => true
  | .count n => decide (bytes.length ≤ n)
  | .error => false

/-- The information word of a failed write (R260): the bytes it reported, or 0 on `Error`. -/
def reported : WriteResult → Nat
  | .all => 0
  | .count n => n
  | .error => 0

/-- How many of these frames, from the first on, the coming write results let through. -/
def framesThrough : List (List Byte) → List WriteResult → Nat
  | [], _ => 0
  | f :: rest, results =>
    if goesThrough f (results.headD .all) then framesThrough rest (results.drop 1) + 1 else 0

/-- The state after these frames went out: their `TX` events in the trace, their bytes with the panel, a write result used
up for each. -/
def State.sent (s : State) (frames : List (List Byte)) : State :=
  { s with
    trace := s.trace ++ frames.map Event.tx
    panel := frames.foldl Panel.receive s.panel
    env.writes := s.env.writes.drop frames.length }

/-- The state after the next write failed (R265, R266, R31): no `TX`, the fault with its information word, the handles
released, the panel any value, the failing result used up. -/
def State.writeFailed (s : State) : State :=
  { s with
    fault := some { kind := .transportWriteFailure, info := reported (s.env.writes.headD .all) }
    lc := .faulted
    link := none
    face := none
    panel := s.panel.anyValue
    env.writes := s.env.writes.drop 1 }

/-- The two wire bytes of each payload byte, written out (R82). -/
def wireNibbles (data : List Byte) : List Byte :=
  data.flatMap fun b => [b.extractLsb' 4 4 ++ 0#4, b.extractLsb' 0 4 ++ 0#4]

/-- The frame that points the panel at word-cell `(row, col)` (R90, R146): two payload bytes, `10` and six row bits, `1000`
and four column bits. -/
def addressFrame (row col : Nat) : List Byte :=
  0xF8 :: wireNibbles [0b10#2 ++ BitVec.ofNat 6 row, 0b1000#4 ++ BitVec.ofNat 4 col]

/-- The frame that carries these words of pixel data (R58, R174): each high byte first. -/
def dataFrame (words : List Word) : List Byte :=
  0xFA :: wireNibbles (words.flatMap fun w => [w.extractLsb' 8 8, w.extractLsb' 0 8])

/-- The two frames of `DRAW_ROW r` (R174). -/
def rowFrames (pb : List Host.Cell) (r : Nat) : List (List Byte) :=
  let c0 := if 32 ≤ r then 8 else 0
  [addressFrame (r % 32) c0, dataFrame ((List.range 8).map fun k => memRead pb (r % 32) (c0 + k))]

/-- The frames of `DRAW_ALL` (R176): rows 0 to 63. -/
def canvasFrames (pb : List Host.Cell) : List (List Byte) := (List.range 64).flatMap (rowFrames pb)

/-- The word-cells of a box in the order R170 visits them: rows `y1` to `y2`, then columns `x1 div 16` to `x2 div 16`. -/
def boxVisits (x1 y1 x2 y2 : Nat) : List (Nat × Nat) :=
  (List.range (y2 + 1 - y1)).flatMap fun dy =>
    (List.range (x2 / 16 + 1 - x1 / 16)).map fun dj =>
      ((y1 + dy) % 32, x1 / 16 + dj + if 32 ≤ y1 + dy then 8 else 0)

/-- The frames of `DRAW_SECTIONS_FOR_BB` (R170): one address frame and one data frame per cell. -/
def boxFrames (pb : List Host.Cell) (x1 y1 x2 y2 : Nat) : List (List Byte) :=
  (boxVisits x1 y1 x2 y2).flatMap fun cell => [addressFrame cell.1 cell.2, dataFrame [memRead pb cell.1 cell.2]]

/-- An instruction frame and the settle delay after it (R141). -/
def State.instructed (s : State) (b : Byte) : State :=
  let t := s.sent [0xF8 :: wireNibbles [b]]
  { t with trace := t.trace ++ [.settle], panel.regs.busyUs := t.panel.regs.busyUs - t.env.settleMin }

/-! ## The panel -/

/-- The panel is where a configuration instruction finds it in a run of the block: the model speaks for it, it is not busy,
and its settle floor is no longer than `T_SETTLE_MIN` (R285). -/
def panelPaced (s : State) : Bool :=
  s.panel.standing == .following && s.panel.regs.busyUs == 0 && decide (s.panel.floorUs ≤ s.env.settleMin)

/-- GRAM word-cell `(r, c)` holds the word `PB` has there. -/
def gramShows (p : Panel) (pb : List Host.Cell) (r c : Nat) : Prop := gramRead p.gram r c = some (memRead pb r c)

end Sys2Proof.Machine
end

