-- ==== Sys2Proof/Certificates/Slice0/Obligations.lean ====
section
/-! DEFINITION. The statements for the provers. `ready` in a docstring means `LC = READY` with `PB` present, which the invariant
`State.Inv` ties together. -/

section

open Sys2Proof Sys2Proof.Machine

/-! ## Reset, decoding, stepping -/

/-- Reset is the state before `CONSTRUCT` (R32, R300): no PixelBuffer, nothing open, no fault, an empty trace, no operation
counted. -/
def Obligations.ResetIsBeforeConstruct : Prop :=
  State.reset.lc = .off ∧ State.reset.pbExists = false ∧ State.reset.link = none ∧ State.reset.face = none ∧
    State.reset.fault = none ∧ State.reset.trace = [] ∧ State.reset.ci = 0

/-- Words written out from R81, R82, R86 to R90 and from the layouts of R103 decode to the instruction they stand for. -/
def Obligations.SampleWordsDecode : Prop :=
  decode .host [0x20, 0xFF, 0xFF, 0x00, 0x05, 0x01] = .ok (.setPixel (-1) 5 true) ∧
    decode .host [0x22, 0x00, 0x02, 0x00, 0x0A, 0x00, 0x01, 0x00, 0x01, 0xF6, 0x00] = .ok (.putString 2 10 [0x1F600]) ∧
    decode .host [0x23, 0x00, 0x0A, 0x00, 0x1F, 0x00, 0x0C, 0x00, 0x02, 0xFF, 0xF0] =
      .ok (.putBitmap 10 31 12 [0xFF, 0xF0]) ∧
    decode (.line true false) [0b11111010] = .ok (.wireSync false true) ∧
    decode (.line true true) [0b10100000] = .ok (.wireNibbleLow 0b1010) ∧
    decode (.instruction .first) [0b00110110] = .ok (.wireFunctionSet true true) ∧
    decode (.instruction .first) [0b00010100] = .ok (.wireShiftControl false true) ∧
    decode (.instruction .first) [0b10011111] = .ok (.wireGramAddrRow 31) ∧
    decode (.instruction .column) [0b10001001] = .ok (.wireGramAddrCol 9)

/-- Every instruction whose operands fit their encoding is read back from its bytes, at every width `COORD_W` of a coordinate
(R11; its bytes at other widths than the default are the model's, log 34). -/
def Obligations.DecodeOfEncode : Prop :=
  ∀ (coordW : Nat) (i : Instr), i.wf coordW = true → decode i.port (encode i coordW) coordW = .ok i

/-- Whatever the decoder reads, at any place, fits its encoding, and the bytes are the ones the encoder writes: no byte is
ignored, a length or a `bool` that is off is never accepted (R105). `COORD_W` may have any value (R11, log 34). -/
def Obligations.EncodeOfDecode : Prop :=
  ∀ (coordW : Nat) (port : Port) (bytes : List Byte) (i : Instr), decode port bytes coordW = .ok i →
    i.wf coordW = true ∧ encode i coordW = bytes

/-- A step runs the instruction that what waits decodes to: a joined payload byte of the panel first, then a byte of the
serial line, then the host's next descriptor, whose bytes are gone from the port while it runs; with nothing waiting the
block waits (R300). A descriptor is read at the machine's `COORD_W`. The order is the model's (log 11). -/
def Obligations.StepRunsWhatWaits : Prop :=
  ∀ (s : State) (i : Instr),
    (∀ b, s.panel.regs.rx.payload = some b → decode s.panel.payloadPort [b] = .ok i → step s = exec i s) ∧
    (∀ b more, s.panel.regs.rx.payload = none → s.line = b :: more → decode s.panel.linePort [b] = .ok i →
      step s = exec i { s with line := more }) ∧
    (∀ d more, s.panel.regs.rx.payload = none → s.line = [] → s.port = d :: more →
      decode .host d s.env.coordW = .ok i → i.issuable = true → step s = exec i { s with port := more }) ∧
    (s.panel.regs.rx.payload = none → s.line = [] → s.port = [] → step s = .next s)

/-- At the host port a reserved code, an internal code and any malformed descriptor are refused (R104, R105): no descriptor
that is not the encoding of an issuable operation runs. -/
def Obligations.HostPortRefusesOthers : Prop :=
  ∀ (s : State) (d : List Byte) (more : List (List Byte)),
    s.panel.regs.rx.payload = none → s.line = [] → s.port = d :: more →
    (∀ i : Instr, i.wf s.env.coordW = true → i.port = .host → i.issuable = true → d ≠ encode i s.env.coordW) →
    ∃ why, step s = .refused why

/-! ## Encodings -/

/-- R82: a payload byte becomes two wire bytes, its high nibble and its low nibble in bits 7:4 with bits 3:0 zero, and the
receiver recovers it as `first | (second >> 4)`. -/
def Obligations.NibblesCarryTheByte : Prop :=
  ∀ b : Byte, ∃ first second : Byte, nibbleBytes b = [first, second] ∧
    first = b &&& 0xF0 ∧ second = (b &&& 0x0F) <<< 4 ∧
    (∀ i, i < 4 → first.getLsbD i = false ∧ second.getLsbD i = false ∧ first.getLsbD (4 + i) = b.getLsbD (4 + i) ∧
      second.getLsbD (4 + i) = b.getLsbD i) ∧
    first ||| (second >>> 4) = b

/-- R86 to R89: the four instruction bytes, bit for bit; `G` only with `E`, so 0x32 is never formed. -/
def Obligations.InstructionBytesAreTheirPatterns : Prop :=
  (∀ ext gfx, functionSetByte ext gfx = 0b00110#5 ++ BitVec.ofBool ext ++ BitVec.ofBool (ext && gfx) ++ 0#1 ∧
    functionSetByte ext gfx ≠ 0x32) ∧
  (∀ d c b, displayControlByte d c b = 0b00001#5 ++ BitVec.ofBool d ++ BitVec.ofBool c ++ BitVec.ofBool b) ∧
  (∀ s right, shiftControlByte s right = 0b0001#4 ++ BitVec.ofBool s ++ BitVec.ofBool right ++ 0#2) ∧
  (∀ inc sh, entryModeByte inc sh = 0b000001#6 ++ BitVec.ofBool inc ++ BitVec.ofBool sh)

/-- R52: pixel `(x, y)` of the canvas is bit `15 - (x mod 16)` of word `(y mod 32, x div 16 + (8 if y >= 32))`, and this is a
bijection between the pixels and the bits of the 32 x 16 words. -/
def Obligations.PixelMapIsBijective : Prop :=
  (∀ (pb : List Host.Cell) (x y : Nat), x < 128 → y < 64 →
    y % 32 < 32 ∧ x / 16 + (if 32 ≤ y then 8 else 0) < 16 ∧
    pixelOf pb x y = (memRead pb (y % 32) (x / 16 + if 32 ≤ y then 8 else 0)).getLsbD (15 - x % 16)) ∧
  ∀ r c b : Nat, r < 32 → c < 16 → b < 16 →
    ∃ x y : Nat, (x < 128 ∧ y < 64 ∧ y % 32 = r ∧ x / 16 + (if 32 ≤ y then 8 else 0) = c ∧ 15 - x % 16 = b) ∧
      ∀ x' y' : Nat, x' < 128 → y' < 64 → y' % 32 = r → x' / 16 + (if 32 ≤ y' then 8 else 0) = c → 15 - x' % 16 = b →
        x' = x ∧ y' = y

/-- R54: pixel (0, 31) is in word-row 31, bank column 0; pixel (0, 32) in word-row 0, bank column 8. -/
def Obligations.BankSwitchesAtRow32 : Prop :=
  wordRow 31 = 31 ∧ wordCol 0 31 = 0 ∧ wordRow 32 = 0 ∧ wordCol 0 32 = 8

/-! ## Drawing -/

/-- `SET_PIXEL` on the canvas (R120): exactly the named bit of the one word changes, every other byte of `PB` reads as
before; off the canvas nothing changes. It completes, and nothing but `PB` and `CI` changes. -/
def Obligations.SetPixelWritesOneBit : Prop :=
  ∀ (s : State) (on : Bool), s.lc = .ready → s.pbExists = true →
    (∀ x y : Nat, x < 128 → y < 64 → ∃ m, exec (.setPixel x y on) s = .next { s with pb := m, ci := s.ci + 1 } ∧
      memRead m (y % 32) (x / 16 + if 32 ≤ y then 8 else 0) =
        (if on then memRead s.pb (y % 32) (x / 16 + if 32 ≤ y then 8 else 0) ||| (1#16 <<< (15 - x % 16))
        else memRead s.pb (y % 32) (x / 16 + if 32 ≤ y then 8 else 0) &&& ~~~(1#16 <<< (15 - x % 16))) ∧
      ∀ a, a ≠ cellAddr (y % 32) (x / 16 + if 32 ≤ y then 8 else 0) →
        a ≠ cellAddr (y % 32) (x / 16 + if 32 ≤ y then 8 else 0) + 1 → pbByte m a = pbByte s.pb a) ∧
    ∀ x y : Int, (x < 0 ∨ 128 ≤ x ∨ y < 0 ∨ 64 ≤ y) → exec (.setPixel x y on) s = .next { s with ci := s.ci + 1 }

/-- The laws of R121, read with `GET_PIXEL` (R124): round trip, frame, and out of range. -/
def Obligations.SetPixelRoundTrips : Prop :=
  ∀ (s : State) (x y : Int) (on : Bool), s.lc = .ready → s.pbExists = true → ∃ t, exec (.setPixel x y on) s = .next t ∧
    t.fault = s.fault ∧
    ((0 ≤ x ∧ x < 128 ∧ 0 ≤ y ∧ y < 64) → getPixel t x y = some on) ∧
    ∀ x' y' : Int, (x', y') ≠ (x, y) → getPixel t x' y' = getPixel s x' y'

/-- `SET_REGION` (R122): exactly the pixels of the inclusive rectangle that lie on the canvas become `on`; none when the
corners are reversed. It completes. -/
def Obligations.SetRegionDrawsRectangle : Prop :=
  ∀ (s : State) (x1 y1 x2 y2 : Int) (on : Bool), s.lc = .ready → s.pbExists = true →
    ∃ m, exec (.setRegion x1 y1 x2 y2 on) s = .next { s with pb := m, ci := s.ci + 1 } ∧
      Draws (fun x y => x1 ≤ (x : Int) ∧ (x : Int) ≤ x2 ∧ y1 ≤ (y : Int) ∧ (y : Int) ≤ y2) on s.pb m

/-- How many pixels `SET_REGION` writes (R123), each once: the general count of the rule, and the source's count for a
rectangle inside the canvas. -/
def Obligations.RegionPixelCount : Prop :=
  ∀ x1 y1 x2 y2 : Int, (regionPixels x1 y1 x2 y2).Nodup ∧
    ((regionPixels x1 y1 x2 y2).length : Int) =
      max 0 (min x2 127 - max x1 0 + 1) * max 0 (min y2 63 - max y1 0 + 1) ∧
    (0 ≤ x1 → x1 ≤ x2 → x2 ≤ 127 → 0 ≤ y1 → y1 ≤ y2 → y2 ≤ 63 →
      ((regionPixels x1 y1 x2 y2).length : Int) = (x2 - x1 + 1) * (y2 - y1 + 1))

/-- `PUT_BITMAP` (R220, R221): a pixel is on afterwards exactly when it was on before or a set bit `n` of the stream lands on
it. It completes for every `width >= 1`. -/
def Obligations.PutBitmapDrawsStream : Prop :=
  ∀ (s : State) (x y width : Int) (data : List Byte), s.lc = .ready → s.pbExists = true → 1 ≤ width →
    ∃ m, exec (.putBitmap x y width data) s = .next { s with pb := m, ci := s.ci + 1 } ∧
      Draws (bitmapPaints x y width data) true s.pb m

/-- `PUT_CHAR` (R192, R264): it turns on exactly the pixels of the glyph's set bits; a codepoint without a glyph at `FH`
raises `GlyphLoadFailure` with nothing painted. It counts no host operation (log 10); that the fault closes both handles is
R31, and the model's choice against R266 (log 12). -/
def Obligations.PutCharPaintsGlyph : Prop :=
  ∀ (s : State) (x y : Int) (cp : Nat), s.lc = .ready → s.pbExists = true →
    (∀ size g, sizeAt s.env.font s.fh = some size → glyphAt size cp = some g →
      ∃ m, exec (.putChar x y cp) s = .next { s with pb := m } ∧ Draws (glyphPaints g size.ascender x y) true s.pb m) ∧
    ((∀ size, sizeAt s.env.font s.fh = some size → glyphAt size cp = none) →
      exec (.putChar x y cp) s = .next
        { s with fault := some { kind := .glyphLoadFailure, info := cp }, lc := .faulted, link := none, face := none })

/-- `PUT_STRING` (R196, R197): when every codepoint that is looked at has a glyph, the operation completes and turns on
exactly the pixels of the glyphs, each at its own pen position, up to the pen stop. -/
def Obligations.PutStringPaintsText : Prop :=
  ∀ (s : State) (x y : Int) (text : List Nat) (size : FontSize), s.lc = .ready → s.pbExists = true →
    sizeAt s.env.font s.fh = some size →
    (∀ i cp, penReaches size x text i → text[i]? = some cp → (glyphAt size cp).isSome = true) →
    ∃ m, exec (.putString x y text) s = .next { s with pb := m, ci := s.ci + 1 } ∧
      Draws (textPaints size x y text text.length) true s.pb m

/-- `PUT_STRING` and a codepoint without a glyph (R196, R264, R266, R268): the first one that is looked at raises
`GlyphLoadFailure` with itself as information word; the glyphs before it stay painted, nothing after it is; a codepoint
beyond the pen stop cannot fault: where every codepoint that is looked at has a glyph, no fault is raised, whatever stands
after them. With no face at `FH` the first codepoint faults and an empty text completes. That the fault closes both handles
is R31, and the model's choice against R266 (log 12). -/
def Obligations.PutStringStopsAtMissingGlyph : Prop :=
  ∀ (s : State) (x y : Int) (text : List Nat), s.lc = .ready → s.pbExists = true →
    (∀ (size : FontSize) (i cp : Nat), sizeAt s.env.font s.fh = some size → penReaches size x text i →
      text[i]? = some cp → glyphAt size cp = none →
      (∀ j c, j < i → text[j]? = some c → (glyphAt size c).isSome = true) →
      ∃ m, exec (.putString x y text) s = .next
          { s with
            pb := m, fault := some { kind := .glyphLoadFailure, info := cp }, lc := .faulted, link := none, face := none } ∧
        Draws (textPaints size x y text i) true s.pb m) ∧
    (∀ size : FontSize, sizeAt s.env.font s.fh = some size →
      (∀ i cp, penReaches size x text i → text[i]? = some cp → (glyphAt size cp).isSome = true) →
      ∃ t, exec (.putString x y text) s = .next t ∧ t.fault = s.fault ∧ t.lc = .ready) ∧
    (sizeAt s.env.font s.fh = none →
      (∀ cp rest, text = cp :: rest → exec (.putString x y text) s = .next
        { s with fault := some { kind := .glyphLoadFailure, info := cp }, lc := .faulted, link := none, face := none }) ∧
      (text = [] → exec (.putString x y text) s = .next { s with ci := s.ci + 1 }))

/-- `SET_FONT_HEIGHT` (R190, R263): an accepted height becomes `FH` and nothing else changes; a rejected one raises
`FontLoadFailure(px)`, `LC` becomes `FAULTED` (R266) and `FH` keeps its value. That the fault closes both handles is R31, and
the model's choice against R266 (log 12). -/
def Obligations.SetFontHeightSetsOrFaults : Prop :=
  ∀ (s : State) (px : Nat), s.lc = .ready →
    (fontSetOk s.env px = true → exec (.setFontHeight px) s = .next { s with fh := px, ci := s.ci + 1 }) ∧
    (fontSetOk s.env px = false → exec (.setFontHeight px) s = .next
      { s with fault := some { kind := .fontLoadFailure, info := px }, lc := .faulted, link := none, face := none })

/-! ## Sending -/

/-- R142 to R145: each configuration operation sends its one instruction byte and settles, keeping no record of it; when the
write fails it faults as `SEND` does. When the panel takes the bytes is the model's (log 8), and so is what the panel does
with the wait (log 20). That the fault closes both handles is R31, and the model's choice against R266 (log 12). -/
def Obligations.ConfigurationSendsItsByte : Prop :=
  ∀ s : State, s.lc = .ready → ∀ (i : Instr) (v : Byte),
    ((∃ ext gfx, i = .setFunctionSet ext gfx ∧ v = if ext then (if gfx then 0x36 else 0x34) else 0x30) ∨
      (∃ d c b, i = .setDisplayControl d c b ∧ v = 0x08 ||| (flagBit d <<< 2) ||| (flagBit c <<< 1) ||| flagBit b) ∨
      (∃ sh right, i = .setShiftControl sh right ∧ v = 0x10 ||| (flagBit sh <<< 3) ||| (flagBit right <<< 2)) ∨
      ∃ inc sh, i = .setEntryMode inc sh ∧ v = 0x04 ||| (flagBit inc <<< 1) ||| flagBit sh) →
    (goesThrough [0xF8, v &&& 0xF0, (v &&& 0x0F) <<< 4] (s.env.writes.headD .all) = true →
      exec i s = .next
        { s with
          trace := s.trace ++ [.tx [0xF8, v &&& 0xF0, (v &&& 0x0F) <<< 4], .settle]
          panel := (s.panel.receive [0xF8, v &&& 0xF0, (v &&& 0x0F) <<< 4]).wait s.env.settleMin
          env.writes := s.env.writes.drop 1
          ci := s.ci + 1 }) ∧
    (goesThrough [0xF8, v &&& 0xF0, (v &&& 0x0F) <<< 4] (s.env.writes.headD .all) = false →
      exec i s = .next s.writeFailed)

/-- R140: `SEND` writes one frame, the synchronisation byte and two nibble bytes for each payload byte, in one call and
without waiting, or faults when the write fails; R83's example is an instance. The faulted state is R265's and R266's, with
the handles released (log 12); that the panel has the frame at once is the model's (log 8). -/
def Obligations.SendWritesOneFrame : Prop :=
  (∀ (s : State) (rs rw : Bool) (data : List Byte) (frame : List Byte), s.lc = .ready →
    frame = (0xF8 ||| (flagBit rw <<< 2) ||| (flagBit rs <<< 1)) ::
      data.flatMap (fun b => [b &&& 0xF0, (b &&& 0x0F) <<< 4]) →
    frame.length = 1 + 2 * data.length ∧
    (goesThrough frame (s.env.writes.headD .all) = true → exec (.send rs rw data) s = .next (s.sent [frame])) ∧
    (goesThrough frame (s.env.writes.headD .all) = false → exec (.send rs rw data) s = .next s.writeFailed)) ∧
  frameBytes true false [0xAB] = [0xFA, 0xA0, 0xB0]

/-- `GRAM_ADDR_SET` (R146, R90): both address bytes in one frame of five bytes, the operands masked to six and four bits, no
settle delay. That the panel has the bytes when the write returns is the model's (log 8), and so
is that the fault closes both handles, which is R31 against R266 (log 12). -/
def Obligations.GramAddrSetWritesOneFrame : Prop :=
  ∀ (s : State) (row col : Nat), s.lc = .ready →
    addressFrame row col = addressFrame (row % 64) (col % 16) ∧ (addressFrame row col).length = 5 ∧
    (goesThrough (addressFrame row col) (s.env.writes.headD .all) = true →
      exec (.gramAddrSet row col) s = .next (s.sent [addressFrame row col])) ∧
    (goesThrough (addressFrame row col) (s.env.writes.headD .all) = false →
      exec (.gramAddrSet row col) s = .next s.writeFailed)

/-- `DRAW_ROW` (R174): the address frame and the eight words of the row's bank in one data frame, `PB` unchanged; a write that
fails leaves the frames before it sent and raises its fault (R265, R266). That the panel has the bytes when the write returns
is the model's (log 8), and so is that the fault closes both handles, which is R31 against R266 (log 12). -/
def Obligations.DrawRowSendsTheRow : Prop :=
  ∀ (s : State) (r : Nat), s.lc = .ready → s.pbExists = true → r ≤ 63 →
    (framesThrough (rowFrames s.pb r) s.env.writes = 2 →
      exec (.drawRow r) s = .next { s.sent (rowFrames s.pb r) with ci := s.ci + 1 }) ∧
    ∀ k, k < 2 → framesThrough (rowFrames s.pb r) s.env.writes = k →
      exec (.drawRow r) s = .next (s.sent ((rowFrames s.pb r).take k)).writeFailed

/-- `DRAW_ALL` (R176): the frames of rows 0 to 63 in order, no settle delay, `PB` unchanged; a write that fails leaves the
frames before it sent and raises its fault (R265, R266). That the panel has the bytes when the write returns is the model's
(log 8), and so is that the fault closes both handles, which is R31 against R266 (log 12). -/
def Obligations.DrawAllSendsEveryRow : Prop :=
  ∀ s : State, s.lc = .ready → s.pbExists = true →
    (framesThrough (canvasFrames s.pb) s.env.writes = 128 →
      exec .drawAll s = .next { s.sent (canvasFrames s.pb) with ci := s.ci + 1 }) ∧
    ∀ k, k < 128 → framesThrough (canvasFrames s.pb) s.env.writes = k →
      exec .drawAll s = .next (s.sent ((canvasFrames s.pb).take k)).writeFailed

/-- `DRAW_SECTIONS_FOR_BB` (R170): for each row and each word-cell column the box touches, an address frame and one word;
nothing when `y1 > y2` or `x1 div 16 > x2 div 16`. The column step is decision D5. A write that fails leaves the frames
before it sent and raises its fault (R265, R266). That the panel has the bytes when the write returns is the model's (log
8), and so is that the fault closes both handles, which is R31 against R266 (log 12). -/
def Obligations.DrawSectionsSendsTouchedCells : Prop :=
  ∀ (s : State) (x1 y1 x2 y2 : Nat), s.lc = .ready → s.pbExists = true →
    x1 ≤ 127 → x2 ≤ 127 → y1 ≤ 63 → y2 ≤ 63 →
    (framesThrough (boxFrames s.pb x1 y1 x2 y2) s.env.writes = (boxFrames s.pb x1 y1 x2 y2).length →
      exec (.drawSectionsForBB x1 y1 x2 y2) s = .next { s.sent (boxFrames s.pb x1 y1 x2 y2) with ci := s.ci + 1 }) ∧
    ∀ k, k < (boxFrames s.pb x1 y1 x2 y2).length → framesThrough (boxFrames s.pb x1 y1 x2 y2) s.env.writes = k →
      exec (.drawSectionsForBB x1 y1 x2 y2) s = .next (s.sent ((boxFrames s.pb x1 y1 x2 y2).take k)).writeFailed

/-- How many frames and bytes a flush appends to the trace when every write goes through (R171, R174, R176): two frames of 5
and 33 bytes for a row, 128 frames and 2432 bytes for the canvas, and for a box two frames and ten bytes for each row and
each word-cell column it touches: none when `y1 > y2` or `x1 div 16 > x2 div 16`, and one column (R170) when `x1 > x2` lie
in one word-cell. -/
def Obligations.FlushSizes : Prop :=
  ∀ s : State, s.lc = .ready → s.pbExists = true → linkSound s = true →
    (∀ r : Nat, r ≤ 63 → ∃ (t : State) (frames : List (List Byte)), exec (.drawRow r) s = .next t ∧
      t.trace = s.trace ++ frames.map Event.tx ∧ frames.map List.length = [5, 33]) ∧
    (∃ (t : State) (frames : List (List Byte)), exec .drawAll s = .next t ∧
      t.trace = s.trace ++ frames.map Event.tx ∧ frames.length = 128 ∧ (frames.map List.length).sum = 2432) ∧
    ∀ x1 y1 x2 y2 : Nat, x1 ≤ 127 → x2 ≤ 127 → y1 ≤ 63 → y2 ≤ 63 →
      ∃ (t : State) (frames : List (List Byte)), exec (.drawSectionsForBB x1 y1 x2 y2) s = .next t ∧
        t.trace = s.trace ++ frames.map Event.tx ∧
        frames.length = 2 * (y2 + 1 - y1) * (x2 / 16 + 1 - x1 / 16) ∧
        (frames.map List.length).sum = 10 * (y2 + 1 - y1) * (x2 / 16 + 1 - x1 / 16)

/-! ## What a flush leaves in the panel (R282, R283, R287) -/

/-- After `DRAW_ROW r` the eight GRAM cells of the row's bank equal `PB`, every other GRAM cell reads as before, when
`AUTO_INC` holds and the panel is in extended graphics mode (R287). In the basic set or with graphics off (U14, R316) the
block sends the same frames and completes, but nothing is said of the panel any more: it is unspecified and the glass
answers nothing (log 7). That the panel has the bytes when a write returns is the model's (log 8). -/
def Obligations.DrawRowReachesGram : Prop :=
  ∀ (s : State) (r : Nat), s.lc = .ready → s.pbExists = true → r ≤ 63 → linkSound s = true →
    (panelListening s.panel = true → s.panel.autoInc = true →
      ∃ t, exec (.drawRow r) s = .next t ∧ t.pb = s.pb ∧ panelListening t.panel = true ∧
        ∀ row col, col < 16 →
          (row = r % 32 ∧ col / 8 = r / 32 → gramShows t.panel s.pb row col) ∧
          (¬ (row = r % 32 ∧ col / 8 = r / 32) → gramRead t.panel.gram row col = gramRead s.panel.gram row col)) ∧
    (panelDeaf s.panel = true → ∃ t, exec (.drawRow r) s = .next t ∧ t.pb = s.pb ∧ t.ci = s.ci + 1 ∧
      t.trace = s.trace ++ (rowFrames s.pb r).map Event.tx ∧ t.panel.standing = .unspecified ∧
      ∀ x y, t.panel.glass x y = none)

/-- After `DRAW_SECTIONS_FOR_BB` every visited GRAM cell equals `PB` and every other reads as before, whether or not
`AUTO_INC` holds (R287). That the panel has the bytes when a write returns is the model's (log 8). -/
def Obligations.DrawSectionsReachesGram : Prop :=
  ∀ (s : State) (x1 y1 x2 y2 : Nat), s.lc = .ready → s.pbExists = true → linkSound s = true →
    x1 ≤ 127 → x2 ≤ 127 → y1 ≤ 63 → y2 ≤ 63 → panelListening s.panel = true →
    ∃ t, exec (.drawSectionsForBB x1 y1 x2 y2) s = .next t ∧ t.pb = s.pb ∧ panelListening t.panel = true ∧
      ∀ y j, y < 64 → j < 8 →
        (y1 ≤ y ∧ y ≤ y2 ∧ x1 / 16 ≤ j ∧ j ≤ x2 / 16 →
          gramShows t.panel s.pb (y % 32) (j + if 32 ≤ y then 8 else 0)) ∧
        (¬ (y1 ≤ y ∧ y ≤ y2 ∧ x1 / 16 ≤ j ∧ j ≤ x2 / 16) →
          gramRead t.panel.gram (y % 32) (j + if 32 ≤ y then 8 else 0) =
            gramRead s.panel.gram (y % 32) (j + if 32 ≤ y then 8 else 0))

/-- After `DRAW_ALL` the whole GRAM equals `PB` (R287), so with the display on in extended graphics mode the glass shows
every pixel `GET_PIXEL` reads (R286). That the panel has the bytes when a write returns is the model's (log 8). -/
def Obligations.DrawAllShowsCanvas : Prop :=
  ∀ s : State, s.lc = .ready → s.pbExists = true → linkSound s = true → panelListening s.panel = true →
    s.panel.autoInc = true →
    ∃ t, exec .drawAll s = .next t ∧ t.pb = s.pb ∧
      (∀ row col, row < 32 → col < 16 → gramShows t.panel s.pb row col) ∧
      (s.panel.regs.modeD = true →
        ∀ x y : Nat, x < 128 → y < 64 → t.panel.glass x y = getPixel s x y)

/-! ## Lifecycle -/

/-- `CONSTRUCT` with no failure (R236 to R238): the six events of R238 in order, `PB` present and zero, `FH` the initial
height, both resources held, `LC = READY`. That the panel has the bytes when a write returns is the model's (log 8), and so is
what the settle delay does to its busy time (log 20); R236 to R238 say nothing of the panel. -/
def Obligations.ConstructSucceeds : Prop :=
  ∀ (s : State) (busId deviceId : Byte), s.lc = .off → s.env.unopenable.contains (busId, deviceId) = false →
    s.env.configureOk = true → s.env.loadFaceOk = true →
    framesThrough [[0xF8, 0x30, 0x00], [0xF8, 0x00, 0xC0], [0xF8, 0x30, 0x60]] s.env.writes = 3 →
    fontSetOk s.env s.env.initFontHeight = true →
    ∃ t, exec (.construct busId deviceId) s = .next t ∧
      t.trace = s.trace ++ [.tx [0xF8, 0x30, 0x00], .settle, .tx [0xF8, 0x00, 0xC0], .settle,
        .tx [0xF8, 0x30, 0x60], .settle] ∧
      t = { ((s.instructed 0x30).instructed 0x0C).instructed 0x36 with
        pb := [], pbExists := true, fh := s.env.initFontHeight, lc := .ready, ci := s.ci + 1
        link := some { path := Config.transportPath busId deviceId, mode := Config.spiMode, speedHz := Config.spiSpeedHz }
        face := some Config.fontResource }

/-- `CONSTRUCT` and its faults, the first met in the order open, configure, load face, the three frames, font height (R236,
R261 to R263, R265, R268): nothing stays open, what was sent stays sent, `CI` does not move. The model's are: the panel has
the bytes when a write returns (log 8), what the settle delay does to its busy time (log 20), and `PB`, allocated and zero
after a fault of the initialisation (log 24). -/
def Obligations.ConstructFaultsInOrder : Prop :=
  ∀ (s : State) (busId deviceId : Byte), s.lc = .off →
    (s.env.unopenable.contains (busId, deviceId) = true → exec (.construct busId deviceId) s = .next
      { s with fault := some { kind := .deviceOpenFailure, info := 0 }, lc := .faulted, link := none, face := none }) ∧
    (s.env.unopenable.contains (busId, deviceId) = false →
      (s.env.configureOk = false → exec (.construct busId deviceId) s = .next
        { s with fault := some { kind := .modeConfigFailure, info := 0 }, lc := .faulted, link := none, face := none }) ∧
      (s.env.configureOk = true →
        (s.env.loadFaceOk = false → exec (.construct busId deviceId) s = .next
          { s with fault := some { kind := .fontLoadFailure, info := 0 }, lc := .faulted, link := none, face := none }) ∧
        (s.env.loadFaceOk = true →
          (∀ k, k < 3 →
            framesThrough [[0xF8, 0x30, 0x00], [0xF8, 0x00, 0xC0], [0xF8, 0x30, 0x60]] s.env.writes = k →
            exec (.construct busId deviceId) s = .next
              { ((([0x30, 0x0C, 0x36] : List Byte).take k).foldl State.instructed s).writeFailed with
                pb := [], pbExists := true }) ∧
          (framesThrough [[0xF8, 0x30, 0x00], [0xF8, 0x00, 0xC0], [0xF8, 0x30, 0x60]] s.env.writes = 3 →
            fontSetOk s.env s.env.initFontHeight = false →
            exec (.construct busId deviceId) s = .next
              { ((s.instructed 0x30).instructed 0x0C).instructed 0x36 with
                pb := [], pbExists := true, lc := .faulted, link := none, face := none
                fault := some { kind := .fontLoadFailure, info := s.env.initFontHeight } }))))

/-- R261, R262: when `Transport.open` or `Transport.configure` answers `Error` in `CONSTRUCT`, the fault is reported, nothing
is left open and no byte was sent. -/
def Obligations.OpenAndConfigureErrorsLeaveNothing : Prop :=
  ∀ (s : State) (busId deviceId : Byte), s.Inv → s.lc = .off →
    (s.env.unopenable.contains (busId, deviceId) = true → ∃ t, exec (.construct busId deviceId) s = .next t ∧
      (∃ info, t.fault = some { kind := .deviceOpenFailure, info := info }) ∧ t.link = none ∧ t.face = none ∧
      t.trace = [] ∧ t.panel = s.panel) ∧
    (s.env.unopenable.contains (busId, deviceId) = false → s.env.configureOk = false →
      ∃ t, exec (.construct busId deviceId) s = .next t ∧
        (∃ info, t.fault = some { kind := .modeConfigFailure, info := info }) ∧ t.link = none ∧ t.face = none ∧
        t.trace = [] ∧ t.panel = s.panel)

/-- After a successful `CONSTRUCT` the panel has `E = G = D = 1`, `C = B = 0`; `S`, `R`, `I`, `H`, `GRAM`, `AR` and `AC` are
as they were (R284), and it is not busy: the settle delay covers the panel's floor (R285; log 20). That the panel has the
bytes when a write returns is the model's (log 8). -/
def Obligations.ConstructConfiguresPanel : Prop :=
  ∀ (s : State) (busId deviceId : Byte), s.lc = .off → s.env.unopenable.contains (busId, deviceId) = false →
    s.env.configureOk = true → s.env.loadFaceOk = true → linkSound s = true →
    fontSetOk s.env s.env.initFontHeight = true → panelPaced s = true →
    ∃ t rx, exec (.construct busId deviceId) s = .next t ∧
      t.panel = { s.panel with
        regs := { s.panel.regs with
          modeE := true, modeG := true, modeD := true, modeC := false, modeB := false, busyUs := 0, rx := rx } }

/-- The configuration operations seen by the panel (R284): the mode bits named in the byte take the operands' values, the
graphics bit only with the extended bit; nothing else of the panel's registers and GRAM changes but the place in the frame,
and it is not busy: the settle delay covers the panel's floor (R285; log 20). That the panel has the bytes when a write
returns is the model's (log 8). -/
def Obligations.ConfigurationSetsPanelBits : Prop :=
  ∀ s : State, s.lc = .ready → linkSound s = true → panelPaced s = true →
    (∀ ext gfx, ∃ t rx, exec (.setFunctionSet ext gfx) s = .next t ∧ t.panel = { s.panel with
      regs := { s.panel.regs with modeE := ext, modeG := ext && gfx, busyUs := 0, rx := rx } }) ∧
    (∀ d c b, ∃ t rx, exec (.setDisplayControl d c b) s = .next t ∧ t.panel = { s.panel with
      regs := { s.panel.regs with modeD := d, modeC := c, modeB := b, busyUs := 0, rx := rx } }) ∧
    (∀ sh right, ∃ t rx, exec (.setShiftControl sh right) s = .next t ∧ t.panel = { s.panel with
      regs := { s.panel.regs with modeS := sh, modeR := right, busyUs := 0, rx := rx } }) ∧
    ∀ inc sh, ∃ t rx, exec (.setEntryMode inc sh) s = .next t ∧ t.panel = { s.panel with
      regs := { s.panel.regs with modeI := inc, modeH := sh, busyUs := 0, rx := rx } }

/-- `DESTRUCT` (R242, R243): 128 frames of zero rows, the PixelBuffer freed, both resources released, `LC = CLOSED`; a write
that fails leaves the frames before it sent, every word of `PB` zero, and the fault (R265, R266). The model's are: the panel
has the bytes when a write returns (log 8), and `PB` stays allocated with its cleared contents after the fault (R266,
log 24). -/
def Obligations.DestructClearsAndCloses : Prop :=
  ∀ (s : State) (frames : List (List Byte)), s.lc = .ready → s.pbExists = true →
    frames = (List.range 64).flatMap (fun r =>
      [addressFrame (r % 32) (if 32 ≤ r then 8 else 0), 0xFA :: List.replicate 32 0]) →
    (framesThrough frames s.env.writes = 128 → exec .destruct s = .next
      { s.sent frames with
        pb := [], pbExists := false, link := none, face := none, lc := .closed, ci := s.ci + 1 }) ∧
    ∀ k, k < 128 → framesThrough frames s.env.writes = k → ∃ m,
      exec .destruct s = .next { (s.sent (frames.take k)).writeFailed with pb := m } ∧
      (∀ r c, r < 32 → c < 16 → memRead m r c = 0) ∧ ∀ a, 1024 ≤ a → pbByte m a = pbByte s.pb a

/-- `DESTRUCT` leaves the GRAM all zero (R242, under R282). That the panel has the bytes when a write returns is the model's
(log 8). -/
def Obligations.DestructClearsGram : Prop :=
  ∀ s : State, s.lc = .ready → s.pbExists = true → linkSound s = true → panelListening s.panel = true →
    s.panel.autoInc = true →
    ∃ t, exec .destruct s = .next t ∧ ∀ row col, row < 32 → col < 16 → gramRead t.panel.gram row col = some 0

/-- R26, R22, R27: a host operation that answers a next state either completed, with `CI` one higher, `FAULT` as it was and
`LC` by the table, or raised a fault, with `CI` as it was, `FAULT` set, `LC = FAULTED` and nothing open; and it ran only from
the state its row of the table names. That nothing is open after every fault is R31, and the model's choice against R266
(log 12). -/
def Obligations.LifecycleTransitions : Prop :=
  ∀ (i : Instr) (s t : State), i.issuable = true → exec i s = .next t →
    s.lc = (if ∃ a b, i = .construct a b then .off else .ready) ∧
    ((t.ci = s.ci + 1 ∧ t.fault = s.fault ∧ t.lc = if i = .destruct then .closed else .ready) ∨
      (t.ci = s.ci ∧ t.fault.isSome = true ∧ t.lc = .faulted ∧ t.link = none ∧ t.face = none))

/-- What is refused (R26, R174, R170, R220; U1 to U4): every host-level operation but `CONSTRUCT` outside `READY`, so all of
them after a fault; `CONSTRUCT` outside `OFF`; a row off the canvas; a box off the canvas; a bitmap width below 1. -/
def Obligations.RefusedOperations : Prop :=
  ∀ s : State,
    (∀ i : Instr, i.port = .host → (∀ a b, i ≠ .construct a b) → s.lc ≠ .ready → exec i s = .refused .notReady) ∧
    (∀ a b, s.lc ≠ .off → exec (.construct a b) s = .refused .notOff) ∧
    (s.lc = .ready → s.pbExists = true →
      (∀ r : Int, r < 0 ∨ 63 < r → exec (.drawRow r) s = .refused .rowOffCanvas) ∧
      (∀ x1 y1 x2 y2 : Int, (x1 < 0 ∨ 127 < x1 ∨ x2 < 0 ∨ 127 < x2 ∨ y1 < 0 ∨ 63 < y1 ∨ y2 < 0 ∨ 63 < y2) →
        exec (.drawSectionsForBB x1 y1 x2 y2) s = .refused .boxOffCanvas) ∧
      ∀ (x y width : Int) (data : List Byte), width < 1 → exec (.putBitmap x y width data) s = .refused .widthBelowOne)

/-! ## Invariants and rules of the whole machine -/

/-- The invariant holds after reset. -/
def Obligations.InvAtReset : Prop := State.reset.Inv

/-- Every step from any state keeps the invariant: canonical memories, the fault record exactly in `FAULTED`, handles open
exactly in `READY`, `PB` present while `READY` and absent before `CONSTRUCT` and after `DESTRUCT`, an accepted font height
while `READY`. That the handles are closed in `FAULTED` is R31, and the model's choice against R266 (log 12). -/
def Obligations.InvKeptByStep : Prop :=
  ∀ s t : State, s.Inv → step s = .next t → t.Inv

/-- Every step keeps the trace a list of well-formed frames and settle delays (R80 to R82): the block only ever sends frames
with `rw = 0` whose bytes after the synchronisation byte come in nibble pairs with low bits zero. -/
def Obligations.FramesKeptWellFormed : Prop :=
  ∀ s t : State, s.trace.all wellFramed = true → step s = .next t → t.trace.all wellFramed = true

/-- Every step keeps every configuration instruction in the trace followed at once by its settle delay (R141, R310). -/
def Obligations.PacingKept : Prop :=
  ∀ s t : State, paced s.trace = true → step s = .next t → paced t.trace = true

/-- The trace is only appended to (R28). -/
def Obligations.TraceOnlyGrows : Prop :=
  ∀ s t : State, step s = .next t → ∃ more, t.trace = s.trace ++ more

/-- The drawing operations and `SET_FONT_HEIGHT` send nothing, completed or faulted (R65, R312, R190): no event, no byte to
the panel, and no result of a coming write taken. They may ask the FontProvider, whose answers are parameters that no
operation changes. -/
def Obligations.DrawingReachesNothingOutside : Prop :=
  ∀ (i : Instr) (s t : State), exec i s = .next t →
    ((∃ x y on, i = .setPixel x y on) ∨ (∃ x1 y1 x2 y2 on, i = .setRegion x1 y1 x2 y2 on) ∨
      (∃ x y text, i = .putString x y text) ∨ (∃ x y w data, i = .putBitmap x y w data) ∨
      (∃ x y cp, i = .putChar x y cp) ∨ ∃ px, i = .setFontHeight px) →
    t.trace = s.trace ∧ t.panel = s.panel ∧ t.env = s.env ∧ t.port = s.port ∧ t.line = s.line ∧
      t.pbExists = s.pbExists

/-- The configuration, flush and internal send operations leave `PB` and `FH` as they are, completed or faulted (R68, R170,
R174, R176, R266). -/
def Obligations.SendingKeepsPixelBuffer : Prop :=
  ∀ (i : Instr) (s t : State), exec i s = .next t →
    ((∃ e g, i = .setFunctionSet e g) ∨ (∃ d c b, i = .setDisplayControl d c b) ∨ (∃ sh r, i = .setShiftControl sh r) ∨
      (∃ inc sh, i = .setEntryMode inc sh) ∨ i = .drawAll ∨ (∃ r, i = .drawRow r) ∨
      (∃ x1 y1 x2 y2, i = .drawSectionsForBB x1 y1 x2 y2) ∨ (∃ rs rw data, i = .send rs rw data) ∨
      ∃ row col, i = .gramAddrSet row col) →
    t.pb = s.pb ∧ t.pbExists = s.pbExists ∧ t.fh = s.fh ∧ t.port = s.port ∧ t.line = s.line ∧
      t.env = { s.env with writes := t.env.writes }

/-- `PUT_STRING`, `PUT_CHAR` and `PUT_BITMAP` only set bits, completed or faulted (R313): a pixel that was on stays on. -/
def Obligations.TextAndBitmapsOnlySetBits : Prop :=
  ∀ (i : Instr) (s t : State), exec i s = .next t →
    ((∃ x y text, i = .putString x y text) ∨ (∃ x y w data, i = .putBitmap x y w data) ∨
      ∃ x y cp, i = .putChar x y cp) →
    ∀ x y : Nat, x < 128 → y < 64 → pixelOf s.pb x y = true → pixelOf t.pb x y = true

/-- The block never depends on the panel (R280, R29, R33): with any other panel in its place a host-level operation gives the
same answer, the panel apart. -/
def Obligations.PanelDoesNotSteerBlock : Prop :=
  ∀ (i : Instr) (s : State) (p : Panel), i.port = .host →
    (∀ t, exec i s = .next t → ∃ q, exec i { s with panel := p } = .next { t with panel := q }) ∧
    (∀ f, exec i s = .fault f → exec i { s with panel := p } = .fault f) ∧
    ∀ why, exec i s = .refused why → exec i { s with panel := p } = .refused why

/-! ## The panel's side -/

/-- A wire-level row changes the panel and nothing of the block. -/
def Obligations.WireRowsTouchPanelOnly : Prop :=
  ∀ (i : Instr) (s t : State), i.port ≠ .host → exec i s = .next t → t = { s with panel := t.panel }

/-- The four configuration bytes (R284, R285): the mode bits in the byte take its values and the panel is busy for its
settle floor; nothing else of the machine changes but the place in the frame (log 15). -/
def Obligations.WireConfigurationBytesSetBits : Prop :=
  ∀ s : State, s.panel.standing = .following →
    (∀ e g, (e || !g) = true → exec (.wireFunctionSet e g) s = .next
      { s with panel.regs := { s.panel.regs with
        modeE := e, modeG := g, busyUs := s.panel.floorUs
        rx := { s.panel.regs.rx with payload := none, slot := .done } } }) ∧
    (∀ d c b, exec (.wireDisplayControl d c b) s = .next
      { s with panel.regs := { s.panel.regs with
        modeD := d, modeC := c, modeB := b, busyUs := s.panel.floorUs
        rx := { s.panel.regs.rx with payload := none, slot := .done } } }) ∧
    (∀ sh right, exec (.wireShiftControl sh right) s = .next
      { s with panel.regs := { s.panel.regs with
        modeS := sh, modeR := right, busyUs := s.panel.floorUs
        rx := { s.panel.regs.rx with payload := none, slot := .done } } }) ∧
    ∀ inc sh, exec (.wireEntryMode inc sh) s = .next
      { s with panel.regs := { s.panel.regs with
        modeI := inc, modeH := sh, busyUs := s.panel.floorUs
        rx := { s.panel.regs.rx with payload := none, slot := .done } } }

/-- The two address bytes in extended graphics mode (R283, U14): `AR` from the first, `AC` from the second with `BP`
cleared. That each byte acts when it arrives is the model's (log 16). -/
def Obligations.WireAddressBytesPoint : Prop :=
  ∀ s : State, s.panel.standing = .following → s.panel.regs.modeE = true → s.panel.regs.modeG = true →
    (∀ row : BitVec 6, row.toNat < 32 → exec (.wireGramAddrRow row) s = .next
      { s with panel.regs := { s.panel.regs with
        ar := row, rx := { s.panel.regs.rx with payload := none, slot := .column } } }) ∧
    ∀ col : BitVec 4, exec (.wireGramAddrCol col) s = .next
      { s with panel.regs := { s.panel.regs with
        ac := col, bp := false, rx := { s.panel.regs.rx with payload := none, slot := .done } } }

/-- The frame bytes (R80 to R82): a synchronisation byte to a panel that is not busy begins a frame with its flags; a high
nibble waits; the low nibble after it completes the payload byte `first | (second >> 4)`. R80 to R82 speak of whole frames;
that a synchronisation byte drops a waiting nibble, that a high nibble replaces a waiting one, and that the row acts outside
a frame too are the model's (log 15). -/
def Obligations.WireFrameBytesBuildPayload : Prop :=
  ∀ s : State, s.panel.standing = .following →
    (∀ rw rs, s.panel.regs.busyUs = 0 → exec (.wireSync rw rs) s = .next
      { s with panel.regs := { s.panel.regs with
        rx := { inFrame := true, rs := rs, rw := rw, high := none, slot := .first, payload := none } } }) ∧
    (∀ h : BitVec 4, exec (.wireNibbleHigh h) s = .next
      { s with panel.regs := { s.panel.regs with rx := { s.panel.regs.rx with high := some h } } }) ∧
    ∀ h l : BitVec 4, s.panel.regs.rx.high = some h → exec (.wireNibbleLow l) s = .next
      { s with panel.regs := { s.panel.regs with rx := { s.panel.regs.rx with
        high := none, payload := some ((h ++ 0#4) ||| ((l ++ 0#4 : Byte) >>> 4)) } } }

/-- A data byte in extended graphics mode (R282, U14): the first of a pair is held; the second writes the word-cell `AR`,
`AC` and no other byte of GRAM, and under `AUTO_INC` the column moves on; after column 15 the address is free (U10). -/
def Obligations.WireDataWritesWordCells : Prop :=
  ∀ (s : State) (d : Byte), s.panel.standing = .following → s.panel.regs.modeE = true →
    s.panel.regs.modeG = true →
    (s.panel.regs.bp = false → exec (.wireData d) s = .next
      { s with panel.regs := { s.panel.regs with
        hb := d, bp := true, rx := { s.panel.regs.rx with payload := none } } }) ∧
    (s.panel.regs.bp = true → s.panel.regs.ar.toNat < 32 → ∃ g ar ac draws,
      exec (.wireData d) s = .next
        { s with panel := { s.panel with
          gram := g
          draws := draws
          regs := { s.panel.regs with
            ar := ar, ac := ac, bp := false, rx := { s.panel.regs.rx with payload := none } } } } ∧
      (∀ a, a ≠ cellAddr s.panel.regs.ar.toNat s.panel.regs.ac.toNat →
        a ≠ cellAddr s.panel.regs.ar.toNat s.panel.regs.ac.toNat + 1 → cellAt g a = cellAt s.panel.gram a) ∧
      gramRead g s.panel.regs.ar.toNat s.panel.regs.ac.toNat = some (s.panel.regs.hb ++ d) ∧
      (s.panel.autoInc = false → ar = s.panel.regs.ar ∧ ac = s.panel.regs.ac ∧ draws = s.panel.draws) ∧
      (s.panel.autoInc = true → s.panel.regs.ac ≠ 15 →
        ar = s.panel.regs.ar ∧ ac.toNat = s.panel.regs.ac.toNat + 1 ∧ draws = s.panel.draws) ∧
      (s.panel.autoInc = true → s.panel.regs.ac = 15 → draws = s.panel.draws + 1))

/-- Where a wire-level row stops (U9, U11, U14, R93; log 7): every one of them once the panel's behaviour is unspecified; the
address and data bytes in the basic set or with graphics off; a GRAM row above 31; the function set byte 0x32; a low nibble
without its partner, where R82 gives it no meaning (the model's choice, log 15). -/
def Obligations.WireStops : Prop :=
  ∀ s : State,
    (s.panel.standing = .unspecified → ∀ i : Instr, i.port ≠ .host → exec i s = .refused .panelUnspecified) ∧
    (s.panel.standing = .following →
      (s.panel.regs.modeE = false →
        (∀ row, exec (.wireGramAddrRow row) s = .refused .basicSet) ∧
        (∀ col, exec (.wireGramAddrCol col) s = .refused .basicSet) ∧
        ∀ d, exec (.wireData d) s = .refused .basicSet) ∧
      (s.panel.regs.modeE = true → s.panel.regs.modeG = false →
        (∀ row, exec (.wireGramAddrRow row) s = .refused .graphicsOff) ∧
        (∀ col, exec (.wireGramAddrCol col) s = .refused .graphicsOff) ∧
        ∀ d, exec (.wireData d) s = .refused .graphicsOff) ∧
      (s.panel.regs.modeE = true → s.panel.regs.modeG = true →
        (∀ row : BitVec 6, 31 < row.toNat → exec (.wireGramAddrRow row) s = .refused .noSuchGramRow) ∧
        ∀ d, s.panel.regs.bp = true → 31 < s.panel.regs.ar.toNat → exec (.wireData d) s = .refused .noSuchGramRow) ∧
      exec (.wireFunctionSet false true) s = .refused .neverEmitted ∧
      (s.panel.regs.rx.high = none → ∀ l, exec (.wireNibbleLow l) s = .refused .noHighNibble))

/-- A frame that begins before the busy deadline makes the panel's whole state any value (R285, U12): the registers are free,
no GRAM cell keeps a known value, and the block is untouched. That the free values are numbered by a counter is the model's
(log 6). -/
def Obligations.EarlyFrameLosesPanel : Prop :=
  ∀ (s : State) (rw rs : Bool), s.panel.standing = .following → s.panel.regs.busyUs ≠ 0 →
    ∃ regs, exec (.wireSync rw rs) s = .next
      { s with panel := { s.panel with regs := regs, gram := [], draws := s.panel.draws + 1 } }

/-- `DRAW_ALL`, and `DRAW_SECTIONS_FOR_BB` of a box that touches a cell, in the basic set or with graphics off (U14, R316):
the block sends the frames it always sends, completes and keeps `PB`; nothing is said of the panel any more (log 7). That the
panel has the bytes when the flush answers is the model's (log 8). -/
def Obligations.FlushOutsideGraphicsLosesPanel : Prop :=
  ∀ s : State, s.lc = .ready → s.pbExists = true → linkSound s = true → panelDeaf s.panel = true →
    (∃ t, exec .drawAll s = .next t ∧ t.pb = s.pb ∧ t.ci = s.ci + 1 ∧
      t.trace = s.trace ++ (canvasFrames s.pb).map Event.tx ∧ t.panel.standing = .unspecified ∧
      ∀ x y, t.panel.glass x y = none) ∧
    ∀ x1 y1 x2 y2 : Nat, x1 ≤ 127 → x2 ≤ 127 → y2 ≤ 63 → y1 ≤ y2 → x1 / 16 ≤ x2 / 16 →
      ∃ t, exec (.drawSectionsForBB x1 y1 x2 y2) s = .next t ∧ t.pb = s.pb ∧ t.ci = s.ci + 1 ∧
        t.trace = s.trace ++ (boxFrames s.pb x1 y1 x2 y2).map Event.tx ∧ t.panel.standing = .unspecified ∧
        ∀ x y, t.panel.glass x y = none

/-- When the panel's behaviour stops being specified (log 7): exactly at a byte of a frame to which the spec gives no meaning
where it stands (U9, U11, U14, R84, R93; that a broken frame has none is log 15). From then on it takes no byte and shows
nothing. -/
def Obligations.PanelGivesUpAtMeaninglessBytes : Prop :=
  ∀ (p : Panel) (b : Byte),
    (p.standing = .following → p.regs.rx.payload = none →
      ((p.receiveByte b).standing = .unspecified ↔ lineByteMeaningless p b = true)) ∧
    (p.standing = .unspecified → p.receiveByte b = p ∧ ∀ x y, p.glass x y = none)

end
end

