-- ==== Sys2Proof/Laws/Memory.lean ====
section
/-! SUPPORT. What the memory operations do: reading after writing, and that every write keeps the canonical form. -/

namespace Sys2Proof.Machine

/-! ## Cells -/

@[simp] theorem cellAt_nil (k : Nat) : cellAt [] k = none := rfl

theorem cellAt_putCell (m : List Host.Cell) (k : Nat) (v : Byte) (j : Nat) :
    cellAt (putCell m k v) j = if j = k then some v else cellAt m j := by
  induction m with
  | nil => simp only [putCell, cellAt, eq_comm]
  | cons e m ih =>
    obtain ⟨a, w⟩ := e
    unfold putCell
    split
    · simp only [cellAt]; split <;> simp_all [eq_comm]
    · split
      · simp only [cellAt]; split <;> simp_all [eq_comm]
      · simp only [cellAt, ih]; split <;> simp_all

theorem cellAt_dropCell (m : List Host.Cell) (k j : Nat) :
    cellAt (dropCell m k) j = if j = k then none else cellAt m j := by
  induction m with
  | nil => simp [dropCell]
  | cons e m ih =>
    obtain ⟨a, w⟩ := e
    simp only [dropCell] at ih
    by_cases h : a = k
    · subst h
      simp only [dropCell, List.filter, beq_self_eq_true, Bool.not_true, ih, cellAt]
      split <;> simp_all [eq_comm]
    · have hk : (!(a == k)) = true := by simp [h]
      simp only [dropCell, List.filter, hk, cellAt, ih]
      by_cases hj : a = j
      · simp_all
      · simp [hj]

/-! ## `PB` bytes and words -/

theorem pbByte_pbSetByte (m : List Host.Cell) (k : Nat) (v : Byte) (j : Nat) :
    pbByte (pbSetByte m k v) j = if j = k then v else pbByte m j := by
  unfold pbByte pbSetByte
  split
  · rw [cellAt_dropCell]; split <;> simp_all
  · rw [cellAt_putCell]; split <;> simp

/-- What one `MemWrite` leaves at every byte address. -/
theorem pbByte_memWrite (m : List Host.Cell) (r c : Nat) (v : Word) (j : Nat) :
    pbByte (memWrite m r c v) j =
      if j = cellAddr r c + 1 then lo8 v else if j = cellAddr r c then hi8 v else pbByte m j := by
  simp only [memWrite, pbByte_pbSetByte]

@[simp] theorem joinBytes_hi8_lo8 (w : Word) : joinBytes (hi8 w) (lo8 w) = w := by
  unfold joinBytes hi8 lo8
  ext i hi
  simp only [BitVec.getElem_append, BitVec.getElem_extractLsb']
  by_cases h : i < 8
  · simp [h, BitVec.getLsbD_eq_getElem hi]
  · simp only [h, dite_false]
    rw [show 8 + (i - 8) = i by omega, BitVec.getLsbD_eq_getElem hi]

@[simp] theorem hi8_joinBytes (h l : Byte) : hi8 (joinBytes h l) = h := by
  unfold joinBytes hi8
  ext i hi
  rw [BitVec.getElem_extractLsb']
  show (h ++ l : BitVec (8 + 8)).getLsbD (8 + i) = h[i]
  rw [BitVec.getLsbD_append, if_neg (by omega), Nat.add_sub_cancel_left, BitVec.getLsbD_eq_getElem hi]

@[simp] theorem lo8_joinBytes (h l : Byte) : lo8 (joinBytes h l) = l := by
  unfold joinBytes lo8
  ext i hi
  rw [BitVec.getElem_extractLsb', Nat.zero_add]
  show (h ++ l : BitVec (8 + 8)).getLsbD i = l[i]
  rw [BitVec.getLsbD_append, if_pos hi, BitVec.getLsbD_eq_getElem hi]

theorem cellAddr_injective {r c r' c' : Nat} (hc : c < 16) (hc' : c' < 16) (h : cellAddr r c = cellAddr r' c') :
    r = r' ∧ c = c' := by
  simp only [cellAddr, Config.pbCols] at h; omega

/-- `MemRead` after `MemWrite`. -/
theorem memRead_memWrite (m : List Host.Cell) (r c r' c' : Nat) (v : Word) (hc : c < 16) (hc' : c' < 16) :
    memRead (memWrite m r c v) r' c' = if r' = r ∧ c' = c then v else memRead m r' c' := by
  unfold memRead
  rw [pbByte_memWrite, pbByte_memWrite]
  by_cases h : r' = r ∧ c' = c
  · obtain ⟨rfl, rfl⟩ := h
    simp
  · have hne : cellAddr r' c' ≠ cellAddr r c := fun e => h (cellAddr_injective hc' hc e)
    have hodd : ∀ a b a' b', cellAddr a b ≠ cellAddr a' b' + 1 := by
      intro a b a' b'; simp only [cellAddr, Config.pbCols]; omega
    have h1 := hodd r' c' r c
    have h2 := hodd r c r' c'
    rw [if_neg h1, if_neg hne, if_neg (by omega), if_neg (by omega), if_neg h]

@[simp] theorem memRead_nil (r c : Nat) : memRead [] r c = 0 := by
  simp [memRead, pbByte, joinBytes]

/-! ## `GRAM` words -/

theorem cellAt_gramWrite (m : List Host.Cell) (r c : Nat) (v : Word) (j : Nat) :
    cellAt (gramWrite m r c v) j =
      if j = cellAddr r c + 1 then some (lo8 v) else if j = cellAddr r c then some (hi8 v) else cellAt m j := by
  simp only [gramWrite, cellAt_putCell]

theorem gramRead_gramWrite (m : List Host.Cell) (r c r' c' : Nat) (v : Word) (hc : c < 16) (hc' : c' < 16) :
    gramRead (gramWrite m r c v) r' c' = if r' = r ∧ c' = c then some v else gramRead m r' c' := by
  unfold gramRead
  rw [cellAt_gramWrite, cellAt_gramWrite]
  by_cases h : r' = r ∧ c' = c
  · obtain ⟨rfl, rfl⟩ := h
    simp
  · have hne : cellAddr r' c' ≠ cellAddr r c := fun e => h (cellAddr_injective hc' hc e)
    have hodd : ∀ a b a' b', cellAddr a b ≠ cellAddr a' b' + 1 := by
      intro a b a' b'; simp only [cellAddr, Config.pbCols]; omega
    have h1 := hodd r' c' r c
    have h2 := hodd r c r' c'
    rw [if_neg h1, if_neg hne, if_neg (by omega), if_neg (by omega), if_neg h]

/-! ## The canonical form -/

theorem rising_iff_pairwise (m : List Host.Cell) : rising m = true ↔ m.Pairwise fun e f => e.1 < f.1 := by
  induction m with
  | nil => simp [rising]
  | cons e m ih =>
    cases m with
    | nil => simp [rising]
    | cons f m =>
      obtain ⟨a, v⟩ := e
      obtain ⟨b, w⟩ := f
      simp only [rising, Bool.and_eq_true, decide_eq_true_eq, ih, List.pairwise_cons]
      constructor
      · rintro ⟨hab, hb, hm⟩
        refine ⟨?_, hb, hm⟩
        intro g hg
        rcases List.mem_cons.mp hg with rfl | hg
        · exact hab
        · exact lt_trans hab (hb g hg)
      · rintro ⟨ha, hb, hm⟩
        exact ⟨ha (b, w) (List.mem_cons_self ..), hb, hm⟩

theorem mem_putCell {m : List Host.Cell} {k : Nat} {v : Byte} {e : Host.Cell} (h : e ∈ putCell m k v) :
    e = (k, v) ∨ e ∈ m := by
  induction m with
  | nil => simpa [putCell] using h
  | cons f m ih =>
    obtain ⟨a, w⟩ := f
    unfold putCell at h
    split at h
    · simpa using h
    · split at h
      · rcases List.mem_cons.mp h with h | h
        · exact .inl h
        · exact .inr (List.mem_cons_of_mem _ h)
      · rcases List.mem_cons.mp h with h | h
        · exact .inr (by simp [h])
        · rcases ih h with h | h
          · exact .inl h
          · exact .inr (List.mem_cons_of_mem _ h)

theorem rising_putCell {m : List Host.Cell} (k : Nat) (v : Byte) (h : rising m = true) :
    rising (putCell m k v) = true := by
  rw [rising_iff_pairwise] at h ⊢
  induction m with
  | nil => simp [putCell]
  | cons e m ih =>
    obtain ⟨a, w⟩ := e
    obtain ⟨hlt, hm⟩ := List.pairwise_cons.mp h
    unfold putCell
    split
    case isTrue hk =>
      refine List.pairwise_cons.mpr ⟨?_, h⟩
      intro f hf
      rcases List.mem_cons.mp hf with rfl | hf
      · exact hk
      · exact lt_trans hk (hlt f hf)
    case isFalse hk =>
      split
      case isTrue hak => subst hak; exact List.pairwise_cons.mpr ⟨hlt, hm⟩
      case isFalse hak =>
        refine List.pairwise_cons.mpr ⟨?_, ih hm⟩
        intro f hf
        rcases mem_putCell hf with rfl | hf
        · show a < k; omega
        · exact hlt f hf

theorem rising_dropCell {m : List Host.Cell} (k : Nat) (h : rising m = true) : rising (dropCell m k) = true := by
  rw [rising_iff_pairwise] at h ⊢
  exact h.filter _

theorem pbWf_pbSetByte {m : List Host.Cell} {k : Nat} (v : Byte) (hk : k < memoryBytes) (h : pbWf m = true) :
    pbWf (pbSetByte m k v) = true := by
  simp only [pbWf, Bool.and_eq_true, List.all_eq_true] at h ⊢
  unfold pbSetByte
  split
  · exact ⟨rising_dropCell k h.1, fun e he => h.2 e (List.mem_of_mem_filter he)⟩
  · rename_i hv
    refine ⟨rising_putCell k v h.1, fun e he => ?_⟩
    rcases mem_putCell he with rfl | he
    · simpa [hk] using hv
    · exact h.2 e he

theorem cellAddr_lt {r c : Nat} (hr : r < 32) (hc : c < 16) : cellAddr r c + 1 < memoryBytes := by
  simp only [cellAddr, Config.pbCols, memoryBytes]; omega

/-- `MemWrite` keeps the canonical form of `PB`. -/
theorem pbWf_memWrite {m : List Host.Cell} {r c : Nat} (v : Word) (hr : r < 32) (hc : c < 16) (h : pbWf m = true) :
    pbWf (memWrite m r c v) = true :=
  pbWf_pbSetByte _ (cellAddr_lt hr hc) (pbWf_pbSetByte _ (Nat.lt_of_succ_lt (cellAddr_lt hr hc)) h)

theorem gramWf_putCell {m : List Host.Cell} {k : Nat} (v : Byte) (hk : k < memoryBytes) (h : gramWf m = true) :
    gramWf (putCell m k v) = true := by
  simp only [gramWf, Bool.and_eq_true, List.all_eq_true] at h ⊢
  refine ⟨rising_putCell k v h.1, fun e he => ?_⟩
  rcases mem_putCell he with rfl | he
  · simp [hk]
  · exact h.2 e he

/-- A GRAM write keeps the canonical form of `GRAM`. -/
theorem gramWf_gramWrite {m : List Host.Cell} {r c : Nat} (v : Word) (hr : r < 32) (hc : c < 16) (h : gramWf m = true) :
    gramWf (gramWrite m r c v) = true :=
  gramWf_putCell _ (cellAddr_lt hr hc) (gramWf_putCell _ (Nat.lt_of_succ_lt (cellAddr_lt hr hc)) h)

/-- Two canonical PixelBuffers that read alike at every byte are the same data. -/
theorem pbWf_ext {m n : List Host.Cell} (hm : pbWf m = true) (hn : pbWf n = true)
    (h : ∀ a, pbByte m a = pbByte n a) : m = n := by
  simp only [pbWf, Bool.and_eq_true, rising_iff_pairwise, List.all_eq_true, Bool.not_eq_true', beq_eq_false_iff_ne,
    decide_eq_true_eq] at hm hn
  have notListed : ∀ (l : List Host.Cell) (k : Nat), (∀ e ∈ l, k < e.1) → cellAt l k = none := by
    intro l k hl
    induction l with
    | nil => rfl
    | cons e l ih =>
      obtain ⟨a, v⟩ := e
      have := hl (a, v) (List.mem_cons_self ..)
      simp only [cellAt, if_neg (show a ≠ k by simp at this; omega)]
      exact ih fun e he => hl e (List.mem_cons_of_mem _ he)
  induction m generalizing n with
  | nil =>
    cases n with
    | nil => rfl
    | cons e n =>
      obtain ⟨a, v⟩ := e
      have := h a
      simp [pbByte, cellAt] at this
      exact absurd this.symm (hn.2 (a, v) (List.mem_cons_self ..)).2
  | cons e m ih =>
    obtain ⟨a, v⟩ := e
    obtain ⟨hma, hmp⟩ := List.pairwise_cons.mp hm.1
    have hv := (hm.2 (a, v) (List.mem_cons_self ..)).2
    cases n with
    | nil =>
      have := h a
      simp [pbByte, cellAt] at this
      exact absurd this hv
    | cons f n =>
      obtain ⟨b, w⟩ := f
      obtain ⟨hnb, hnp⟩ := List.pairwise_cons.mp hn.1
      have hw := (hn.2 (b, w) (List.mem_cons_self ..)).2
      have hab : a = b := by
        rcases lt_trichotomy a b with hlt | heq | hgt
        · have := h a
          rw [pbByte, pbByte, notListed ((b, w) :: n) a] at this
          · simp [cellAt] at this; exact absurd this hv
          · intro e he
            rcases List.mem_cons.mp he with rfl | he
            · exact hlt
            · exact lt_trans hlt (hnb e he)
        · exact heq
        · have := h b
          rw [pbByte, notListed ((a, v) :: m) b] at this
          · simp [pbByte, cellAt] at this; exact absurd this.symm hw
          · intro e he
            rcases List.mem_cons.mp he with rfl | he
            · exact hgt
            · exact lt_trans hgt (hma e he)
      subst hab
      have hvw : v = w := by simpa [pbByte, cellAt] using h a
      subst hvw
      congr 1
      refine ih ?_ ⟨hmp, fun e he => hm.2 e (List.mem_cons_of_mem _ he)⟩ ⟨hnp, fun e he => hn.2 e (List.mem_cons_of_mem _ he)⟩
      intro k
      have hk := h k
      by_cases hak : a = k
      · subst hak
        simp [pbByte, notListed m a hma, notListed n a hnb]
      · simpa [pbByte, cellAt, hak] using hk

end Sys2Proof.Machine
end

