-- ==== Sys2Proof/Laws/State.lean ====
section
/-! SUPPORT. One lemma per field per update, true by unfolding: what the shared operations leave in each field. -/

namespace Sys2Proof.Machine

/-! ## Releasing and raising -/

@[simp] theorem raiseFault_lc (k : FaultKind) (n : Nat) (s : State) : (raiseFault k n s).lc = .faulted := rfl
@[simp] theorem raiseFault_fault (k : FaultKind) (n : Nat) (s : State) :
    (raiseFault k n s).fault = some { kind := k, info := n } := rfl
@[simp] theorem raiseFault_link (k : FaultKind) (n : Nat) (s : State) : (raiseFault k n s).link = none := rfl
@[simp] theorem raiseFault_face (k : FaultKind) (n : Nat) (s : State) : (raiseFault k n s).face = none := rfl
@[simp] theorem raiseFault_pb (k : FaultKind) (n : Nat) (s : State) : (raiseFault k n s).pb = s.pb := rfl
@[simp] theorem raiseFault_pbExists (k : FaultKind) (n : Nat) (s : State) :
    (raiseFault k n s).pbExists = s.pbExists := rfl
@[simp] theorem raiseFault_fh (k : FaultKind) (n : Nat) (s : State) : (raiseFault k n s).fh = s.fh := rfl
@[simp] theorem raiseFault_trace (k : FaultKind) (n : Nat) (s : State) : (raiseFault k n s).trace = s.trace := rfl
@[simp] theorem raiseFault_ci (k : FaultKind) (n : Nat) (s : State) : (raiseFault k n s).ci = s.ci := rfl
@[simp] theorem raiseFault_panel (k : FaultKind) (n : Nat) (s : State) : (raiseFault k n s).panel = s.panel := rfl
@[simp] theorem raiseFault_env (k : FaultKind) (n : Nat) (s : State) : (raiseFault k n s).env = s.env := rfl
@[simp] theorem raiseFault_port (k : FaultKind) (n : Nat) (s : State) : (raiseFault k n s).port = s.port := rfl
@[simp] theorem raiseFault_line (k : FaultKind) (n : Nat) (s : State) : (raiseFault k n s).line = s.line := rfl

/-! ## Delivering and settling -/

@[simp] theorem deliver_trace (b : List Byte) (s : State) : (deliver b s).trace = s.trace ++ [.tx b] := rfl
@[simp] theorem deliver_panel (b : List Byte) (s : State) : (deliver b s).panel = s.panel.receive b := rfl
@[simp] theorem deliver_pb (b : List Byte) (s : State) : (deliver b s).pb = s.pb := rfl
@[simp] theorem deliver_env (b : List Byte) (s : State) : (deliver b s).env = s.env := rfl
@[simp] theorem deliver_lc (b : List Byte) (s : State) : (deliver b s).lc = s.lc := rfl
@[simp] theorem deliver_ci (b : List Byte) (s : State) : (deliver b s).ci = s.ci := rfl
@[simp] theorem settle_trace (s : State) : (settle s).trace = s.trace ++ [.settle] := rfl
@[simp] theorem settle_panel (s : State) : (settle s).panel = s.panel.wait s.env.settleMin := rfl
@[simp] theorem settle_pb (s : State) : (settle s).pb = s.pb := rfl
@[simp] theorem settle_env (s : State) : (settle s).env = s.env := rfl
@[simp] theorem settle_lc (s : State) : (settle s).lc = s.lc := rfl
@[simp] theorem settle_ci (s : State) : (settle s).ci = s.ci := rfl

@[simp] theorem useWriteResult_pb (s : State) : (useWriteResult s).pb = s.pb := rfl
@[simp] theorem useWriteResult_pbExists (s : State) : (useWriteResult s).pbExists = s.pbExists := rfl
@[simp] theorem useWriteResult_fh (s : State) : (useWriteResult s).fh = s.fh := rfl
@[simp] theorem useWriteResult_lc (s : State) : (useWriteResult s).lc = s.lc := rfl
@[simp] theorem useWriteResult_fault (s : State) : (useWriteResult s).fault = s.fault := rfl
@[simp] theorem useWriteResult_trace (s : State) : (useWriteResult s).trace = s.trace := rfl
@[simp] theorem useWriteResult_ci (s : State) : (useWriteResult s).ci = s.ci := rfl
@[simp] theorem useWriteResult_link (s : State) : (useWriteResult s).link = s.link := rfl
@[simp] theorem useWriteResult_face (s : State) : (useWriteResult s).face = s.face := rfl
@[simp] theorem useWriteResult_panel (s : State) : (useWriteResult s).panel = s.panel := rfl
@[simp] theorem useWriteResult_port (s : State) : (useWriteResult s).port = s.port := rfl
@[simp] theorem useWriteResult_line (s : State) : (useWriteResult s).line = s.line := rfl
@[simp] theorem useWriteResult_writes (s : State) : (useWriteResult s).env.writes = s.env.writes.drop 1 := rfl
@[simp] theorem losePanel_pb (s : State) : (losePanel s).pb = s.pb := rfl
@[simp] theorem losePanel_pbExists (s : State) : (losePanel s).pbExists = s.pbExists := rfl
@[simp] theorem losePanel_fh (s : State) : (losePanel s).fh = s.fh := rfl
@[simp] theorem losePanel_lc (s : State) : (losePanel s).lc = s.lc := rfl
@[simp] theorem losePanel_fault (s : State) : (losePanel s).fault = s.fault := rfl
@[simp] theorem losePanel_trace (s : State) : (losePanel s).trace = s.trace := rfl
@[simp] theorem losePanel_ci (s : State) : (losePanel s).ci = s.ci := rfl
@[simp] theorem losePanel_link (s : State) : (losePanel s).link = s.link := rfl
@[simp] theorem losePanel_face (s : State) : (losePanel s).face = s.face := rfl
@[simp] theorem losePanel_env (s : State) : (losePanel s).env = s.env := rfl
@[simp] theorem losePanel_port (s : State) : (losePanel s).port = s.port := rfl
@[simp] theorem losePanel_line (s : State) : (losePanel s).line = s.line := rfl
@[simp] theorem losePanel_panel (s : State) : (losePanel s).panel = s.panel.anyValue := rfl
@[simp] theorem deliver_pbExists (b : List Byte) (s : State) : (deliver b s).pbExists = s.pbExists := rfl
@[simp] theorem settle_pbExists (s : State) : (settle s).pbExists = s.pbExists := rfl
@[simp] theorem deliver_fh (b : List Byte) (s : State) : (deliver b s).fh = s.fh := rfl
@[simp] theorem settle_fh (s : State) : (settle s).fh = s.fh := rfl
@[simp] theorem deliver_fault (b : List Byte) (s : State) : (deliver b s).fault = s.fault := rfl
@[simp] theorem settle_fault (s : State) : (settle s).fault = s.fault := rfl
@[simp] theorem deliver_link (b : List Byte) (s : State) : (deliver b s).link = s.link := rfl
@[simp] theorem settle_link (s : State) : (settle s).link = s.link := rfl
@[simp] theorem deliver_face (b : List Byte) (s : State) : (deliver b s).face = s.face := rfl
@[simp] theorem settle_face (s : State) : (settle s).face = s.face := rfl
@[simp] theorem deliver_port (b : List Byte) (s : State) : (deliver b s).port = s.port := rfl
@[simp] theorem settle_port (s : State) : (settle s).port = s.port := rfl
@[simp] theorem deliver_line (b : List Byte) (s : State) : (deliver b s).line = s.line := rfl
@[simp] theorem settle_line (s : State) : (settle s).line = s.line := rfl

/-! ## Flow -/

@[simp] theorem flow_state_ok (s : State) : (Flow.ok s).state = s := rfl
@[simp] theorem flow_state_raised (s : State) : (Flow.raised s).state = s := rfl
@[simp] theorem andThen_ok (s : State) (k : State → Flow) : (Flow.ok s).andThen k = k s := rfl
@[simp] theorem andThen_raised (s : State) (k : State → Flow) : (Flow.raised s).andThen k = .raised s := rfl
@[simp] theorem forEach_nil {α : Type} (f : α → State → Flow) (s : State) : forEach f [] s = .ok s := rfl
@[simp] theorem forEach_cons {α : Type} (f : α → State → Flow) (a : α) (l : List α) (s : State) :
    forEach f (a :: l) s = (f a s).andThen (forEach f l) := rfl
@[simp] theorem finishOperation_ok (s : State) : finishOperation (.ok s) = .next { s with ci := s.ci + 1 } := rfl
@[simp] theorem finishOperation_raised (s : State) : finishOperation (.raised s) = .next s := rfl
@[simp] theorem finishMicro_eq (m : Flow) : finishMicro m = .next m.state := rfl

/-! ## The panel -/

@[simp] theorem wait_gram (p : Panel) (us : Nat) : (p.wait us).gram = p.gram := rfl
@[simp] theorem wait_standing (p : Panel) (us : Nat) : (p.wait us).standing = p.standing := rfl
@[simp] theorem giveUp_gram (p : Panel) : p.giveUp.gram = p.gram := rfl
@[simp] theorem giveUp_standing (p : Panel) : p.giveUp.standing = .unspecified := rfl
@[simp] theorem giveUp_payload (p : Panel) : p.giveUp.regs.rx.payload = none := rfl
@[simp] theorem anyValue_gram (p : Panel) : p.anyValue.gram = [] := rfl
@[simp] theorem anyValue_standing (p : Panel) : p.anyValue.standing = p.standing := rfl
@[simp] theorem anyValue_payload (p : Panel) : p.anyValue.regs.rx.payload = none := rfl

/-- Both memories are canonical after reset. -/
theorem reset_memories_wf : pbWf State.reset.pb = true ∧ gramWf State.reset.panel.gram = true := ⟨rfl, rfl⟩

end Sys2Proof.Machine
end

