-- ==== Sys2Proof/Laws/Receiver.lean ====
section
/-! SUPPORT. What the panel makes of a frame the block sends: it recovers the payload bytes (R82), and each frame the block
sends has the effect R282 to R284 give it. -/

namespace Sys2Proof.Machine

/-! ## Wire bytes -/

theorem decode_syncByte (inFrame awaitLow rs rw : Bool) :
    decode (.line inFrame awaitLow) [syncByte rs rw] = .ok (.wireSync rw rs) := by
  cases rs <;> cases rw <;> rfl

theorem decode_highNibble (b : Byte) :
    decode (.line true false) [b &&& 0xF0] = .ok (.wireNibbleHigh (b.extractLsb' 4 4)) := by
  have h : ∀ b : Byte, decodeFrameByte true false (b &&& 0xF0) = .ok (.wireNibbleHigh (b.extractLsb' 4 4)) := by
    decide
  exact h b

theorem decode_lowNibble (b : Byte) :
    decode (.line true true) [(b &&& 0x0F) <<< 4] = .ok (.wireNibbleLow (b.extractLsb' 0 4)) := by
  have h : ∀ b : Byte, decodeFrameByte true true ((b &&& 0x0F) <<< 4) = .ok (.wireNibbleLow (b.extractLsb' 0 4)) := by
    decide
  exact h b

/-- "The receiver recovers `b = first | (second >> 4)`" (R82). -/
theorem nibbles_join (b : Byte) : (b.extractLsb' 4 4 ++ b.extractLsb' 0 4 : BitVec (4 + 4)) = b := by
  have h : ∀ b : BitVec 8, (b.extractLsb' 4 4 ++ b.extractLsb' 0 4 : BitVec (4 + 4)) = b := by decide
  exact h b

/-! ## Receiving a frame -/

/-- The panel stands inside a write frame with no nibble and no payload byte waiting. -/
structure InFrame (p : Panel) : Prop where
  following : p.standing = .following
  inFrame : p.regs.rx.inFrame = true
  rw : p.regs.rx.rw = false
  high : p.regs.rx.high = none
  payload : p.regs.rx.payload = none

/-- A payload byte reaches the panel. -/
def Panel.accept (p : Panel) (b : Byte) : Panel :=
  { p with regs.rx.payload := some b }.take p.payloadPort b

/-- A frame begins: what an accepted synchronisation byte leaves. -/
def Panel.begin (p : Panel) (rs : Bool) : Panel :=
  { p with regs.rx := { inFrame := true, rs := rs, rw := false, high := none, slot := .first, payload := none } }

/-- A byte with a meaning where it stands is acted on. -/
theorem take_of_effect {p q : Panel} {port : Port} {b : Byte} {i : Instr} (hd : decode port [b] = .ok i)
    (he : wireEffect i p = .ok q) : p.take port b = q := by
  simp only [Panel.take, hd, he]

theorem takePayload_none {p : Panel} (h : p.regs.rx.payload = none) : p.takePayload = p := by
  simp only [Panel.takePayload, h]

theorem takePayload_some {p : Panel} {d : Byte} (h : p.regs.rx.payload = some d) : p.takePayload = p.take p.payloadPort d := by
  simp only [Panel.takePayload, h]

theorem receiveByte_following {p : Panel} (h : p.standing = .following) (b : Byte) :
    p.receiveByte b = (p.take p.linePort b).takePayload := by
  simp only [Panel.receiveByte, h]

theorem receiveByte_sync (p : Panel) (rs : Bool) (hs : p.standing = .following) (hb : p.regs.busyUs = 0) :
    p.receiveByte (syncByte rs false) = p.begin rs := by
  have he : wireEffect (.wireSync false rs) p = .ok (p.begin rs) := if_pos hb
  rw [receiveByte_following hs, Panel.linePort, take_of_effect (decode_syncByte _ _ _ _) he]
  rfl

/-- A high nibble waits. -/
def Panel.withHigh (p : Panel) (h : BitVec 4) : Panel := { p with regs.rx.high := some h }

/-- A joined payload byte waits. -/
def Panel.withPayload (p : Panel) (d : Byte) : Panel := { p with regs.rx.payload := some d }

theorem receiveByte_highNibble (p : Panel) (b : Byte) (h : InFrame p) :
    p.receiveByte (b &&& 0xF0) = p.withHigh (b.extractLsb' 4 4) := by
  have hport : p.linePort = .line true false := by rw [Panel.linePort, h.inFrame, h.high]; rfl
  rw [receiveByte_following h.following, hport]
  have := take_of_effect (p := p) (q := p.withHigh (b.extractLsb' 4 4)) (decode_highNibble b) rfl
  rw [this]
  exact takePayload_none h.payload

theorem receiveByte_lowNibble (p : Panel) (b : Byte) (h : InFrame p) :
    (p.withHigh (b.extractLsb' 4 4)).receiveByte ((b &&& 0x0F) <<< 4) = (p.withPayload b).takePayload := by
  have hport : (p.withHigh (b.extractLsb' 4 4)).linePort = .line true true := by
    show Port.line p.regs.rx.inFrame true = _
    rw [h.inFrame]
  have he : wireEffect (.wireNibbleLow (b.extractLsb' 0 4)) (p.withHigh (b.extractLsb' 4 4)) = .ok (p.withPayload b) := by
    obtain ⟨-, -, -, hh, -⟩ := h
    obtain ⟨⟨ar, ac, bp, hb, e, g, md, c, bb, ms, r, i, hh, busy, inFrame, rs, rw, high, slot, payload⟩, gram, st, ai, fl, dr⟩ := p
    simp only at hh
    subst hh
    simp only [wireEffect, Panel.nibbleLow, Panel.withHigh, Panel.withPayload]
    rw [nibbles_join b]
  rw [receiveByte_following (by exact h.following), hport]
  rw [take_of_effect (decode_lowNibble b) he]

theorem receiveByte_nibbles (p : Panel) (b : Byte) (h : InFrame p) :
    (p.receiveByte (b &&& 0xF0)).receiveByte ((b &&& 0x0F) <<< 4) = p.accept b := by
  rw [receiveByte_highNibble p b h, receiveByte_lowNibble p b h]
  exact takePayload_some rfl

theorem receiveByte_unspecified (p : Panel) (b : Byte) (h : p.standing = .unspecified) : p.receiveByte b = p := by
  simp [Panel.receiveByte, h]

theorem receive_unspecified (p : Panel) (bytes : List Byte) (h : p.standing = .unspecified) : p.receive bytes = p := by
  induction bytes with
  | nil => rfl
  | cons b bytes ih => simpa [Panel.receive, receiveByte_unspecified p b h] using ih

theorem receive_append (p : Panel) (a b : List Byte) : p.receive (a ++ b) = (p.receive a).receive b := by
  simp [Panel.receive]

theorem receive_cons (p : Panel) (a : Byte) (b : List Byte) : p.receive (a :: b) = (p.receiveByte a).receive b := rfl

@[simp] theorem receive_nil (p : Panel) : p.receive [] = p := rfl

/-- The nibble bytes of a payload byte, received inside a frame. -/
theorem receive_nibbleBytes (p : Panel) (b : Byte) (h : InFrame p) : p.receive (nibbleBytes b) = p.accept b :=
  receiveByte_nibbles p b h

theorem frameBytes_cons (rs rw : Bool) (data : List Byte) :
    frameBytes rs rw data = syncByte rs rw :: data.flatMap nibbleBytes := rfl

/-! ## The block's three kinds of frame -/

theorem inFrame_begin {p : Panel} (rs : Bool) (hs : p.standing = .following) : InFrame (p.begin rs) :=
  ⟨hs, rfl, rfl, rfl, rfl⟩

/-- A one-byte instruction frame is acted on as that instruction byte. -/
theorem receive_instruction (p : Panel) (b : Byte) (hs : p.standing = .following) (hb : p.regs.busyUs = 0) :
    p.receive (frameBytes false false [b]) = (p.begin false).accept b := by
  rw [frameBytes_cons, receive_cons, receiveByte_sync p false hs hb]
  simpa using receive_nibbleBytes (p.begin false) b (inFrame_begin false hs)

/-- What an accepted configuration instruction leaves in the frame position and the busy deadline. -/
def Panel.configured (p : Panel) : Panel := (p.begin false).instructionTaken.startBusy

theorem receive_functionSet (p : Panel) (ext gfx : Bool) (hs : p.standing = .following) (hb : p.regs.busyUs = 0) :
    p.receive (frameBytes false false [functionSetByte ext gfx]) =
      { p.configured with regs.modeE := ext, regs.modeG := ext && gfx } := by
  rw [receive_instruction p _ hs hb]
  have h : decode (.instruction .first) [functionSetByte ext gfx] = .ok (.wireFunctionSet ext (ext && gfx)) := by
    cases ext <;> cases gfx <;> rfl
  have hw : ((ext && gfx) && !ext) = false := by cases ext <;> cases gfx <;> rfl
  simp only [Panel.accept, Panel.payloadPort, Panel.begin, Panel.take, Bool.false_eq_true, if_false]
  rw [h]
  simp only [wireEffect, Panel.functionSet, hw, Bool.false_eq_true, if_false]
  rfl

theorem receive_displayControl (p : Panel) (d c b : Bool) (hs : p.standing = .following) (hb : p.regs.busyUs = 0) :
    p.receive (frameBytes false false [displayControlByte d c b]) =
      { p.configured with regs.modeD := d, regs.modeC := c, regs.modeB := b } := by
  rw [receive_instruction p _ hs hb]
  have h : decode (.instruction .first) [displayControlByte d c b] = .ok (.wireDisplayControl d c b) := by
    cases d <;> cases c <;> cases b <;> rfl
  simp only [Panel.accept, Panel.payloadPort, Panel.begin, Panel.take, Bool.false_eq_true, if_false]
  rw [h]
  rfl

theorem receive_shiftControl (p : Panel) (s r : Bool) (hs : p.standing = .following) (hb : p.regs.busyUs = 0) :
    p.receive (frameBytes false false [shiftControlByte s r]) =
      { p.configured with regs.modeS := s, regs.modeR := r } := by
  rw [receive_instruction p _ hs hb]
  have h : decode (.instruction .first) [shiftControlByte s r] = .ok (.wireShiftControl s r) := by
    cases s <;> cases r <;> rfl
  simp only [Panel.accept, Panel.payloadPort, Panel.begin, Panel.take, Bool.false_eq_true, if_false]
  rw [h]
  rfl

theorem receive_entryMode (p : Panel) (i h : Bool) (hs : p.standing = .following) (hb : p.regs.busyUs = 0) :
    p.receive (frameBytes false false [entryModeByte i h]) =
      { p.configured with regs.modeI := i, regs.modeH := h } := by
  rw [receive_instruction p _ hs hb]
  have hd : decode (.instruction .first) [entryModeByte i h] = .ok (.wireEntryMode i h) := by
    cases i <;> cases h <;> rfl
  simp only [Panel.accept, Panel.payloadPort, Panel.begin, Panel.take, Bool.false_eq_true, if_false]
  rw [hd]
  rfl

/-- The panel after the block has pointed it at a word-cell (R283). -/
def Panel.addressed (p : Panel) (row col : Nat) : Panel :=
  { (p.begin false).instructionTaken with
    regs.ar := BitVec.ofNat 6 row, regs.ac := BitVec.ofNat 4 col, regs.bp := false }

theorem decode_rowByte (row : Nat) :
    decode (.instruction .first) [0x80#8 ||| (BitVec.ofNat 8 row &&& 0x3F#8)] = .ok (.wireGramAddrRow (BitVec.ofNat 6 row)) := by
  have h : ∀ b : Byte, decodeFirstByte (0x80#8 ||| (b &&& 0x3F#8)) = .ok (.wireGramAddrRow (b.extractLsb' 0 6)) := by decide
  have hr : (BitVec.ofNat 8 row).extractLsb' 0 6 = BitVec.ofNat 6 row := by
    apply BitVec.eq_of_toNat_eq
    simp [BitVec.extractLsb'_toNat, Nat.mod_mod_of_dvd _ (show 64 ∣ 256 by decide)]
  have := h (BitVec.ofNat 8 row)
  rw [hr] at this
  exact this

theorem decode_colByte (col : Nat) :
    decode (.instruction .column) [0x80#8 ||| (BitVec.ofNat 8 col &&& 0x0F#8)] = .ok (.wireGramAddrCol (BitVec.ofNat 4 col)) := by
  have h : ∀ b : Byte, decodeColumnByte (0x80#8 ||| (b &&& 0x0F#8)) = .ok (.wireGramAddrCol (b.extractLsb' 0 4)) := by decide
  have hr : (BitVec.ofNat 8 col).extractLsb' 0 4 = BitVec.ofNat 4 col := by
    apply BitVec.eq_of_toNat_eq
    simp [BitVec.extractLsb'_toNat, Nat.mod_mod_of_dvd _ (show 16 ∣ 256 by decide)]
  have := h (BitVec.ofNat 8 col)
  rw [hr] at this
  exact this

/-- In extended graphics mode the gate of GRAM addresses and data is open. -/
theorem whenGraphic_open {p : Panel} (k : Except Refusal Panel) (he : p.regs.modeE = true) (hg : p.regs.modeG = true) :
    p.whenGraphic k = k := by
  simp [Panel.whenGraphic, he, hg]

/-- What goes through the gate was in extended graphics mode and went through by itself. -/
theorem whenGraphic_ok {p q : Panel} {k : Except Refusal Panel} (h : p.whenGraphic k = .ok q) :
    p.regs.modeE = true ∧ p.regs.modeG = true ∧ k = .ok q := by
  unfold Panel.whenGraphic at h
  split at h
  · cases h
  · split at h
    · cases h
    · simp_all

/-- Outside extended graphics mode the gate refuses. -/
theorem whenGraphic_closed {p : Panel} (k : Except Refusal Panel) (h : p.regs.modeE = false ∨ p.regs.modeG = false) :
    ∃ why, p.whenGraphic k = .error why := by
  unfold Panel.whenGraphic
  split
  · exact ⟨_, rfl⟩
  · split
    · exact ⟨_, rfl⟩
    · simp_all

/-- The row byte of an address set has been taken. -/
def Panel.rowTaken (p : Panel) (row : Nat) : Panel := { p with regs.ar := BitVec.ofNat 6 row, regs.rx.slot := .column }

theorem accept_rowByte {p : Panel} {row : Nat} (h : InFrame p) (hrs : p.regs.rx.rs = false) (hslot : p.regs.rx.slot = .first)
    (he : p.regs.modeE = true) (hg : p.regs.modeG = true) (hr : row < 32) :
    p.accept (0x80#8 ||| (BitVec.ofNat 8 row &&& 0x3F#8)) = p.rowTaken row := by
  have hport : p.payloadPort = .instruction .first := by simp only [Panel.payloadPort, h.rw, hrs, hslot]; rfl
  have hrow : ¬ 32 ≤ (BitVec.ofNat 6 row).toNat := by simp; omega
  rw [Panel.accept, hport]
  refine take_of_effect (decode_rowByte row) ?_
  obtain ⟨h1, h2, h3, h4, h5⟩ := h
  obtain ⟨⟨ar, ac, bp, hb, e, g, md, c, bb, ms, r, i, hh, busy, inFrame, rs, rw, high, slot, payload⟩, gram, st, ai, fl, dr⟩ := p
  simp only at h1 h2 h3 h4 h5 hrs hslot he hg
  subst h1 h2 h3 h4 h5 hrs hslot he hg
  simp only [wireEffect, Panel.addrRow, Panel.whenGraphic, Bool.not_true, Bool.false_eq_true, if_false, if_neg hrow,
    Panel.rowTaken]

theorem accept_colByte {p : Panel} {col : Nat} (h : InFrame p) (hrs : p.regs.rx.rs = false) (hslot : p.regs.rx.slot = .column)
    (he : p.regs.modeE = true) (hg : p.regs.modeG = true) :
    p.accept (0x80#8 ||| (BitVec.ofNat 8 col &&& 0x0F#8)) =
      { p.instructionTaken with regs.ac := BitVec.ofNat 4 col, regs.bp := false } := by
  have hport : p.payloadPort = .instruction .column := by simp only [Panel.payloadPort, h.rw, hrs, hslot]; rfl
  rw [Panel.accept, hport]
  refine take_of_effect (decode_colByte col) ?_
  obtain ⟨h1, h2, h3, h4, h5⟩ := h
  obtain ⟨⟨ar, ac, bp, hb, e, g, md, c, bb, ms, r, i, hh, busy, inFrame, rs, rw, high, slot, payload⟩, gram, st, ai, fl, dr⟩ := p
  simp only at h1 h2 h3 h4 h5 hrs hslot he hg
  subst h1 h2 h3 h4 h5 hrs hslot he hg
  rfl

/-- An address frame from the block points the panel at the word-cell (R283). -/
theorem receive_address (p : Panel) (row col : Nat) (hs : p.standing = .following) (hb : p.regs.busyUs = 0)
    (he : p.regs.modeE = true) (hg : p.regs.modeG = true) (hr : row < 32) :
    p.receive (frameBytes false false (gramAddrBytes row col)) = p.addressed row col := by
  rw [frameBytes_cons, receive_cons, receiveByte_sync p false hs hb]
  have hin := inFrame_begin (p := p) false hs
  have hin2 : InFrame ((p.begin false).rowTaken row) := ⟨hs, rfl, rfl, rfl, rfl⟩
  show ((p.begin false).receive (nibbleBytes (0x80#8 ||| (BitVec.ofNat 8 row &&& 0x3F#8)) ++
    (nibbleBytes (0x80#8 ||| (BitVec.ofNat 8 col &&& 0x0F#8)) ++ []))) = _
  rw [List.append_nil, receive_append, receive_nibbleBytes _ _ hin, accept_rowByte hin rfl rfl he hg hr,
    receive_nibbleBytes _ _ hin2, accept_colByte hin2 rfl rfl he hg]
  rfl

/-- One word-cell written where the panel points (R282). -/
def Panel.writeCell (p : Panel) (w : Word) : Panel :=
  { p.advance with gram := gramWrite p.gram p.regs.ar.toNat p.regs.ac.toNat w, regs.hb := hi8 w, regs.bp := false }

/-- The panel is receiving pixel data and is pointed at a cell that exists. -/
structure InData (p : Panel) : Prop where
  inFrame : InFrame p
  rs : p.regs.rx.rs = true
  modeE : p.regs.modeE = true
  modeG : p.regs.modeG = true
  bp : p.regs.bp = false

theorem advance_fields (p : Panel) : p.advance.standing = p.standing ∧ p.advance.regs.rx = p.regs.rx ∧
    p.advance.regs.modeE = p.regs.modeE ∧ p.advance.regs.modeG = p.regs.modeG ∧ p.advance.regs.modeD = p.regs.modeD ∧
    p.advance.regs.busyUs = p.regs.busyUs ∧
    p.advance.autoInc = p.autoInc ∧ p.advance.floorUs = p.floorUs ∧ p.advance.gram = p.gram := by
  unfold Panel.advance
  split
  · simp
  · split <;> simp

theorem inData_writeCell {p : Panel} (w : Word) (h : InData p) : InData (p.writeCell w) := by
  obtain ⟨⟨h1, h2, h3, h4, h5⟩, h6, h7, hg, h8⟩ := h
  obtain ⟨a1, a2, a3, a4, -⟩ := advance_fields p
  constructor
  · constructor
    · exact a1.trans h1
    · simp only [Panel.writeCell, a2, h2]
    · simp only [Panel.writeCell, a2, h3]
    · simp only [Panel.writeCell, a2, h4]
    · simp only [Panel.writeCell, a2, h5]
  · simp only [Panel.writeCell, a2, h6]
  · simp only [Panel.writeCell, a3, h7]
  · simp only [Panel.writeCell, a4, hg]
  · rfl

theorem accept_data {p q : Panel} {d : Byte} (h : InData p) (he : wireEffect (.wireData d) { p with regs.rx.payload := some d } = .ok q) :
    p.accept d = q := by
  have hport : p.payloadPort = .data := by simp only [Panel.payloadPort, h.inFrame.rw, h.rs]; rfl
  rw [Panel.accept, hport]
  exact take_of_effect rfl he

/-- The first byte of a pair is held (R282). -/
def Panel.held (p : Panel) (d : Byte) : Panel := { p with regs.hb := d, regs.bp := true }

theorem accept_highByte {p : Panel} (d : Byte) (h : InData p) : p.accept d = p.held d := by
  refine accept_data h ?_
  obtain ⟨⟨h1, h2, h3, h4, h5⟩, h6, h7, hg, h8⟩ := h
  obtain ⟨⟨ar, ac, bp, hb, e, g, md, c, bb, ms, r, i, hh, busy, inFrame, rs, rw, high, slot, payload⟩, gram, st, ai, fl, dr⟩ := p
  simp only at h1 h2 h3 h4 h5 h6 h7 hg h8
  subst h5 h7 hg h8
  rfl

theorem accept_lowByte {p : Panel} (w : Word) (h : InData p) (har : p.regs.ar.toNat < 32) :
    (p.held (hi8 w)).accept (lo8 w) = p.writeCell w := by
  have hport : (p.held (hi8 w)).payloadPort = .data := by
    simp only [Panel.payloadPort, Panel.held, h.inFrame.rw, h.rs]; rfl
  rw [Panel.accept, hport]
  refine take_of_effect rfl ?_
  obtain ⟨⟨h1, h2, h3, h4, h5⟩, h6, h7, hg, h8⟩ := h
  have hlt : ¬ 32 ≤ p.regs.ar.toNat := by omega
  simp only [wireEffect, Panel.dataByte, Panel.whenGraphic, Panel.held, h7, hg, Bool.not_true, Bool.false_eq_true, if_false, if_neg hlt,
    joinBytes_hi8_lo8, Panel.writeCell, Panel.advance]
  obtain ⟨⟨ar, ac, bp, hb, e, g, md, c, bb, ms, r, i, hh, busy, inFrame, rs, rw, high, slot, payload⟩, gram, st, ai, fl, dr⟩ := p
  simp only at h1 h2 h3 h4 h5 h6 h7 hg h8
  subst h5 h7 hg h8
  congr 1
  split
  · rfl
  · split <;> rfl

/-- A burst of word-cells received inside a data frame writes them one after another, as long as the panel points at rows
that exist. -/
theorem receive_cells (p : Panel) (ws : List Word) (h : InData p)
    (har : ∀ pre w post, ws = pre ++ w :: post → (pre.foldl Panel.writeCell p).regs.ar.toNat < 32) :
    p.receive ((ws.flatMap cellPayload).flatMap nibbleBytes) = ws.foldl Panel.writeCell p := by
  induction ws generalizing p with
  | nil => rfl
  | cons w ws ih =>
    have hp := har [] w ws rfl
    have hmid : InFrame (p.held (hi8 w)) :=
      ⟨h.inFrame.following, h.inFrame.inFrame, h.inFrame.rw, h.inFrame.high, h.inFrame.payload⟩
    simp only [List.flatMap_cons, cellPayload, List.cons_append, List.nil_append, receive_append, List.foldl_cons]
    rw [receive_nibbleBytes p _ h.inFrame, accept_highByte _ h, receive_nibbleBytes _ _ hmid, accept_lowByte w h hp]
    exact ih _ (inData_writeCell w h) fun pre v post e => har (w :: pre) v post (by rw [e]; rfl)

end Sys2Proof.Machine
end

