-- ==== Sys2Proof/Laws/Flow.lean ====
section
/-! SUPPORT. What each shared operation can do, said once: a write, a settled instruction, a loop; and how the gates and the
end of an operation answer. -/

namespace Sys2Proof.Machine

/-! ## A write -/

/-- Everything one `TransportWrite` can do (R35, R265): the frame was delivered, or `TransportWriteFailure` was raised with
what the write reported. -/
theorem transportWrite_cases (bytes : List Byte) (s : State) :
    transportWrite bytes s = .ok (deliver bytes (useWriteResult s)) ∨ ∃ n, transportWrite bytes s = failWrite n s := by
  unfold transportWrite
  split
  · exact .inl rfl
  · split
    · exact .inl rfl
    · exact .inr ⟨_, rfl⟩
  · exact .inr ⟨_, rfl⟩

theorem nextWriteResult_sound {s : State} (h : linkSound s = true) : nextWriteResult s = .all := by
  unfold nextWriteResult
  unfold linkSound at h
  cases hw : s.env.writes with
  | nil => rfl
  | cons w ws => rw [hw] at h; simp at h; simp [h.1]

/-- A sound link delivers every frame. -/
theorem transportWrite_sound (bytes : List Byte) {s : State} (h : linkSound s = true) :
    transportWrite bytes s = .ok (deliver bytes (useWriteResult s)) := by
  unfold transportWrite
  rw [nextWriteResult_sound h]

theorem linkSound_useWriteResult {s : State} (h : linkSound s = true) : linkSound (useWriteResult s) = true := by
  rw [linkSound, List.all_eq_true] at h ⊢
  exact fun w hw => h w (List.mem_of_mem_drop hw)

@[simp] theorem linkSound_deliver (b : List Byte) (s : State) : linkSound (deliver b s) = linkSound s := rfl
@[simp] theorem linkSound_settle (s : State) : linkSound (settle s) = linkSound s := rfl

/-! ## What survives an operation's steps -/

/-- A property that delivering, settling, using up a write result and raising a write fault keep. -/
structure Survives (P : State → Prop) : Prop where
  deliver : ∀ bytes s, P s → P (deliver bytes s)
  settle : ∀ s, P s → P (settle s)
  used : ∀ s, P s → P (useWriteResult s)
  raised : ∀ n s, P s → P (raiseFault .transportWriteFailure n (losePanel s))

theorem Survives.transportWrite {P : State → Prop} (h : Survives P) (bytes : List Byte) (s : State) (hs : P s) :
    P (transportWrite bytes s).state := by
  rcases transportWrite_cases bytes s with e | ⟨n, e⟩ <;> rw [e]
  · exact h.deliver _ _ (h.used _ hs)
  · exact h.raised n _ (h.used _ hs)

theorem andThen_state {P : State → Prop} {m : Flow} {k : State → Flow} (hm : P m.state)
    (hk : ∀ s, P s → P (k s).state) : P (m.andThen k).state := by
  cases m with
  | ok s => exact hk s hm
  | raised s => exact hm

theorem forEach_state {α : Type} {P : State → Prop} {f : α → State → Flow} (hf : ∀ a s, P s → P (f a s).state)
    (l : List α) {s : State} (hs : P s) : P (forEach f l s).state := by
  induction l generalizing s with
  | nil => exact hs
  | cons a l ih => exact andThen_state (hf a s hs) fun t ht => ih ht

theorem Survives.sendFrame {P : State → Prop} (h : Survives P) (rs rw : Bool) (data : List Byte) (s : State) (hs : P s) :
    P (sendFrame rs rw data s).state := h.transportWrite _ _ hs

theorem Survives.sendInstruction {P : State → Prop} (h : Survives P) (b : Byte) (s : State) (hs : P s) :
    P (sendInstruction b s).state :=
  andThen_state (h.sendFrame _ _ _ _ hs) fun t ht => h.settle t ht

theorem Survives.sendAddress {P : State → Prop} (h : Survives P) (row col : Nat) (s : State) (hs : P s) :
    P (sendAddress row col s).state := h.sendFrame _ _ _ _ hs

theorem Survives.flushRow {P : State → Prop} (h : Survives P) (r : Nat) (s : State) (hs : P s) :
    P (flushRow r s).state :=
  andThen_state (h.sendAddress _ _ _ hs) fun t ht => h.sendFrame _ _ _ t ht

theorem Survives.flushCell {P : State → Prop} (h : Survives P) (cell : Nat × Nat) (s : State) (hs : P s) :
    P (flushCell cell s).state :=
  andThen_state (h.sendAddress _ _ _ hs) fun t ht => h.sendFrame _ _ _ t ht

theorem Survives.flushAll {P : State → Prop} (h : Survives P) (s : State) (hs : P s) : P (flushAll s).state :=
  forEach_state (fun r t ht => h.flushRow r t ht) _ hs

/-! ## The gates and the end of an operation -/

/-- What an answer of a gated host operation says. -/
theorem whenReady_next {s t : State} {k : Result} (h : whenReady s k = .next t) : s.lc = .ready ∧ k = .next t := by
  unfold whenReady at h; split at h
  · exact ⟨‹_›, h⟩
  · cases h

theorem onCanvas_next {s t : State} {k : Result} (h : onCanvas s k = .next t) :
    s.lc = .ready ∧ s.pbExists = true ∧ k = .next t := by
  obtain ⟨h1, h2⟩ := whenReady_next h
  split at h2
  · exact ⟨h1, ‹_›, h2⟩
  · cases h2

theorem whenReady_of_ready {s : State} (h : s.lc = .ready) (k : Result) : whenReady s k = k := if_pos h

theorem onCanvas_of_ready {s : State} (h : s.lc = .ready) (hp : s.pbExists = true) (k : Result) : onCanvas s k = k := by
  rw [onCanvas, whenReady_of_ready h, if_pos hp]

/-- The next state of a finished operation: the flow's own state, counted if it completed. -/
theorem finishOperation_next {m : Flow} {t : State} (h : finishOperation m = .next t) :
    (∃ s, m = .ok s ∧ t = { s with ci := s.ci + 1 }) ∨ m = .raised t := by
  cases m with
  | ok s => left; refine ⟨s, rfl, ?_⟩; simpa [finishOperation] using h.symm
  | raised s => right; simp only [finishOperation] at h; cases h; rfl

end Sys2Proof.Machine
end

