-- ==== Sys2Proof/Laws/Sending.lean ====
section
/-! SUPPORT. What the sending operations do, said once: the bytes of each frame written out, and every list of frames either
sent whole or up to the first write that fails. -/

namespace Sys2Proof.Machine

/-! ## Bytes of a frame -/

theorem nibbleBytes_eq (b : Byte) : nibbleBytes b = [b.extractLsb' 4 4 ++ 0#4, b.extractLsb' 0 4 ++ 0#4] := by
  have h : ∀ b : BitVec 8, (b &&& 0xF0#8) = (b.extractLsb' 4 4 ++ 0#4 : BitVec (4 + 4)) ∧
      ((b &&& 0x0F#8) <<< 4) = (b.extractLsb' 0 4 ++ 0#4 : BitVec (4 + 4)) := by decide
  show [b &&& 0xF0#8, (b &&& 0x0F#8) <<< 4] = _
  rw [(h b).1, (h b).2]

theorem flatMap_nibbleBytes (data : List Byte) : data.flatMap nibbleBytes = wireNibbles data := by
  unfold wireNibbles
  congr 1
  exact funext nibbleBytes_eq

theorem frameBytes_instruction (b : Byte) : frameBytes false false [b] = 0xF8 :: wireNibbles [b] := by
  rw [frameBytes, flatMap_nibbleBytes]; rfl

theorem gramAddrBytes_eq (row col : Nat) :
    gramAddrBytes row col = [0b10#2 ++ BitVec.ofNat 6 row, 0b1000#4 ++ BitVec.ofNat 4 col] := by
  have h1 : ∀ b : BitVec 8, (0x80#8 ||| (b &&& 0x3F#8)) = (0b10#2 ++ b.extractLsb' 0 6 : BitVec (2 + 6)) := by decide
  have h2 : ∀ b : BitVec 8, (0x80#8 ||| (b &&& 0x0F#8)) = (0b1000#4 ++ b.extractLsb' 0 4 : BitVec (4 + 4)) := by decide
  have hr : (BitVec.ofNat 8 row).extractLsb' 0 6 = BitVec.ofNat 6 row := by
    apply BitVec.eq_of_toNat_eq
    simp [BitVec.extractLsb'_toNat, Nat.mod_mod_of_dvd _ (show 64 ∣ 256 by decide)]
  have hc : (BitVec.ofNat 8 col).extractLsb' 0 4 = BitVec.ofNat 4 col := by
    apply BitVec.eq_of_toNat_eq
    simp [BitVec.extractLsb'_toNat, Nat.mod_mod_of_dvd _ (show 16 ∣ 256 by decide)]
  show [0x80#8 ||| (BitVec.ofNat 8 row &&& 0x3F#8), 0x80#8 ||| (BitVec.ofNat 8 col &&& 0x0F#8)] = _
  rw [h1, h2, hr, hc]

theorem frameBytes_address (row col : Nat) : frameBytes false false (gramAddrBytes row col) = addressFrame row col := by
  rw [frameBytes, flatMap_nibbleBytes, gramAddrBytes_eq]; rfl

theorem frameBytes_data (ws : List Word) : frameBytes true false (ws.flatMap cellPayload) = dataFrame ws := by
  rw [frameBytes, flatMap_nibbleBytes]; rfl

/-! ## One write -/

/-- One `TransportWrite`: the frame is sent, or the write failed (R35, R265). -/
theorem transportWrite_eq (bytes : List Byte) (s : State) :
    transportWrite bytes s =
      if goesThrough bytes (s.env.writes.headD .all) then .ok (s.sent [bytes]) else .raised s.writeFailed := by
  unfold transportWrite nextWriteResult
  cases h : s.env.writes.headD .all with
  | all => rfl
  | count n =>
    simp only [goesThrough, decide_eq_true_eq]
    split
    · rfl
    · simp only [State.writeFailed, h]; rfl
  | error =>
    simp only [goesThrough, Bool.false_eq_true, if_false, State.writeFailed, h]
    rfl

@[simp] theorem sent_nil (s : State) : s.sent [] = s := by simp [State.sent]

theorem sent_append (s : State) (f g : List (List Byte)) : (s.sent f).sent g = s.sent (f ++ g) := by
  simp [State.sent, List.append_assoc, List.foldl_append]

/-! ## A list of frames -/

/-- Frames sent one after another. -/
def sendAll (frames : List (List Byte)) (s : State) : Flow := forEach transportWrite frames s

theorem forEach_append {α : Type} (f : α → State → Flow) (l m : List α) (s : State) :
    forEach f (l ++ m) s = (forEach f l s).andThen (forEach f m) := by
  induction l generalizing s with
  | nil => rfl
  | cons a l ih =>
    rw [List.cons_append, forEach_cons, forEach_cons]
    cases f a s with
    | ok t => simpa using ih t
    | raised t => rfl

theorem forEach_singleton {α : Type} (f : α → State → Flow) (a : α) (s : State) : forEach f [a] s = f a s := by
  rw [forEach_cons]
  cases f a s <;> rfl

theorem framesThrough_le (frames : List (List Byte)) (ws : List WriteResult) : framesThrough frames ws ≤ frames.length := by
  induction frames generalizing ws with
  | nil => simp [framesThrough]
  | cons f frames ih =>
    unfold framesThrough
    split
    · simpa using ih _
    · simp

/-- Everything a list of frames can do: all are sent, or those before the first failing write, and then the fault. -/
theorem sendAll_eq (frames : List (List Byte)) (s : State) :
    sendAll frames s =
      if framesThrough frames s.env.writes = frames.length then .ok (s.sent frames)
      else .raised (s.sent (frames.take (framesThrough frames s.env.writes))).writeFailed := by
  induction frames generalizing s with
  | nil => simp [sendAll, framesThrough]
  | cons f frames ih =>
    rw [sendAll, forEach_cons, transportWrite_eq]
    unfold framesThrough
    split
    · rename_i h
      have hw : (s.sent [f]).env.writes = s.env.writes.drop 1 := rfl
      have := ih (s.sent [f])
      rw [sendAll, hw] at this
      rw [andThen_ok, this]
      simp only [List.length_cons, Nat.add_right_cancel_iff, List.take_succ_cons, sent_append, List.singleton_append]
    · simp

theorem framesThrough_sound (frames : List (List Byte)) {ws : List WriteResult} (h : (ws.all fun w => w == .all) = true) :
    framesThrough frames ws = frames.length := by
  induction frames generalizing ws with
  | nil => rfl
  | cons f frames ih =>
    have hd : ((ws.drop 1).all fun w => w == WriteResult.all) = true := by
      rw [List.all_eq_true] at h ⊢
      exact fun w hw => h w (List.mem_of_mem_drop hw)
    have hh : ws.headD .all = .all := by
      cases ws with
      | nil => rfl
      | cons w ws => simp at h; simp [h.1]
    simp only [framesThrough, hh, goesThrough, if_true, ih hd, List.length_cons]

/-! ## The flush bodies as lists of frames -/

@[simp] theorem sent_pb (s : State) (f : List (List Byte)) : (s.sent f).pb = s.pb := rfl

@[simp] theorem sent_panel (s : State) (f : List (List Byte)) : (s.sent f).panel = f.foldl Panel.receive s.panel := rfl
@[simp] theorem sent_trace (s : State) (f : List (List Byte)) : (s.sent f).trace = s.trace ++ f.map Event.tx := rfl

/-- Sending keeps `PB`. -/
theorem sendAll_pb {frames : List (List Byte)} {s t : State} (h : sendAll frames s = .ok t) : t.pb = s.pb := by
  rw [sendAll_eq] at h
  split at h
  · cases h; rfl
  · cases h

theorem transportWrite_pb {bytes : List Byte} {s t : State} (h : transportWrite bytes s = .ok t) : t.pb = s.pb := by
  rw [transportWrite_eq] at h
  split at h
  · cases h; rfl
  · cases h

theorem upTo_eq_map (lo n : Nat) : upTo lo (lo + n) = (List.range (n + 1)).map fun k => lo + k := by
  rw [upTo, show lo + n + 1 - lo = n + 1 by omega, List.range'_eq_map_range]

theorem flushRow_eq (r : Nat) (s : State) : flushRow r s = sendAll (rowFrames s.pb r) s := by
  have hd : ∀ pb, frameBytes true false (rowPayload pb (wordRow r) (bankOf r)) =
      dataFrame ((List.range 8).map fun k => memRead pb (r % 32) ((if 32 ≤ r then 8 else 0) + k)) := by
    intro pb
    rw [rowPayload, upTo_eq_map, ← frameBytes_data, List.flatMap_map, List.flatMap_map]
    rfl
  have ha : frameBytes false false (gramAddrBytes (wordRow r) (bankOf r)) =
      addressFrame (r % 32) (if 32 ≤ r then 8 else 0) := frameBytes_address _ _
  rw [flushRow, sendAddress, sendFrame, ha]
  simp only [sendFrame, hd, sendAll, rowFrames, forEach_cons]
  cases h : transportWrite (addressFrame (r % 32) (if 32 ≤ r then 8 else 0)) s with
  | raised t => rfl
  | ok t =>
    rw [andThen_ok, andThen_ok, transportWrite_pb h, forEach_singleton]

/-- A loop whose every turn sends frames that depend on `PB` alone sends them all. -/
theorem forEach_sendAll {α : Type} (body : α → State → Flow) (frames : List Host.Cell → α → List (List Byte))
    (hb : ∀ a s, body a s = sendAll (frames s.pb a) s) (l : List α) (s : State) :
    forEach body l s = sendAll (l.flatMap (frames s.pb)) s := by
  induction l generalizing s with
  | nil => rfl
  | cons a l ih =>
    rw [forEach_cons, List.flatMap_cons, sendAll, forEach_append, ← sendAll, hb]
    cases h : sendAll (frames s.pb a) s with
    | raised t => rfl
    | ok t =>
      rw [andThen_ok, andThen_ok, ih, sendAll_pb h]
      rfl

theorem upTo_zero (n : Nat) : upTo 0 n = List.range (n + 1) := by
  rw [upTo, List.range_eq_range']; rfl

theorem flushAll_eq (s : State) : flushAll s = sendAll (canvasFrames s.pb) s := by
  rw [flushAll, upTo_zero]
  exact forEach_sendAll flushRow rowFrames flushRow_eq _ s

theorem flushCell_eq (cell : Nat × Nat) (s : State) :
    flushCell cell s = sendAll [addressFrame cell.1 cell.2, dataFrame [memRead s.pb cell.1 cell.2]] s := by
  have hd : ∀ pb, frameBytes true false (cellPayload (memRead pb cell.1 cell.2)) = dataFrame [memRead pb cell.1 cell.2] := by
    intro pb
    rw [← frameBytes_data, List.flatMap_cons, List.flatMap_nil, List.append_nil]
  rw [flushCell, sendAddress, sendFrame, frameBytes_address]
  simp only [sendFrame, hd, sendAll, forEach_cons]
  cases h : transportWrite (addressFrame cell.1 cell.2) s with
  | raised t => rfl
  | ok t =>
    rw [andThen_ok, andThen_ok, transportWrite_pb h, forEach_singleton]

theorem boxCells_eq (x1 y1 x2 y2 : Nat) : boxCells x1 y1 x2 y2 = boxVisits x1 y1 x2 y2 := by
  simp only [boxCells, boxVisits, upTo, List.range'_eq_map_range, List.flatMap_map, List.map_map]
  rfl

theorem flushBox_eq (x1 y1 x2 y2 : Nat) (s : State) :
    forEach flushCell (boxCells x1 y1 x2 y2) s = sendAll (boxFrames s.pb x1 y1 x2 y2) s := by
  rw [boxCells_eq]
  exact forEach_sendAll flushCell
    (fun pb cell => [addressFrame cell.1 cell.2, dataFrame [memRead pb cell.1 cell.2]]) flushCell_eq _ s

/-! ## One instruction -/

/-- One settled instruction: sent and waited for, or the write failed (R141). -/
theorem sendInstruction_eq (b : Byte) (s : State) :
    sendInstruction b s =
      if goesThrough (0xF8 :: wireNibbles [b]) (s.env.writes.headD .all) then .ok (s.instructed b) else .raised s.writeFailed := by
  rw [sendInstruction, sendFrame, frameBytes_instruction, transportWrite_eq]
  split
  · rfl
  · rfl

end Sys2Proof.Machine
end

