-- ==== Sys2Proof/Laws/Burst.lean ====
section
/-! SUPPORT. What an address frame and the data frame after it do to the panel (R282, R283, R287), and that whatever the panel
receives its GRAM keeps the canonical form. -/

namespace Sys2Proof.Machine

/-! ## The canonical form of GRAM -/

theorem gramWf_wireEffect {i : Instr} {p q : Panel} (h : wireEffect i p = .ok q) (hw : gramWf p.gram = true) :
    gramWf q.gram = true := by
  unfold wireEffect at h
  split at h <;> try cases h
  case h_18 e g => unfold Panel.functionSet at h; split at h <;> cases h; exact hw
  case h_19 => exact hw
  case h_20 => exact hw
  case h_21 => exact hw
  case h_22 row =>
    have h := (whenGraphic_ok h).2.2
    split at h <;> cases h; exact hw
  case h_23 => have h := (whenGraphic_ok h).2.2; cases h; exact hw
  case h_24 rw rs =>
    unfold Panel.sync at h
    split at h <;> cases h
    · exact hw
    · rfl
  case h_25 => exact hw
  case h_26 => unfold Panel.nibbleLow at h; split at h <;> cases h; exact hw
  case h_27 =>
    have h := (whenGraphic_ok h).2.2
    split at h
    · cases h; exact hw
    · split at h
      · cases h
      · rename_i har
        cases h
        exact gramWf_gramWrite _ (by omega) p.regs.ac.isLt hw

theorem gramWf_take {p : Panel} (port : Port) (b : Byte) (hw : gramWf p.gram = true) : gramWf (p.take port b).gram = true := by
  unfold Panel.take
  split
  · exact hw
  · split
    · exact hw
    · rename_i h; exact gramWf_wireEffect h hw

theorem gramWf_receiveByte {p : Panel} (b : Byte) (hw : gramWf p.gram = true) : gramWf (p.receiveByte b).gram = true := by
  unfold Panel.receiveByte
  split
  · exact hw
  · unfold Panel.takePayload
    split
    · exact gramWf_take _ _ hw
    · exact gramWf_take _ _ (gramWf_take _ _ hw)

theorem gramWf_receive {p : Panel} (bytes : List Byte) (hw : gramWf p.gram = true) : gramWf (p.receive bytes).gram = true := by
  induction bytes generalizing p with
  | nil => exact hw
  | cons b bytes ih => exact ih (gramWf_receiveByte b hw)

/-! ## A burst of word-cells -/

theorem gramRead_writeCell (p : Panel) (w : Word) (r c : Nat) (hc : c < 16) :
    gramRead (p.writeCell w).gram r c =
      if r = p.regs.ar.toNat ∧ c = p.regs.ac.toNat then some w else gramRead p.gram r c := by
  show gramRead (gramWrite p.gram p.regs.ar.toNat p.regs.ac.toNat w) r c = _
  exact gramRead_gramWrite _ _ _ _ _ _ p.regs.ac.isLt hc

/-- What a word-cell write leaves unchanged. -/
theorem writeCell_fields (p : Panel) (w : Word) : (p.writeCell w).standing = p.standing ∧
    (p.writeCell w).regs.modeE = p.regs.modeE ∧ (p.writeCell w).regs.modeG = p.regs.modeG ∧
    (p.writeCell w).regs.modeD = p.regs.modeD ∧ (p.writeCell w).regs.busyUs = p.regs.busyUs ∧
    (p.writeCell w).autoInc = p.autoInc := by
  obtain ⟨a1, -, a3, a4, a5, a6, a7, -⟩ := advance_fields p
  exact ⟨a1, a3, a4, a5, a6, a7⟩

/-- Under `AUTO_INC` the panel moves to the next column, the last column apart (R282). -/
theorem writeCell_address {p : Panel} {row col : Nat} (w : Word) (ha : p.autoInc = true) (hr : p.regs.ar.toNat = row)
    (hc : p.regs.ac.toNat = col) (hcol : col < 15) :
    (p.writeCell w).regs.ar.toNat = row ∧ (p.writeCell w).regs.ac.toNat = col + 1 := by
  have hne : ¬ p.regs.ac = 15 := fun e => by rw [e] at hc; exact absurd hc (by show ¬ (15 : Nat) = col; omega)
  have hadv : p.advance = { p with regs.ac := p.regs.ac + 1 } := by
    unfold Panel.advance
    rw [ha]
    simp only [Bool.not_true, Bool.false_eq_true, if_false, if_neg hne]
  constructor
  · show p.advance.regs.ar.toNat = row
    rw [hadv]; exact hr
  · show p.advance.regs.ac.toNat = col + 1
    rw [hadv]
    show (p.regs.ac + 1).toNat = _
    rw [BitVec.toNat_add, hc]
    show (col + 1) % 16 = _
    omega

/-- A panel that will take a burst: pointed at `(row, col)` with room for the words. -/
structure BurstFits (p : Panel) (row col n : Nat) : Prop where
  rowOk : row < 32
  colOk : col + n ≤ 16
  moves : p.autoInc = true ∨ n ≤ 1
  ar : n ≠ 0 → p.regs.ar.toNat = row
  ac : n ≠ 0 → p.regs.ac.toNat = col

theorem BurstFits.next {p : Panel} {row col n : Nat} (w : Word) (h : BurstFits p row col (n + 1)) :
    BurstFits (p.writeCell w) row (col + 1) n := by
  obtain ⟨h1, h2, h3, h4, h5⟩ := h
  have key : n ≠ 0 → (p.writeCell w).regs.ar.toNat = row ∧ (p.writeCell w).regs.ac.toNat = col + 1 := fun hn =>
    writeCell_address w (h3.resolve_right (by omega)) (h4 (by omega)) (h5 (by omega)) (by omega)
  exact ⟨h1, by omega, by rw [(writeCell_fields p w).2.2.2.2.2]; exact h3.imp id (by omega), fun hn => (key hn).1,
    fun hn => (key hn).2⟩

/-- The cells a burst writes, and every other. -/
theorem gramRead_burst {p : Panel} {row col : Nat} (ws : List Word) (h : BurstFits p row col ws.length) (r c : Nat)
    (hc : c < 16) :
    gramRead (ws.foldl Panel.writeCell p).gram r c =
      if r = row ∧ col ≤ c ∧ c < col + ws.length then ws[c - col]? else gramRead p.gram r c := by
  induction ws generalizing p col with
  | nil => simp
  | cons w ws ih =>
    rw [List.foldl_cons, ih (h.next w), gramRead_writeCell _ _ _ _ hc, h.ar (by simp), h.ac (by simp)]
    simp only [List.length_cons]
    by_cases h1 : r = row ∧ col + 1 ≤ c ∧ c < col + 1 + ws.length
    · rw [if_pos h1, if_pos ⟨h1.1, by omega, by omega⟩, show c - col = (c - (col + 1)) + 1 by omega, List.getElem?_cons_succ]
    · rw [if_neg h1]
      by_cases h2 : r = row ∧ c = col
      · rw [if_pos h2, if_pos ⟨h2.1, by omega, by omega⟩, h2.2, Nat.sub_self, List.getElem?_cons_zero]
      · rw [if_neg h2, if_neg]
        rintro ⟨h3, h4, h5⟩
        exact h2 ⟨h3, by by_contra hne; exact h1 ⟨h3, by omega, by omega⟩⟩

/-- While a burst fits, every word finds a row that exists. -/
theorem burst_rows {p : Panel} {row col : Nat} {ws : List Word} (h : BurstFits p row col ws.length) :
    ∀ pre w post, ws = pre ++ w :: post → (pre.foldl Panel.writeCell p).regs.ar.toNat < 32 := by
  intro pre w post e
  induction pre generalizing p col ws with
  | nil =>
    have := h.ar (by rw [e]; simp)
    have := h.rowOk
    simp only [List.foldl_nil]
    omega
  | cons v pre ih =>
    subst e
    rw [List.foldl_cons]
    exact ih (by simpa using h.next v) rfl

theorem foldl_writeCell_fields (ws : List Word) (p : Panel) : (ws.foldl Panel.writeCell p).standing = p.standing ∧
    (ws.foldl Panel.writeCell p).regs.modeE = p.regs.modeE ∧ (ws.foldl Panel.writeCell p).regs.modeG = p.regs.modeG ∧
    (ws.foldl Panel.writeCell p).regs.modeD = p.regs.modeD ∧ (ws.foldl Panel.writeCell p).regs.busyUs = p.regs.busyUs ∧
    (ws.foldl Panel.writeCell p).autoInc = p.autoInc := by
  induction ws generalizing p with
  | nil => simp
  | cons w ws ih =>
    rw [List.foldl_cons]
    obtain ⟨a1, a2, a3, a4, a5, a6⟩ := ih (p.writeCell w)
    obtain ⟨b1, b2, b3, b4, b5, b6⟩ := writeCell_fields p w
    exact ⟨a1.trans b1, a2.trans b2, a3.trans b3, a4.trans b4, a5.trans b5, a6.trans b6⟩

/-- The panel takes frames: the fields of `panelListening`. -/
theorem panelListening_iff (p : Panel) :
    panelListening p = true ↔
      p.standing = .following ∧ p.regs.modeE = true ∧ p.regs.modeG = true ∧ p.regs.busyUs = 0 := by
  simp [panelListening, and_assoc]

/-- An address frame and a data frame: the words land in the row from the column on, every other cell is as it was, and the
panel still listens (R282, R283). -/
theorem receive_burst {p : Panel} {row col : Nat} (ws : List Word) (hl : panelListening p = true) (hrow : row < 32)
    (hcol : col + ws.length ≤ 16) (hne : ws ≠ []) (hm : p.autoInc = true ∨ ws.length ≤ 1) :
    panelListening ((p.receive (addressFrame row col)).receive (dataFrame ws)) = true ∧
    ((p.receive (addressFrame row col)).receive (dataFrame ws)).regs.modeD = p.regs.modeD ∧
    ((p.receive (addressFrame row col)).receive (dataFrame ws)).regs.modeG = p.regs.modeG ∧
    ((p.receive (addressFrame row col)).receive (dataFrame ws)).autoInc = p.autoInc ∧
    ∀ r c, c < 16 → gramRead ((p.receive (addressFrame row col)).receive (dataFrame ws)).gram r c =
      if r = row ∧ col ≤ c ∧ c < col + ws.length then ws[c - col]? else gramRead p.gram r c := by
  obtain ⟨hs, he, hg, hb⟩ := (panelListening_iff p).mp hl
  have hlen : ws.length ≠ 0 := by simpa using hne
  rw [← frameBytes_address, receive_address p row col hs hb he hg hrow, ← frameBytes_data, frameBytes_cons, receive_cons,
    receiveByte_sync _ true (by exact hs) (by exact hb)]
  have hin : InData ((p.addressed row col).begin true) := ⟨inFrame_begin true hs, rfl, he, hg, rfl⟩
  have hfit : BurstFits ((p.addressed row col).begin true) row col ws.length :=
    ⟨hrow, hcol, hm, fun _ => by show (BitVec.ofNat 6 row).toNat = row; simp; omega,
      fun _ => by show (BitVec.ofNat 4 col).toNat = col; simp; omega⟩
  rw [receive_cells _ ws hin (burst_rows hfit)]
  obtain ⟨f1, f2, f3, f4, f5, f6⟩ := foldl_writeCell_fields ws ((p.addressed row col).begin true)
  refine ⟨?_, f4, f3, f6, fun r c hc => gramRead_burst ws hfit r c hc⟩
  rw [panelListening_iff, f1, f2, f3, f5]
  exact ⟨hs, he, hg, hb⟩

/-- The panel after a list of bursts whose words are those of one PixelBuffer. -/
def burstFrames (pb : List Host.Cell) (n : Nat) (cell : Nat × Nat) : List (List Byte) :=
  [addressFrame cell.1 cell.2, dataFrame ((List.range n).map fun k => memRead pb cell.1 (cell.2 + k))]

theorem receive_bursts {p : Panel} {n : Nat} (pb : List Host.Cell) (cells : List (Nat × Nat)) (hl : panelListening p = true)
    (hn : 1 ≤ n) (hm : p.autoInc = true ∨ n ≤ 1) (hc : ∀ e ∈ cells, e.1 < 32 ∧ e.2 + n ≤ 16) :
    panelListening ((cells.flatMap (burstFrames pb n)).foldl Panel.receive p) = true ∧
    ((cells.flatMap (burstFrames pb n)).foldl Panel.receive p).regs.modeD = p.regs.modeD ∧
    ((cells.flatMap (burstFrames pb n)).foldl Panel.receive p).regs.modeG = p.regs.modeG ∧
    (∀ r c, c < 16 → (∃ e ∈ cells, r = e.1 ∧ e.2 ≤ c ∧ c < e.2 + n) →
      gramShows ((cells.flatMap (burstFrames pb n)).foldl Panel.receive p) pb r c) ∧
    ∀ r c, c < 16 → (¬ ∃ e ∈ cells, r = e.1 ∧ e.2 ≤ c ∧ c < e.2 + n) →
      gramRead ((cells.flatMap (burstFrames pb n)).foldl Panel.receive p).gram r c = gramRead p.gram r c := by
  induction cells generalizing p with
  | nil => simp [hl]
  | cons e cells ih =>
    obtain ⟨he1, he2⟩ := hc e (List.mem_cons_self ..)
    have hlen : ((List.range n).map fun k => memRead pb e.1 (e.2 + k)).length = n := by simp
    obtain ⟨b1, b2, b3, b4, b5⟩ := receive_burst (p := p) (row := e.1) (col := e.2)
      ((List.range n).map fun k => memRead pb e.1 (e.2 + k)) hl he1 (by rw [hlen]; exact he2)
      (by intro h; rw [h] at hlen; simp at hlen; omega) (by rw [hlen]; exact hm)
    rw [hlen] at b5
    rw [List.flatMap_cons, List.foldl_append]
    have hfold : (burstFrames pb n e).foldl Panel.receive p = (p.receive (addressFrame e.1 e.2)).receive
        (dataFrame ((List.range n).map fun k => memRead pb e.1 (e.2 + k))) := rfl
    rw [hfold]
    obtain ⟨i1, i2, i3, i4, i5⟩ := ih b1 (by rw [b4]; exact hm) fun f hf => hc f (List.mem_cons_of_mem _ hf)
    refine ⟨i1, i2.trans b2, i3.trans b3, ?_, ?_⟩
    · intro r c hcc hex
      by_cases h : ∃ f ∈ cells, r = f.1 ∧ f.2 ≤ c ∧ c < f.2 + n
      · exact i4 r c hcc h
      · obtain ⟨f, hf, hr, h1, h2⟩ := hex
        rcases List.mem_cons.mp hf with rfl | hf
        · rw [gramShows, i5 r c hcc h, b5 r c hcc, if_pos ⟨hr, h1, h2⟩, List.getElem?_map, List.getElem?_range (by omega)]
          simp only [Option.map_some]
          rw [hr, show f.2 + (c - f.2) = c by omega]
        · exact absurd ⟨f, hf, hr, h1, h2⟩ h
    · intro r c hcc hno
      have h1 : ¬ ∃ f ∈ cells, r = f.1 ∧ f.2 ≤ c ∧ c < f.2 + n := fun ⟨f, hf, h⟩ =>
        hno ⟨f, List.mem_cons_of_mem _ hf, h⟩
      rw [i5 r c hcc h1, b5 r c hcc, if_neg]
      exact fun h => hno ⟨e, List.mem_cons_self .., h⟩

/-! ## The glass (R286) -/

/-- A panel that is on in extended graphics mode shows at a pixel what its GRAM cell holds there. -/
theorem glass_of_gramShows {p : Panel} {pb : List Host.Cell} {x y : Nat} (hx : x < 128) (hy : y < 64)
    (hs : p.standing = .following) (hd : p.regs.modeD = true) (he : p.regs.modeE = true) (hg : p.regs.modeG = true)
    (h : gramShows p pb (wordRow y) (wordCol x y)) : p.glass x y = some (pixelOf pb x y) := by
  have hin : inCanvas x y = true := by simp [inCanvas, Config.canvasW, Config.canvasH]; omega
  unfold gramShows at h
  simp only [Panel.glass, hs, hd, he, hg, hin, Bool.and_true, if_true, h, Option.map_some, pixelOf]

/-! ## A panel that has been given up (log 7) -/

theorem glass_unspecified {p : Panel} (h : p.standing = .unspecified) (x y : Nat) : p.glass x y = none := by
  simp only [Panel.glass, h]

theorem foldl_receive_unspecified (frames : List (List Byte)) {p : Panel} (h : p.standing = .unspecified) :
    frames.foldl Panel.receive p = p := by
  induction frames with
  | nil => rfl
  | cons f frames ih => rw [List.foldl_cons, receive_unspecified p f h, ih]

/-- A byte with a meaning where it stands, whose effect is refused. -/
theorem take_refused {p : Panel} {port : Port} {b : Byte} {i : Instr} {why : Refusal} (hd : decode port [b] = .ok i)
    (he : wireEffect i p = .error why) : p.take port b = p.giveUp := by
  simp only [Panel.take, hd, he]

/-- An address frame that reaches a panel outside extended graphics mode ends every claim about it (U14). -/
theorem receive_address_deaf {p : Panel} (h : panelDeaf p = true) (row col : Nat) :
    (p.receive (addressFrame row col)).standing = .unspecified := by
  simp only [panelDeaf, Bool.and_eq_true, beq_iff_eq, Bool.not_eq_true', Bool.and_eq_false_iff] at h
  obtain ⟨⟨hs, hb⟩, hm⟩ := h
  have hin := inFrame_begin (p := p) false hs
  have hport : (p.begin false).payloadPort = .instruction .first := rfl
  have hlost : ((p.begin false).accept (0x80#8 ||| (BitVec.ofNat 8 row &&& 0x3F#8))).standing = .unspecified := by
    obtain ⟨why, he⟩ := whenGraphic_closed
      (if 32 ≤ (BitVec.ofNat 6 row).toNat then .error .noSuchGramRow
        else .ok { ({ p.begin false with regs.rx.payload := some (0x80#8 ||| (BitVec.ofNat 8 row &&& 0x3F#8)) } : Panel) with
          regs.ar := BitVec.ofNat 6 row, regs.rx.payload := none, regs.rx.slot := .column })
      (p := { p.begin false with regs.rx.payload := some (0x80#8 ||| (BitVec.ofNat 8 row &&& 0x3F#8)) }) hm
    rw [Panel.accept, hport, take_refused (decode_rowByte row) he]
    rfl
  rw [← frameBytes_address, frameBytes_cons, receive_cons, receiveByte_sync p false hs hb]
  show ((p.begin false).receive (nibbleBytes (0x80#8 ||| (BitVec.ofNat 8 row &&& 0x3F#8)) ++ _)).standing = _
  rw [receive_append, receive_nibbleBytes _ _ hin, receive_unspecified _ _ hlost, hlost]

end Sys2Proof.Machine
end

