-- ==== Sys2Proof/Laws/Decode.lean ====
section
/-! SUPPORT. What each field reader of the decoder does, said once in both directions: it reads back what the encoder wrote,
and whatever it reads is what the encoder would have written. -/

namespace Sys2Proof

/-! ## Reading what the encoder wrote -/

theorem readU8_cons (b : Byte) (rest : List Byte) (k : Byte → List Byte → Decoded) : readU8 (b :: rest) k = k b rest := rfl

theorem readBool_encBool (v : Bool) (rest : List Byte) (k : Bool → List Byte → Decoded) :
    readBool (encBool v ++ rest) k = k v rest := by
  cases v <;> rfl

theorem readWord_encWord (w : Word) (rest : List Byte) (k : Word → List Byte → Decoded) :
    readWord (encWord w ++ rest) k = k w rest := by
  show k (joinBytes (hi8 w) (lo8 w)) rest = _
  rw [Machine.joinBytes_hi8_lo8]

theorem readU16_encU16 {v : Nat} (h : fitsU16 v = true) (rest : List Byte) (k : Nat → List Byte → Decoded) :
    readU16 (encU16 v ++ rest) k = k v rest := by
  rw [readU16, encU16, readWord_encWord, BitVec.toNat_ofNat, Nat.mod_eq_of_lt (by simpa [fitsU16] using h)]

theorem readBytes_append (bs rest : List Byte) (k : List Byte → List Byte → Decoded) :
    readBytes bs.length (bs ++ rest) k = k bs rest := by
  induction bs generalizing k with
  | nil => rfl
  | cons b bs ih => exact ih fun cs r => k (b :: cs) r

theorem natOfBytes_lt (bs : List Byte) : natOfBytes bs < 256 ^ bs.length := by
  induction bs with
  | nil => simp [natOfBytes]
  | cons b bs ih =>
    have hb := b.isLt
    have : (b.toNat + 1) * 256 ^ bs.length ≤ 256 * 256 ^ bs.length := Nat.mul_le_mul_right _ (by omega)
    rw [natOfBytes, List.length_cons, Nat.pow_succ]
    rw [Nat.add_mul] at this
    omega

theorem bytesOfNat_length (n v : Nat) : (bytesOfNat n v).length = n := by
  induction n generalizing v with
  | zero => rfl
  | succ n ih => rw [bytesOfNat, List.length_cons, ih]

/-- The number the low `n` bytes of `v` stand for. -/
theorem natOfBytes_bytesOfNat (n v : Nat) : natOfBytes (bytesOfNat n v) = v % 256 ^ n := by
  induction n generalizing v with
  | zero => simp [bytesOfNat, natOfBytes, Nat.mod_one]
  | succ n ih =>
    rw [bytesOfNat, natOfBytes, bytesOfNat_length, ih, BitVec.toNat_ofNat, show (2 : Nat) ^ 8 = 256 from rfl,
      Nat.pow_succ, Nat.mod_mul (x := v), Nat.mul_comm, Nat.add_comm]

theorem bytesOfNat_mod (n k v : Nat) (h : n ≤ k) : bytesOfNat n (v % 256 ^ k) = bytesOfNat n v := by
  induction n with
  | zero => rfl
  | succ n ih =>
    rw [bytesOfNat, bytesOfNat, ih (by omega)]
    congr 1
    apply BitVec.eq_of_toNat_eq
    rw [BitVec.toNat_ofNat, BitVec.toNat_ofNat, show (2 : Nat) ^ 8 = 256 from rfl,
      show k = n + (k - n - 1) + 1 by omega, Nat.pow_succ, Nat.pow_add, Nat.mul_assoc, Nat.mod_mul_right_div_self,
      Nat.mul_comm (256 ^ (k - n - 1)) 256, Nat.mod_mul_right_mod]

/-- The bytes of the number some bytes stand for. -/
theorem bytesOfNat_natOfBytes (bs : List Byte) : bytesOfNat bs.length (natOfBytes bs) = bs := by
  induction bs with
  | nil => rfl
  | cons b bs ih =>
    have hlt := natOfBytes_lt bs
    have hpos : 0 < 256 ^ bs.length := by positivity
    rw [List.length_cons, bytesOfNat, natOfBytes]
    congr 1
    · rw [Nat.mul_comm, Nat.mul_add_div hpos, Nat.div_eq_of_lt hlt, Nat.add_zero]
      apply BitVec.eq_of_toNat_eq
      rw [BitVec.toNat_ofNat, Nat.mod_eq_of_lt b.isLt]
    · rw [← bytesOfNat_mod bs.length bs.length _ (Nat.le_refl _), Nat.mul_comm, Nat.mul_add_mod, Nat.mod_eq_of_lt hlt, ih]

theorem pow256 (n : Nat) : 2 ^ (8 * n) = 256 ^ n := Nat.pow_mul 2 8 n

theorem bytesOfSigned_length (n : Nat) (v : Int) : (bytesOfSigned n v).length = n := bytesOfNat_length _ _

/-- The number that the bytes of a number stand for, kept to their width. -/
theorem signedOfBytes_bytesOfSigned (n : Nat) (v : Int) : signedOfBytes (bytesOfSigned n v) = Int.bmod v (256 ^ n) := by
  have hmod : (BitVec.ofInt (8 * n) v).toNat % 256 ^ n = (BitVec.ofInt (8 * n) v).toNat :=
    Nat.mod_eq_of_lt (by rw [← pow256]; exact BitVec.isLt _)
  rw [signedOfBytes, bytesOfSigned_length, bytesOfSigned, natOfBytes_bytesOfNat, hmod, BitVec.ofNat_toNat,
    BitVec.setWidth_eq, BitVec.toInt_ofInt, pow256]

/-- The bytes of the number that some bytes stand for. -/
theorem bytesOfSigned_signedOfBytes (bs : List Byte) : bytesOfSigned bs.length (signedOfBytes bs) = bs := by
  rw [bytesOfSigned, signedOfBytes, BitVec.ofInt_toInt, BitVec.toNat_ofNat, pow256, Nat.mod_eq_of_lt (natOfBytes_lt bs),
    bytesOfNat_natOfBytes]

/-- A coordinate that fits its width is unchanged by the width of the bytes that hold it. -/
theorem bmod_of_fitsCoord {w : Nat} {v : Int} (h : fitsCoord w v = true) : Int.bmod v (256 ^ coordBytes w) = v := by
  rw [fitsCoord, decide_eq_true_eq] at h
  have hw : w ≤ 8 * coordBytes w := by unfold coordBytes; omega
  have hle : (2 : Int) ^ w ≤ 256 ^ coordBytes w := by
    rw [show (256 : Int) = 2 ^ 8 from rfl, ← pow_mul]
    exact pow_le_pow_right₀ (by norm_num) hw
  have hm : ((256 ^ coordBytes w : Nat) : Int) = 256 ^ coordBytes w := by push_cast; rfl
  exact Int.bmod_eq_of_le (by omega) (by omega)

theorem encCoord_length (w : Nat) (v : Int) : (encCoord w v).length = coordBytes w := bytesOfSigned_length _ _

theorem readCoord_encCoord {w : Nat} {v : Int} (h : fitsCoord w v = true) (rest : List Byte)
    (k : Int → List Byte → Decoded) : readCoord w (encCoord w v ++ rest) k = k v rest := by
  have hb : signedOfBytes (encCoord w v) = v := (signedOfBytes_bytesOfSigned _ v).trans (bmod_of_fitsCoord h)
  have := readBytes_append (encCoord w v) rest fun bs rest =>
    if fitsCoord w (signedOfBytes bs) then k (signedOfBytes bs) rest else .error .coordinateTooWide
  rw [encCoord_length] at this
  rw [readCoord, this, hb, if_pos h]

theorem readU32_encU32 {v : Nat} (h : fitsU32 v = true) (rest : List Byte) (k : Nat → List Byte → Decoded) :
    readU32 (encU32 v ++ rest) k = k v rest := by
  rw [fitsU32, decide_eq_true_eq] at h
  have hl : encU16 v = encU16 (v % 65536) := by
    rw [encU16, encU16]; congr 1; apply BitVec.eq_of_toNat_eq; simp
  rw [readU32, encU32, List.append_assoc, readU16_encU16 (by simp [fitsU16]; omega), hl,
    readU16_encU16 (by simp [fitsU16]; omega)]
  congr 1
  omega

theorem readCps_encCps {cs : List Nat} (h : cs.all fitsU32 = true) (rest : List Byte)
    (k : List Nat → List Byte → Decoded) : readCps cs.length (encCps cs ++ rest) k = k cs rest := by
  induction cs generalizing k with
  | nil => rfl
  | cons c cs ih =>
    simp only [List.all_cons, Bool.and_eq_true] at h
    rw [List.length_cons, readCps, encCps, List.append_assoc, readU32_encU32 h.1]
    exact ih h.2 fun ds r => k (c :: ds) r

/-! ## Whatever is read is what the encoder writes -/

theorem readU8_ok {l : List Byte} {k : Byte → List Byte → Decoded} {i : Instr} (h : readU8 l k = .ok i) :
    ∃ b rest, l = b :: rest ∧ k b rest = .ok i := by
  cases l with
  | nil => cases h
  | cons b rest => exact ⟨b, rest, rfl, h⟩

theorem readBool_ok {l : List Byte} {k : Bool → List Byte → Decoded} {i : Instr} (h : readBool l k = .ok i) :
    ∃ v rest, l = encBool v ++ rest ∧ k v rest = .ok i := by
  obtain ⟨b, rest, rfl, h1⟩ := readU8_ok h
  split at h1
  · rename_i hb; exact ⟨false, rest, by rw [hb]; rfl, h1⟩
  · split at h1
    · rename_i hb; exact ⟨true, rest, by rw [hb]; rfl, h1⟩
    · cases h1

theorem readWord_ok {l : List Byte} {k : Word → List Byte → Decoded} {i : Instr} (h : readWord l k = .ok i) :
    ∃ w rest, l = encWord w ++ rest ∧ k w rest = .ok i := by
  obtain ⟨hi, r1, rfl, h1⟩ := readU8_ok h
  obtain ⟨lo, r2, rfl, h2⟩ := readU8_ok h1
  exact ⟨joinBytes hi lo, r2, by rw [encWord, Machine.hi8_joinBytes, Machine.lo8_joinBytes]; rfl, h2⟩

theorem readU16_ok {l : List Byte} {k : Nat → List Byte → Decoded} {i : Instr} (h : readU16 l k = .ok i) :
    ∃ v rest, fitsU16 v = true ∧ l = encU16 v ++ rest ∧ k v rest = .ok i := by
  obtain ⟨w, rest, rfl, h1⟩ := readWord_ok h
  refine ⟨w.toNat, rest, by simpa [fitsU16] using w.isLt, ?_, h1⟩
  rw [encU16, BitVec.ofNat_toNat, BitVec.setWidth_eq]

theorem readBytes_ok {n : Nat} {l : List Byte} {k : List Byte → List Byte → Decoded} {i : Instr}
    (h : readBytes n l k = .ok i) : ∃ bs rest, bs.length = n ∧ l = bs ++ rest ∧ k bs rest = .ok i := by
  induction n generalizing l k with
  | zero => exact ⟨[], l, rfl, rfl, h⟩
  | succ n ih =>
    obtain ⟨b, r1, rfl, h1⟩ := readU8_ok h
    obtain ⟨bs, r2, rfl, rfl, h2⟩ := ih h1
    exact ⟨b :: bs, r2, rfl, rfl, h2⟩

theorem readCoord_ok {w : Nat} {l : List Byte} {k : Int → List Byte → Decoded} {i : Instr}
    (h : readCoord w l k = .ok i) :
    ∃ v rest, fitsCoord w v = true ∧ l = encCoord w v ++ rest ∧ k v rest = .ok i := by
  obtain ⟨bs, rest, hlen, rfl, h1⟩ := readBytes_ok h
  split at h1
  · rename_i hf
    exact ⟨_, rest, hf, by rw [encCoord, ← hlen, bytesOfSigned_signedOfBytes], h1⟩
  · cases h1

theorem readU32_ok {l : List Byte} {k : Nat → List Byte → Decoded} {i : Instr} (h : readU32 l k = .ok i) :
    ∃ v rest, fitsU32 v = true ∧ l = encU32 v ++ rest ∧ k v rest = .ok i := by
  obtain ⟨a, r1, ha, rfl, h1⟩ := readU16_ok h
  obtain ⟨b, r2, hb, rfl, h2⟩ := readU16_ok h1
  rw [fitsU16, decide_eq_true_eq] at ha hb
  refine ⟨a * 65536 + b, r2, by rw [fitsU32, decide_eq_true_eq]; omega, ?_, h2⟩
  have hdiv : (a * 65536 + b) / 65536 = a := by omega
  have hmod : encU16 (a * 65536 + b) = encU16 b := by
    rw [encU16, encU16]; congr 1; apply BitVec.eq_of_toNat_eq; simp
  rw [encU32, hdiv, hmod, List.append_assoc]

theorem readCps_ok {n : Nat} {l : List Byte} {k : List Nat → List Byte → Decoded} {i : Instr}
    (h : readCps n l k = .ok i) :
    ∃ cs rest, cs.length = n ∧ cs.all fitsU32 = true ∧ l = encCps cs ++ rest ∧ k cs rest = .ok i := by
  induction n generalizing l k with
  | zero => exact ⟨[], l, rfl, rfl, rfl, h⟩
  | succ n ih =>
    obtain ⟨c, r1, hc, rfl, h1⟩ := readU32_ok h
    obtain ⟨cs, r2, rfl, hcs, rfl, h2⟩ := ih h1
    exact ⟨c :: cs, r2, rfl, by simp [hc, hcs], by rw [encCps, List.append_assoc], h2⟩

theorem finishAt_ok {i j : Instr} {l : List Byte} (h : finishAt j l = .ok i) : l = [] ∧ j = i := by
  cases l with
  | nil => cases h; exact ⟨rfl, rfl⟩
  | cons b l => cases h

/-! ## What the host port reads after each operation code -/

theorem decode_host_construct {w : Nat} (l : List Byte) : decode .host (0x01 :: l) w =
    (readU8 l fun busId l => readU8 l fun deviceId l => finishAt (.construct busId deviceId) l) := rfl

theorem decode_host_destruct {w : Nat} (l : List Byte) : decode .host (0x02 :: l) w =
    (finishAt .destruct l) := rfl

theorem decode_host_setFunctionSet {w : Nat} (l : List Byte) : decode .host (0x10 :: l) w =
    (readBool l fun ext l => readBool l fun gfx l => finishAt (.setFunctionSet ext gfx) l) := rfl

theorem decode_host_setDisplayControl {w : Nat} (l : List Byte) : decode .host (0x11 :: l) w =
    (readBool l fun d l => readBool l fun c l => readBool l fun b l => finishAt (.setDisplayControl d c b) l) := rfl

theorem decode_host_setShiftControl {w : Nat} (l : List Byte) : decode .host (0x12 :: l) w =
    (readBool l fun s l => readBool l fun right l => finishAt (.setShiftControl s right) l) := rfl

theorem decode_host_setEntryMode {w : Nat} (l : List Byte) : decode .host (0x13 :: l) w =
    (readBool l fun inc l => readBool l fun sh l => finishAt (.setEntryMode inc sh) l) := rfl

theorem decode_host_setFontHeight {w : Nat} (l : List Byte) : decode .host (0x14 :: l) w =
    (readU16 l fun px l => finishAt (.setFontHeight px) l) := rfl

theorem decode_host_setPixel {w : Nat} (l : List Byte) : decode .host (0x20 :: l) w =
    (readCoord w l fun x l => readCoord w l fun y l => readBool l fun on l => finishAt (.setPixel x y on) l) := rfl

theorem decode_host_setRegion {w : Nat} (l : List Byte) : decode .host (0x21 :: l) w =
    (readCoord w l fun x1 l => readCoord w l fun y1 l => readCoord w l fun x2 l => readCoord w l fun y2 l =>
      readBool l fun on l => finishAt (.setRegion x1 y1 x2 y2 on) l) := rfl

theorem decode_host_putString {w : Nat} (l : List Byte) : decode .host (0x22 :: l) w =
    (readCoord w l fun x l => readCoord w l fun y l => readU16 l fun n l =>
      readCps n l fun text l => finishAt (.putString x y text) l) := rfl

theorem decode_host_putBitmap {w : Nat} (l : List Byte) : decode .host (0x23 :: l) w =
    (readCoord w l fun x l => readCoord w l fun y l => readCoord w l fun width l => readU16 l fun n l =>
      readBytes n l fun data l => finishAt (.putBitmap x y width data) l) := rfl

theorem decode_host_drawAll {w : Nat} (l : List Byte) : decode .host (0x30 :: l) w =
    (finishAt .drawAll l) := rfl

theorem decode_host_drawRow {w : Nat} (l : List Byte) : decode .host (0x31 :: l) w =
    (readCoord w l fun r l => finishAt (.drawRow r) l) := rfl

theorem decode_host_drawSectionsForBB {w : Nat} (l : List Byte) : decode .host (0x32 :: l) w =
    (readCoord w l fun x1 l => readCoord w l fun y1 l => readCoord w l fun x2 l => readCoord w l fun y2 l =>
      finishAt (.drawSectionsForBB x1 y1 x2 y2) l) := rfl

theorem decode_host_send {w : Nat} (l : List Byte) : decode .host (0x80 :: l) w =
    (readBool l fun rs l => readBool l fun rw l => readU16 l fun n l =>
      readBytes n l fun data l => finishAt (.send rs rw data) l) := rfl

theorem decode_host_gramAddrSet {w : Nat} (l : List Byte) : decode .host (0x81 :: l) w =
    (readU8 l fun row l => readU8 l fun col l => finishAt (.gramAddrSet row.toNat col.toNat) l) := rfl

theorem decode_host_putChar {w : Nat} (l : List Byte) : decode .host (0x82 :: l) w =
    (readCoord w l fun x l => readCoord w l fun y l => readU32 l fun cp l => finishAt (.putChar x y cp) l) := rfl

end Sys2Proof
end

