-- ==== Sys2Proof/Laws/Pixel.lean ====
section
/-! SUPPORT. What the drawing bodies do to the pixels of `PB`, said once: one pixel, any list of pixels, a region, a glyph, a
text, a bitmap; and that each keeps the canonical form. -/

namespace Sys2Proof.Machine

/-! ## One pixel -/

theorem inCanvas_iff (x y : Int) : inCanvas x y = true ↔ 0 ≤ x ∧ x < 128 ∧ 0 ≤ y ∧ y < 64 := by
  simp [inCanvas, Config.canvasW, Config.canvasH]

theorem wordRow_lt (y : Nat) : wordRow y < 32 := Nat.mod_lt _ (by decide)

theorem wordCol_lt {x y : Nat} (hx : x < 128) : wordCol x y < 16 := by
  simp only [wordCol, bankOf, Config.wordW, Config.halfH, Config.bankCols]; split <;> omega

/-- A word-cell and a bit place of it determine the pixel (R52: the mapping is injective on the canvas). -/
theorem wordPlace_injective {x y x' y' : Nat} (hx : x < 128) (hy : y < 64) (hx' : x' < 128) (hy' : y' < 64)
    (hr : wordRow y = wordRow y') (hc : wordCol x y = wordCol x' y') (hb : x % 16 = x' % 16) : x = x' ∧ y = y' := by
  simp only [wordRow, wordCol, bankOf, Config.wordW, Config.halfH, Config.bankCols] at hr hc
  split at hc <;> split at hc <;> omega

theorem getLsbD_pixelMask (x i : Nat) (hi : i < 16) : (pixelMask x).getLsbD i = decide (i = 15 - x % 16) := by
  have h : ∀ k i : Fin 16, (1#16 <<< (15 - k.val)).getLsbD i.val = decide (i.val = 15 - k.val) := by decide
  exact h ⟨x % 16, Nat.mod_lt _ (by decide)⟩ ⟨i, hi⟩

/-- `SET_PIXEL`'s body at every pixel of the canvas: the named pixel becomes `on`, every other is unchanged. -/
theorem pixelOf_drawPixel (x y : Int) (on : Bool) (pb : List Host.Cell) {px py : Nat} (hpx : px < 128) (hpy : py < 64) :
    pixelOf (drawPixel x y on pb) px py = if x = px ∧ y = py then on else pixelOf pb px py := by
  unfold drawPixel
  by_cases hin : inCanvas x y = true
  · obtain ⟨h0, h1, h2, h3⟩ := (inCanvas_iff x y).mp hin
    obtain ⟨a, rfl⟩ := Int.eq_ofNat_of_zero_le h0
    obtain ⟨b, rfl⟩ := Int.eq_ofNat_of_zero_le h2
    have ha : a < 128 := by omega
    have hb : b < 64 := by omega
    simp only [hin, if_true, Int.toNat_natCast, Nat.cast_inj, pixelOf]
    rw [memRead_memWrite _ _ _ _ _ _ (wordCol_lt ha) (wordCol_lt hpx)]
    have hi : 15 - px % 16 < 16 := by omega
    by_cases hw : wordRow py = wordRow b ∧ wordCol px py = wordCol a b
    · obtain ⟨hwr, hwc⟩ := hw
      simp only [hwr, hwc, and_self, if_true]
      by_cases hbit : px % 16 = a % 16
      · obtain ⟨rfl, rfl⟩ := wordPlace_injective hpx hpy ha hb hwr hwc hbit
        have hm : (pixelMask px).getLsbD (15 - px % 16) = true := by
          rw [getLsbD_pixelMask px _ hi]; simp
        cases on
        · simp only [Bool.false_eq_true, if_false, BitVec.getLsbD_and, BitVec.getLsbD_not, hm, Bool.not_true, Bool.and_false]
          simp
        · simp only [if_true, BitVec.getLsbD_or, hm, Bool.or_true]
          simp
      · have hne : ¬(a = px ∧ b = py) := fun h => hbit (by rw [h.1])
        rw [if_neg hne]
        have hm : (pixelMask a).getLsbD (15 - px % 16) = false := by
          rw [getLsbD_pixelMask a _ hi]; simp; omega
        cases on
        · simp only [Bool.false_eq_true, if_false, BitVec.getLsbD_and, BitVec.getLsbD_not, hm, hi, decide_true,
            Bool.not_false, Bool.and_true]
        · simp only [if_true, BitVec.getLsbD_or, hm, Bool.or_false]
    · rw [if_neg hw, if_neg]
      rintro ⟨rfl, rfl⟩
      exact hw ⟨rfl, rfl⟩
  · rw [if_neg hin, if_neg]
    rintro ⟨rfl, rfl⟩
    exact hin ((inCanvas_iff _ _).mpr (by omega))

theorem pbWf_drawPixel {pb : List Host.Cell} (x y : Int) (on : Bool) (h : pbWf pb = true) :
    pbWf (drawPixel x y on pb) = true := by
  unfold drawPixel
  split
  · rename_i hin
    obtain ⟨h0, h1, h2, h3⟩ := (inCanvas_iff x y).mp hin
    exact pbWf_memWrite _ (wordRow_lt _) (wordCol_lt (by omega)) h
  · exact h

/-- `SET_PIXEL`'s body leaves every byte outside the one word it writes. -/
theorem pbByte_drawPixel_of_ne (x y : Int) (on : Bool) (pb : List Host.Cell) (a : Nat)
    (h : inCanvas x y = true → a ≠ cellAddr (wordRow y.toNat) (wordCol x.toNat y.toNat) ∧
      a ≠ cellAddr (wordRow y.toNat) (wordCol x.toNat y.toNat) + 1) :
    pbByte (drawPixel x y on pb) a = pbByte pb a := by
  unfold drawPixel
  split
  · rename_i hin
    obtain ⟨h1, h2⟩ := h hin
    rw [pbByte_memWrite, if_neg h2, if_neg h1]
  · rfl

/-- No drawing reaches a byte outside the grid. -/
theorem pbByte_drawPixel_outside (x y : Int) (on : Bool) (pb : List Host.Cell) {a : Nat} (ha : 1024 ≤ a) :
    pbByte (drawPixel x y on pb) a = pbByte pb a := by
  refine pbByte_drawPixel_of_ne x y on pb a fun hin => ?_
  obtain ⟨h0, h1, h2, h3⟩ := (inCanvas_iff x y).mp hin
  have := cellAddr_lt (wordRow_lt y.toNat) (wordCol_lt (x := x.toNat) (y := y.toNat) (by omega))
  simp only [memoryBytes] at this
  omega

/-! ## Any list of pixels -/

/-- Draw every point of a list. -/
theorem pixelOf_drawAllOf {α : Type} (pts : List α) (fx fy : α → Int) (on : Bool) (pb : List Host.Cell) {px py : Nat}
    (hpx : px < 128) (hpy : py < 64) :
    pixelOf (pts.foldl (fun m p => drawPixel (fx p) (fy p) on m) pb) px py =
      if ∃ p ∈ pts, fx p = px ∧ fy p = py then on else pixelOf pb px py := by
  induction pts generalizing pb with
  | nil => simp
  | cons p pts ih =>
    rw [List.foldl_cons, ih, pixelOf_drawPixel _ _ _ _ hpx hpy]
    by_cases h1 : ∃ q ∈ pts, fx q = px ∧ fy q = py
    · rw [if_pos h1, if_pos (by obtain ⟨q, hq, h⟩ := h1; exact ⟨q, List.mem_cons_of_mem _ hq, h⟩)]
    · rw [if_neg h1]
      by_cases h2 : fx p = px ∧ fy p = py
      · rw [if_pos h2, if_pos ⟨p, List.mem_cons_self .., h2⟩]
      · rw [if_neg h2, if_neg]
        rintro ⟨q, hq, h⟩
        rcases List.mem_cons.mp hq with rfl | hq
        · exact h2 h
        · exact h1 ⟨q, hq, h⟩

theorem drawAllOf_induct {α : Type} (P : List Host.Cell → Prop) (pts : List α) (fx fy : α → Int) (on : Bool)
    (step : ∀ m x y, P m → P (drawPixel x y on m)) (pb : List Host.Cell) (h : P pb) :
    P (pts.foldl (fun m p => drawPixel (fx p) (fy p) on m) pb) := by
  induction pts generalizing pb with
  | nil => exact h
  | cons p pts ih => exact ih _ (step _ _ _ h)

/-! ## A region (R122) -/

theorem mem_canvasSpan {lo hi : Int} {limit v : Nat} : v ∈ canvasSpan lo hi limit ↔ v < limit ∧ lo ≤ v ∧ (v : Int) ≤ hi := by
  simp [canvasSpan]

theorem mem_regionPixels {x1 y1 x2 y2 : Int} {px py : Nat} :
    (px, py) ∈ regionPixels x1 y1 x2 y2 ↔
      px < 128 ∧ py < 64 ∧ x1 ≤ px ∧ (px : Int) ≤ x2 ∧ y1 ≤ py ∧ (py : Int) ≤ y2 := by
  simp only [regionPixels, List.mem_flatMap, List.mem_map, mem_canvasSpan, Prod.mk.injEq, Config.canvasW, Config.canvasH]
  constructor
  · rintro ⟨y, ⟨hy, hy1, hy2⟩, x, ⟨hx, hx1, hx2⟩, rfl, rfl⟩
    exact ⟨hx, hy, hx1, hx2, hy1, hy2⟩
  · rintro ⟨hx, hy, hx1, hx2, hy1, hy2⟩
    exact ⟨py, ⟨hy, hy1, hy2⟩, px, ⟨hx, hx1, hx2⟩, rfl, rfl⟩

/-- `SET_REGION`'s body: exactly the pixels of the rectangle become `on`. -/
theorem pixelOf_drawRegion (x1 y1 x2 y2 : Int) (on : Bool) (pb : List Host.Cell) {px py : Nat}
    (hpx : px < 128) (hpy : py < 64) :
    pixelOf (drawRegion x1 y1 x2 y2 on pb) px py =
      if x1 ≤ px ∧ (px : Int) ≤ x2 ∧ y1 ≤ py ∧ (py : Int) ≤ y2 then on else pixelOf pb px py := by
  unfold drawRegion
  rw [pixelOf_drawAllOf (regionPixels x1 y1 x2 y2) (fun p => (p.1 : Int)) (fun p => (p.2 : Int)) on pb hpx hpy]
  congr 1
  apply propext
  constructor
  · rintro ⟨⟨a, b⟩, hp, ha, hb⟩
    obtain ⟨-, -, h⟩ := mem_regionPixels.mp hp
    simp only at ha hb
    rw [← ha, ← hb]
    exact h
  · intro h
    exact ⟨(px, py), mem_regionPixels.mpr ⟨hpx, hpy, h⟩, rfl, rfl⟩

theorem drawRegion_induct (P : List Host.Cell → Prop) (x1 y1 x2 y2 : Int) (on : Bool)
    (step : ∀ m x y, P m → P (drawPixel x y on m)) (pb : List Host.Cell) (h : P pb) :
    P (drawRegion x1 y1 x2 y2 on pb) :=
  drawAllOf_induct P (regionPixels x1 y1 x2 y2) (fun p => (p.1 : Int)) (fun p => (p.2 : Int)) on step pb h

theorem pbWf_drawRegion {pb : List Host.Cell} (x1 y1 x2 y2 : Int) (on : Bool) (h : pbWf pb = true) :
    pbWf (drawRegion x1 y1 x2 y2 on pb) = true :=
  drawRegion_induct (fun m => pbWf m = true) _ _ _ _ _ (fun _ _ _ h => pbWf_drawPixel _ _ _ h) pb h

/-! ## A glyph (R192) -/

theorem mem_glyphDots {g : Glyph} {xa r : Nat} :
    (xa, r) ∈ glyphDots g ↔ r < g.rows ∧ xa < g.width ∧ glyphBit g r xa = true := by
  simp only [glyphDots, List.mem_flatMap, List.mem_map, List.mem_range, List.mem_filter, Prod.mk.injEq]
  constructor
  · rintro ⟨r', hr, xa', ⟨hx, hb⟩, rfl, rfl⟩
    exact ⟨hr, hx, hb⟩
  · rintro ⟨hr, hx, hb⟩
    exact ⟨r, hr, xa, ⟨hx, hb⟩, rfl, rfl⟩

/-- Painting a glyph turns on exactly the pixels its set bits land on. -/
theorem pixelOf_paintGlyph (g : Glyph) (asc x y : Int) (pb : List Host.Cell) {px py : Nat} (hpx : px < 128) (hpy : py < 64) :
    pixelOf (paintGlyph g asc x y pb) px py = true ↔
      pixelOf pb px py = true ∨ ∃ r xa : Nat, r < g.rows ∧ xa < g.width ∧ glyphBit g r xa = true ∧
        (px : Int) = x + xa + g.left ∧ (py : Int) = floorPx asc + y - g.top + r := by
  unfold paintGlyph
  simp only []
  rw [pixelOf_drawAllOf (glyphDots g) (fun d => x + d.1 + g.left) (fun d => floorPx asc + y - g.top + d.2) true pb hpx hpy]
  by_cases h : ∃ p ∈ glyphDots g, x + (p.1 : Int) + g.left = px ∧ floorPx asc + y - g.top + (p.2 : Int) = py
  · rw [if_pos h]
    obtain ⟨⟨xa, r⟩, hp, hx, hy⟩ := h
    obtain ⟨hr, hxa, hb⟩ := mem_glyphDots.mp hp
    exact ⟨fun _ => .inr ⟨r, xa, hr, hxa, hb, hx.symm, hy.symm⟩, fun _ => rfl⟩
  · rw [if_neg h]
    refine ⟨.inl, ?_⟩
    rintro (h' | ⟨r, xa, hr, hxa, hb, hx, hy⟩)
    · exact h'
    · exact absurd ⟨(xa, r), mem_glyphDots.mpr ⟨hr, hxa, hb⟩, hx.symm, hy.symm⟩ h

theorem paintGlyph_induct (P : List Host.Cell → Prop) (step : ∀ m x y, P m → P (drawPixel x y true m)) (g : Glyph)
    (asc x y : Int) (pb : List Host.Cell) (h : P pb) : P (paintGlyph g asc x y pb) :=
  drawAllOf_induct P (glyphDots g) (fun d => x + d.1 + g.left) (fun d => floorPx asc + y - g.top + d.2) true step pb h

theorem paintChar_induct (P : List Host.Cell → Prop) (step : ∀ m x y, P m → P (drawPixel x y true m))
    (size : Option FontSize) (pen y : Int) (cp : Nat) (pb : List Host.Cell) (h : P pb) :
    P (paintChar size pen y cp pb).pb := by
  unfold paintChar
  split
  · exact h
  · split
    · exact h
    · exact paintGlyph_induct P step _ _ _ _ _ h

/-- Whatever holds of `PB` and survives setting a pixel, survives painting a text, faulted or not (R198: every pixel goes
through `SET_PIXEL`). -/
theorem paintText_induct (P : List Host.Cell → Prop) (step : ∀ m x y, P m → P (drawPixel x y true m))
    (size : Option FontSize) (y : Int) (text : List Nat) (pen : Int) (pb : List Host.Cell) (h : P pb) :
    P (paintText size y text pen pb).pb := by
  induction text generalizing pen pb with
  | nil => exact h
  | cons cp rest ih =>
    unfold paintText
    have hc := paintChar_induct P step size pen y cp pb h
    split
    · exact hc
    · split
      · exact hc
      · exact ih _ _ hc

/-! ## A bitmap (R220, R221) -/

theorem blitBits_induct (P : List Host.Cell → Prop) (step : ∀ m x y, P m → P (drawPixel x y true m)) (x y : Int)
    (width : Nat) (bits : List Bool) (cx cy : Nat) (pb : List Host.Cell) (h : P pb) :
    P (blitBits x y width bits cx cy pb).pb := by
  induction bits generalizing cx cy pb with
  | nil => exact h
  | cons b rest ih =>
    unfold blitBits
    apply ih
    split
    · exact step _ _ _ h
    · exact h

/-- The cursor after a bit, as the closed form of R221 has it. -/
theorem cursor_step {width : Nat} (hw : 1 ≤ width) (n : Nat) :
    (if n % width + 1 = width then 0 else n % width + 1) = (n + 1) % width ∧
      (if n % width + 1 = width then n / width + 1 else n / width) = (n + 1) / width := by
  have hlt : n % width < width := Nat.mod_lt _ hw
  have hdm := Nat.div_add_mod n width
  by_cases h : n % width + 1 = width
  · have hn : n + 1 = width * (n / width + 1) := by rw [Nat.mul_add]; omega
    rw [if_pos h, if_pos h, hn]
    exact ⟨(Nat.mul_mod_right _ _).symm, (Nat.mul_div_cancel_left _ hw).symm⟩
  · have hn : n + 1 = (n % width + 1) + width * (n / width) := by omega
    have hs : n % width + 1 < width := by omega
    rw [if_neg h, if_neg h]
    constructor
    · conv_rhs => rw [hn, Nat.add_mul_mod_self_left, Nat.mod_eq_of_lt hs]
    · conv_rhs => rw [hn, Nat.add_mul_div_left _ _ hw, Nat.div_eq_of_lt hs, Nat.zero_add]

/-- The blit loop from bit `n` on: bit `n + k` of the stream lands where R221's closed form says. -/
theorem pixelOf_blitBits (x y : Int) {width : Nat} (hw : 1 ≤ width) (bits : List Bool) (n : Nat) (pb : List Host.Cell)
    {px py : Nat} (hpx : px < 128) (hpy : py < 64) :
    pixelOf (blitBits x y width bits (n % width) (n / width) pb).pb px py = true ↔
      pixelOf pb px py = true ∨ ∃ k : Nat, bits[k]? = some true ∧
        (px : Int) = x + ((n + k) % width : Nat) ∧ (py : Int) = y + ((n + k) / width : Nat) := by
  induction bits generalizing n pb with
  | nil => simp [blitBits]
  | cons b rest ih =>
    unfold blitBits
    rw [(cursor_step hw n).1, (cursor_step hw n).2, ih (n + 1)]
    have hpix : pixelOf (if b then drawPixel (x + (n % width : Nat)) (y + (n / width : Nat)) true pb else pb) px py = true ↔
        pixelOf pb px py = true ∨
          (b = true ∧ (px : Int) = x + (n % width : Nat) ∧ (py : Int) = y + (n / width : Nat)) := by
      cases b
      · simp
      · simp only [if_true]
        rw [pixelOf_drawPixel _ _ _ _ hpx hpy]
        split
        · rename_i h; simp [h.1.symm, h.2.symm]
        · rename_i h
          refine ⟨.inl, ?_⟩
          rintro (h' | ⟨-, h1, h2⟩)
          · exact h'
          · exact absurd ⟨h1.symm, h2.symm⟩ h
    rw [hpix, or_assoc]
    refine or_congr_right ?_
    constructor
    · rintro (⟨hb, h1, h2⟩ | ⟨k, hk, h1, h2⟩)
      · exact ⟨0, by simp [hb], by simpa using h1, by simpa using h2⟩
      · exact ⟨k + 1, by simpa using hk, by rw [← Nat.add_assoc, Nat.add_right_comm]; exact h1,
          by rw [← Nat.add_assoc, Nat.add_right_comm]; exact h2⟩
    · rintro ⟨k, hk, h1, h2⟩
      cases k with
      | zero => exact .inl ⟨by simpa using hk, by simpa using h1, by simpa using h2⟩
      | succ k =>
        refine .inr ⟨k, by simpa using hk, ?_, ?_⟩
        · rw [Nat.add_right_comm, Nat.add_assoc]; exact h1
        · rw [Nat.add_right_comm, Nat.add_assoc]; exact h2

theorem length_bitStream (data : List Byte) : (bitStream data).length = 8 * data.length := by
  induction data with
  | nil => rfl
  | cons b data ih => simp only [bitStream, List.flatMap_cons, List.length_append] at ih ⊢; rw [ih]; simp [bitsMsbFirst]; omega

/-- Bit `n` of the stream is bit `7 - n mod 8` of byte `n div 8` (R221). -/
theorem getElem?_bitStream (data : List Byte) (n : Nat) :
    (bitStream data)[n]? = data[n / 8]?.map fun b => b.getLsbD (7 - n % 8) := by
  induction data generalizing n with
  | nil => simp [bitStream]
  | cons b data ih =>
    have hcons : bitStream (b :: data) = bitsMsbFirst b ++ bitStream data := rfl
    have hlen : (bitsMsbFirst b).length = 8 := rfl
    rw [hcons]
    by_cases h : n < 8
    · rw [List.getElem?_append_left (by omega), Nat.div_eq_of_lt h, Nat.mod_eq_of_lt h]
      have : ∀ i : Fin 8, (bitsMsbFirst b)[i.val]? = some (b.getLsbD (7 - i.val)) := by
        intro i; fin_cases i <;> rfl
      simpa using this ⟨n, h⟩
    · rw [List.getElem?_append_right (by omega), hlen, ih (n - 8)]
      have h1 : n / 8 = (n - 8) / 8 + 1 := by omega
      have h2 : (n - 8) % 8 = n % 8 := by omega
      rw [h1, h2, List.getElem?_cons_succ]

end Sys2Proof.Machine
end

