-- ==== Sys2Proof/Laws/Draws.lean ====
section
/-! SUPPORT. The drawing bodies in the terms of `Draws`: which pixels each turns on or off, and that every byte of `PB` outside
theirs keeps its value. -/

namespace Sys2Proof.Machine

/-! ## Bytes and their pixels -/

theorem inCanvas_nat {x y : Nat} (hx : x < 128) (hy : y < 64) : inCanvas x y = true := by
  rw [inCanvas_iff]; omega

/-- Every byte of the grid holds eight pixels of the canvas: the place of bit `b` of byte `a`. -/
theorem exists_pixel_of_byte {a b : Nat} (ha : a < 1024) (hb : b < 8) :
    ∃ x y, x < 128 ∧ y < 64 ∧ pixelByte x y = a ∧ x % 8 = 7 - b := by
  refine ⟨16 * (a / 2 % 8) + 8 * (a % 2) + (7 - b), a / 32 + (if 16 ≤ a % 32 then 32 else 0), by omega, by split <;> omega, ?_, by omega⟩
  simp only [pixelByte, cellAddr, wordRow, wordCol, bankOf, Config.pbCols, Config.halfH, Config.wordW, Config.bankCols]
  split <;> split <;> omega

/-- A pixel is a bit of its byte. -/
theorem pixelOf_eq_byte (pb : List Host.Cell) (x y : Nat) :
    pixelOf pb x y = (pbByte pb (pixelByte x y)).getLsbD (7 - x % 8) := by
  unfold pixelOf memRead pixelByte joinBytes
  show ((pbByte pb (cellAddr (wordRow y) (wordCol x y)) ++ pbByte pb (cellAddr (wordRow y) (wordCol x y) + 1) :
    BitVec (8 + 8))).getLsbD (15 - x % 16) = _
  rw [BitVec.getLsbD_append]
  by_cases h : x % 16 < 8
  · rw [if_neg (by omega), Nat.div_eq_of_lt h, Nat.add_zero]
    congr 1; omega
  · rw [if_pos (by omega), show x % 16 / 8 = 1 by omega]
    congr 1; omega

/-- Bytes of the grid whose pixels all agree are equal. -/
theorem pbByte_eq_of_pixels {m n : List Host.Cell} {a : Nat} (ha : a < 1024)
    (h : ∀ x y, x < 128 → y < 64 → pixelByte x y = a → pixelOf m x y = pixelOf n x y) : pbByte m a = pbByte n a := by
  apply BitVec.eq_of_getLsbD_eq
  intro i hi
  obtain ⟨x, y, hx, hy, hxy, hb⟩ := exists_pixel_of_byte ha hi
  have := h x y hx hy hxy
  rw [pixelOf_eq_byte, pixelOf_eq_byte, hxy, hb] at this
  rwa [show 7 - (7 - i) = i by omega] at this

/-- A change of pixels that reaches no byte outside the grid is a drawing. -/
theorem draws_of_pixels {paints : Nat → Nat → Prop} {on : Bool} {m n : List Host.Cell}
    (h1 : ∀ x y, x < 128 → y < 64 → paints x y → pixelOf n x y = on)
    (h2 : ∀ x y, x < 128 → y < 64 → ¬ paints x y → pixelOf n x y = pixelOf m x y)
    (h3 : ∀ a, 1024 ≤ a → pbByte n a = pbByte m a) : Draws paints on m n := by
  refine ⟨h1, h2, fun a ha => ?_⟩
  by_cases hlt : a < 1024
  · exact pbByte_eq_of_pixels hlt fun x y hx hy hxy => h2 x y hx hy fun hp => ha x y hx hy hp hxy.symm
  · exact h3 a (by omega)

/-- The same, from an equivalence for drawings that only turn pixels on. -/
theorem draws_on_of_iff {paints : Nat → Nat → Prop} {m n : List Host.Cell}
    (h : ∀ x y, x < 128 → y < 64 → (pixelOf n x y = true ↔ pixelOf m x y = true ∨ paints x y))
    (h3 : ∀ a, 1024 ≤ a → pbByte n a = pbByte m a) : Draws paints true m n := by
  refine draws_of_pixels (fun x y hx hy hp => (h x y hx hy).mpr (.inr hp)) (fun x y hx hy hp => ?_) h3
  have := h x y hx hy
  rw [or_iff_left hp] at this
  exact Bool.eq_iff_iff.mpr this

/-! ## The bodies -/

theorem draws_drawPixel (x y : Int) (on : Bool) (pb : List Host.Cell) :
    Draws (fun px py => (px : Int) = x ∧ (py : Int) = y) on pb (drawPixel x y on pb) := by
  refine draws_of_pixels ?_ ?_ fun a ha => pbByte_drawPixel_outside x y on pb ha
  · rintro px py hx hy ⟨h1, h2⟩
    rw [pixelOf_drawPixel _ _ _ _ hx hy, if_pos ⟨h1.symm, h2.symm⟩]
  · intro px py hx hy h
    rw [pixelOf_drawPixel _ _ _ _ hx hy, if_neg]
    exact fun ⟨h1, h2⟩ => h ⟨h1.symm, h2.symm⟩

theorem outside_kept (pb : List Host.Cell) {a : Nat} (ha : 1024 ≤ a) :
    ∀ m x y, (fun m => pbByte m a = pbByte pb a) m → (fun m => pbByte m a = pbByte pb a) (drawPixel x y true m) :=
  fun m x y h => (pbByte_drawPixel_outside x y true m ha).trans h

theorem draws_drawRegion (x1 y1 x2 y2 : Int) (on : Bool) (pb : List Host.Cell) :
    Draws (fun px py => x1 ≤ px ∧ (px : Int) ≤ x2 ∧ y1 ≤ py ∧ (py : Int) ≤ y2) on pb (drawRegion x1 y1 x2 y2 on pb) := by
  refine draws_of_pixels ?_ ?_ fun a ha => ?_
  · intro px py hx hy h
    rw [pixelOf_drawRegion _ _ _ _ _ _ hx hy, if_pos h]
  · intro px py hx hy h
    rw [pixelOf_drawRegion _ _ _ _ _ _ hx hy, if_neg h]
  · exact drawRegion_induct (fun m => pbByte m a = pbByte pb a) _ _ _ _ _
      (fun m x y h => (pbByte_drawPixel_outside x y on m ha).trans h) pb rfl

theorem draws_paintGlyph (g : Glyph) (asc x y : Int) (pb : List Host.Cell) :
    Draws (glyphPaints g asc x y) true pb (paintGlyph g asc x y pb) :=
  draws_on_of_iff (fun _ _ hx hy => pixelOf_paintGlyph g asc x y pb hx hy) fun _ ha =>
    paintGlyph_induct (fun m => pbByte m _ = pbByte pb _) (outside_kept pb ha) g asc x y pb rfl

theorem draws_drawBitmap (x y : Int) {width : Int} (hw : 1 ≤ width) (data : List Byte) (pb : List Host.Cell) :
    Draws (bitmapPaints x y width data) true pb (drawBitmap x y width.toNat data pb).pb := by
  obtain ⟨w, rfl⟩ := Int.eq_ofNat_of_zero_le (show 0 ≤ width by omega)
  have hw1 : 1 ≤ w := by omega
  refine draws_on_of_iff (fun px py hx hy => ?_) fun a ha =>
    blitBits_induct (fun m => pbByte m a = pbByte pb a) (outside_kept pb ha) _ _ _ _ _ _ pb rfl
  have := pixelOf_blitBits x y hw1 (bitStream data) 0 pb hx hy
  simp only [Nat.zero_mod, Nat.zero_div, Nat.zero_add] at this
  rw [Int.toNat_natCast, drawBitmap, this]
  refine or_congr_right ⟨?_, ?_⟩
  · rintro ⟨n, hn, h1, h2⟩
    rw [getElem?_bitStream, Option.map_eq_some_iff] at hn
    obtain ⟨b, hb1, hb2⟩ := hn
    exact ⟨n, b, hb1, hb2, by rw [h1]; push_cast; rfl, by rw [h2]; push_cast; rfl⟩
  · rintro ⟨n, b, hb1, hb2, h1, h2⟩
    refine ⟨n, ?_, by rw [h1]; push_cast; rfl, by rw [h2]; push_cast; rfl⟩
    rw [getElem?_bitStream, hb1, Option.map_some, hb2]

/-! ## Text -/

theorem glyphPaints_floor (g : Glyph) (asc pen y : Int) (px py : Nat) :
    glyphPaints g asc pen y px py ↔ ∃ r xa : Nat, r < g.rows ∧ xa < g.width ∧ glyphBit g r xa = true ∧
      (px : Int) = pen + xa + g.left ∧ (py : Int) = floorPx asc + y - g.top + r := Iff.rfl

theorem penAfter_zero (z : FontSize) (x : Int) (text : List Nat) : penAfter z x text 0 = x := by simp [penAfter]

theorem penAfter_cons (z : FontSize) (x : Int) (cp : Nat) (rest : List Nat) (i : Nat) :
    penAfter z x (cp :: rest) (i + 1) = penAfter z (x + advancePx z cp) rest i := by
  simp only [penAfter, List.take_succ_cons, List.map_cons, List.sum_cons]; omega

theorem penReaches_zero (z : FontSize) (x : Int) (cp : Nat) (rest : List Nat) : penReaches z x (cp :: rest) 0 :=
  ⟨by simp, fun m h1 h2 => by omega⟩

theorem penReaches_succ (z : FontSize) (x : Int) (cp : Nat) (rest : List Nat) (i : Nat) :
    penReaches z x (cp :: rest) (i + 1) ↔ x + advancePx z cp < 128 ∧ penReaches z (x + advancePx z cp) rest i := by
  constructor
  · rintro ⟨h1, h2⟩
    refine ⟨?_, by simpa using h1, fun m hm1 hm2 => ?_⟩
    · have := h2 1 (by omega) (by omega)
      rwa [penAfter_cons, penAfter_zero] at this
    · have := h2 (m + 1) (by omega) (by omega)
      rwa [penAfter_cons] at this
  · rintro ⟨h0, h1, h2⟩
    refine ⟨by simpa using h1, fun m hm1 hm2 => ?_⟩
    obtain ⟨k, rfl⟩ : ∃ k, m = k + 1 := ⟨m - 1, by omega⟩
    rw [penAfter_cons]
    rcases Nat.eq_zero_or_pos k with rfl | hk
    · rw [penAfter_zero]; exact h0
    · exact h2 k hk (by omega)

/-- Painting a text at a height with a face: either every codepoint that is looked at rasterises and all of them are painted,
or the first one that does not stops it after those before it. -/
theorem paintText_cases (z : FontSize) (y : Int) (text : List Nat) (x : Int) (pb : List Host.Cell) :
    ((paintText (some z) y text x pb).failed = none ∧
        (∀ i cp, penReaches z x text i → text[i]? = some cp → (glyphAt z cp).isSome = true) ∧
        Draws (textPaints z x y text text.length) true pb (paintText (some z) y text x pb).pb) ∨
      ∃ i cp, (paintText (some z) y text x pb).failed = some cp ∧ penReaches z x text i ∧ text[i]? = some cp ∧
        glyphAt z cp = none ∧ (∀ j c, j < i → text[j]? = some c → (glyphAt z c).isSome = true) ∧
        Draws (textPaints z x y text i) true pb (paintText (some z) y text x pb).pb := by
  induction text generalizing x pb with
  | nil =>
    refine .inl ⟨rfl, fun i cp h => absurd h.1 (by simp), ?_⟩
    refine draws_on_of_iff (fun px py _ _ => ?_) fun _ _ => rfl
    refine ⟨.inl, ?_⟩
    rintro (h | ⟨i, cp, g, hi, -⟩)
    · exact h
    · simp at hi
  | cons cp rest ih =>
    cases hg : glyphAt z cp with
    | none =>
      have hp : paintText (some z) y (cp :: rest) x pb = { pb := pb, pen := x, failed := some cp } := by
        simp only [paintText, paintChar, hg]
      refine .inr ⟨0, cp, by rw [hp], penReaches_zero z x cp rest, rfl, hg, fun j c hj => absurd hj (by omega), ?_⟩
      rw [hp]
      refine draws_on_of_iff (fun px py _ _ => ?_) fun _ _ => rfl
      refine ⟨.inl, ?_⟩
      rintro (h | ⟨i, c, g, hi, -⟩)
      · exact h
      · omega
    | some g =>
      have hadv : advancePx z cp = ceilPx g.adv := by simp only [advancePx, hg]; rfl
      have hchar : paintChar (some z) x y cp pb =
          { pb := paintGlyph g z.ascender x y pb, pen := x + advancePx z cp, failed := none } := by
        simp only [paintChar, hg, hadv]
      have hd := draws_paintGlyph g z.ascender x y pb
      have first : ∀ n px py, textPaints z x y (cp :: rest) (n + 1) px py ↔ glyphPaints g z.ascender x y px py ∨
          (x + advancePx z cp < 128 ∧ textPaints z (x + advancePx z cp) y rest n px py) := by
        intro n px py
        constructor
        · rintro ⟨i, c, g', hi, hr, hc, hg', hpaint⟩
          cases i with
          | zero =>
            simp only [List.getElem?_cons_zero, Option.some.injEq] at hc
            subst hc
            rw [hg] at hg'
            cases hg'
            rw [penAfter_zero] at hpaint
            exact .inl hpaint
          | succ i =>
            obtain ⟨h1, h2⟩ := (penReaches_succ z x cp rest i).mp hr
            rw [penAfter_cons] at hpaint
            exact .inr ⟨h1, i, c, g', by omega, h2, by simpa using hc, hg', hpaint⟩
        · rintro (h | ⟨h1, i, c, g', hi, hr, hc, hg', hpaint⟩)
          · exact ⟨0, cp, g, by omega, penReaches_zero z x cp rest, rfl, hg, by rw [penAfter_zero]; exact h⟩
          · exact ⟨i + 1, c, g', by omega, (penReaches_succ z x cp rest i).mpr ⟨h1, hr⟩, by simpa using hc, hg',
              by rw [penAfter_cons]; exact hpaint⟩
      by_cases hstop : 128 ≤ x + advancePx z cp
      · have hp : paintText (some z) y (cp :: rest) x pb =
            { pb := paintGlyph g z.ascender x y pb, pen := x + advancePx z cp, failed := none } := by
          rw [paintText, hchar]
          simp only [Config.penLimit, if_pos hstop]
        rw [hp]
        refine .inl ⟨rfl, ?_, ?_⟩
        · intro i c hr hc
          cases i with
          | zero =>
            simp only [List.getElem?_cons_zero, Option.some.injEq] at hc
            subst hc
            rw [hg]; rfl
          | succ i => exact absurd ((penReaches_succ z x cp rest i).mp hr).1 (by omega)
        · have hiff : ∀ px py, textPaints z x y (cp :: rest) (cp :: rest).length px py ↔ glyphPaints g z.ascender x y px py := by
            intro px py
            rw [List.length_cons, first]
            exact or_iff_left fun h => absurd h.1 (by omega)
          have : textPaints z x y (cp :: rest) (cp :: rest).length = glyphPaints g z.ascender x y :=
            funext fun px => funext fun py => propext (hiff px py)
          rw [this]; exact hd
      · have hp : paintText (some z) y (cp :: rest) x pb =
            paintText (some z) y rest (x + advancePx z cp) (paintGlyph g z.ascender x y pb) := by
          rw [paintText, hchar]
          simp only [Config.penLimit, if_neg hstop]
        have hlt : x + advancePx z cp < 128 := by omega
        have compose : ∀ n m, Draws (textPaints z (x + advancePx z cp) y rest n) true (paintGlyph g z.ascender x y pb) m →
            Draws (textPaints z x y (cp :: rest) (n + 1)) true pb m := by
          intro n m hm
          refine ⟨fun px py hx hy h => ?_, fun px py hx hy h => ?_, fun a ha => ?_⟩
          · by_cases h' : textPaints z (x + advancePx z cp) y rest n px py
            · exact hm.1 px py hx hy h'
            · rw [hm.2.1 px py hx hy h']
              exact hd.1 px py hx hy (((first n px py).mp h).resolve_right fun h2 => h' h2.2)
          · rw [first] at h
            rw [hm.2.1 px py hx hy fun h2 => h (.inr ⟨hlt, h2⟩), hd.2.1 px py hx hy fun h1 => h (.inl h1)]
          · rw [hm.2.2 a fun px py hx hy h2 => ha px py hx hy ((first n px py).mpr (.inr ⟨hlt, h2⟩)),
              hd.2.2 a fun px py hx hy h1 => ha px py hx hy ((first n px py).mpr (.inl h1))]
        rw [hp]
        rcases ih (x + advancePx z cp) (paintGlyph g z.ascender x y pb) with ⟨h1, h2, h3⟩ | ⟨i, c, h1, h2, h3, h4, h5, h6⟩
        · refine .inl ⟨h1, fun i c hr hc => ?_, ?_⟩
          · cases i with
            | zero =>
              simp only [List.getElem?_cons_zero, Option.some.injEq] at hc
              subst hc
              rw [hg]; rfl
            | succ i => exact h2 i c ((penReaches_succ z x cp rest i).mp hr).2 (by simpa using hc)
          · exact compose _ _ h3
        · refine .inr ⟨i + 1, c, h1, (penReaches_succ z x cp rest i).mpr ⟨hlt, h2⟩, by simpa using h3, h4, ?_, compose _ _ h6⟩
          intro j c' hj hc'
          cases j with
          | zero =>
            simp only [List.getElem?_cons_zero, Option.some.injEq] at hc'
            subst hc'
            rw [hg]; rfl
          | succ j => exact h5 j c' (by omega) (by simpa using hc')

end Sys2Proof.Machine
end

