-- ==== Sys2Proof/Laws/Step.lean ====
section
/-! SUPPORT. What a step can do, said once; and what the end of an operation and the panel's rows leave. -/

namespace Sys2Proof.Machine

/-! ## Which instructions a place gives -/

theorem wire_port_of_decode {port : Port} {b : List Byte} {cw : Nat} {i : Instr} (hp : port ≠ .host) (h : decode port b cw = .ok i) :
    i.port ≠ .host := by
  cases port with
  | host => exact absurd rfl hp
  | line x y =>
    match b, h with
    | [c], h =>
      have h : decodeFrameByte x y c = .ok i := h
      unfold decodeFrameByte at h
      repeat' split at h
      all_goals first | cases h; exact Port.noConfusion | cases h
  | instruction slot =>
    match b, h with
    | [c], h =>
      cases slot with
      | first =>
        have h : decodeFirstByte c = .ok i := h
        unfold decodeFirstByte at h
        repeat' split at h
        all_goals first | cases h; exact Port.noConfusion | cases h
      | column =>
        have h : decodeColumnByte c = .ok i := h
        unfold decodeColumnByte at h
        split at h
        · cases h; exact Port.noConfusion
        · cases h
      | done => cases h
  | data =>
    match b, h with
    | [c], h => cases h; exact Port.noConfusion
  | read => cases h

theorem payloadPort_ne_host (p : Panel) : p.payloadPort ≠ .host := by
  unfold Panel.payloadPort
  split
  · exact Port.noConfusion
  · split <;> exact Port.noConfusion

theorem linePort_ne_host (p : Panel) : p.linePort ≠ .host := Port.noConfusion

/-- What a step does when it answers a next state: nothing, or one instruction, issuable by the host or of the panel's side,
in the state with its bytes taken from the host's port or from the line. -/
theorem step_cases {s t : State} (h : step s = .next t) :
    t = s ∨ ∃ i port line, exec i { s with port := port, line := line } = .next t ∧
      (i.issuable = true ∨ i.port ≠ .host) := by
  unfold step at h
  cases hf : fetch s with
  | idle => rw [hf] at h; cases h; exact .inl rfl
  | rejected why => rw [hf] at h; cases h
  | run i u =>
    rw [hf] at h
    refine .inr ⟨i, u.port, u.line, ?_⟩
    unfold fetch at hf
    cases hw : waiting s with
    | none => rw [hw] at hf; cases hf
    | some w =>
      rw [hw] at hf
      simp only at hf
      cases hd : decode w.port w.bytes s.env.coordW with
      | error e => rw [hd] at hf; cases hf
      | ok j =>
        rw [hd] at hf
        simp only at hf
        split at hf
        · cases hf
        · rename_i hno
          cases hf
          have hrest : w.rest = { s with port := w.rest.port, line := w.rest.line } := by
            unfold waiting at hw
            split at hw
            · cases hw; rfl
            · split at hw
              · cases hw; rfl
              · split at hw
                · cases hw; rfl
                · cases hw
          refine ⟨by rw [← hrest]; exact h, ?_⟩
          by_cases hp : w.port = .host
          · left
            by_contra hi
            exact hno ⟨hp, by simpa using hi⟩
          · exact .inr (wire_port_of_decode hp hd)

/-! ## The panel's rows -/

/-- What a wire-level row does when it answers a next state: the panel followed, its effect had a meaning, and nothing but the
panel changed. -/
theorem onPanel_next {effect : Panel → Except Refusal Panel} {s t : State} (h : onPanel effect s = .next t) :
    s.panel.standing = .following ∧ ∃ p, effect s.panel = .ok p ∧ t = { s with panel := p } := by
  unfold onPanel at h
  split at h
  · cases h
  · split at h
    · cases h
    · rename_i hs _ p hp
      cases h
      exact ⟨hs, p, hp, rfl⟩

/-- A wire-level row's meaning is its effect on the panel. -/
theorem exec_wire {i : Instr} (hi : i.port ≠ .host) (s : State) : exec i s = onPanel (wireEffect i) s := by
  cases i <;> first | rfl | exact absurd rfl hi

end Sys2Proof.Machine
end

