-- ==== Sys2Proof/Laws/Host.lean ====
section
/-! SUPPORT. What each kind of host-level operation can do, said once: if it answers a next state, the state it ran from and
the form of the state it left. -/

namespace Sys2Proof.Machine

/-! ## Drawing -/

/-- An operation that draws or sets the font height left `PB` and `FH` as `pb` and `fh`, completed (`counted` says whether `CI`
counts it) or with a fault raised. -/
def drawn (s : State) (pb : List Host.Cell) (fh : Nat) (counted : Bool) (fault : Option (FaultKind × Nat)) : State :=
  match fault with
  | none => { s with pb := pb, fh := fh, ci := if counted then s.ci + 1 else s.ci }
  | some (k, n) => raiseFault k n { s with pb := pb, fh := fh }

theorem execSetPixel_next {x y : Int} {on : Bool} {s t : State} (h : execSetPixel x y on s = .next t) :
    s.lc = .ready ∧ s.pbExists = true ∧ t = drawn s (drawPixel x y on s.pb) s.fh true none := by
  obtain ⟨h1, h2, h3⟩ := onCanvas_next h
  exact ⟨h1, h2, by cases h3; rfl⟩

theorem execSetRegion_next {x1 y1 x2 y2 : Int} {on : Bool} {s t : State} (h : execSetRegion x1 y1 x2 y2 on s = .next t) :
    s.lc = .ready ∧ s.pbExists = true ∧ t = drawn s (drawRegion x1 y1 x2 y2 on s.pb) s.fh true none := by
  obtain ⟨h1, h2, h3⟩ := onCanvas_next h
  exact ⟨h1, h2, by cases h3; rfl⟩

theorem execPutBitmap_next {x y width : Int} {data : List Byte} {s t : State} (h : execPutBitmap x y width data s = .next t) :
    s.lc = .ready ∧ s.pbExists = true ∧ 1 ≤ width ∧ t = drawn s (drawBitmap x y width.toNat data s.pb).pb s.fh true none := by
  obtain ⟨h1, h2, h3⟩ := onCanvas_next h
  split at h3
  · exact ⟨h1, h2, ‹_›, by cases h3; rfl⟩
  · cases h3

theorem execPutString_next {x y : Int} {text : List Nat} {s t : State} (h : execPutString x y text s = .next t) :
    s.lc = .ready ∧ s.pbExists = true ∧
      ∃ p, p = paintText (sizeAt s.env.font s.fh) y text x s.pb ∧
        t = drawn s p.pb s.fh true (p.failed.map fun cp => (.glyphLoadFailure, cp)) := by
  obtain ⟨h1, h2, h3⟩ := onCanvas_next h
  refine ⟨h1, h2, _, rfl, ?_⟩
  unfold paintFlow at h3
  cases hf : (paintText (sizeAt s.env.font s.fh) y text x s.pb).failed with
  | none => rw [hf] at h3; cases h3; rfl
  | some cp => rw [hf] at h3; cases h3; rfl

theorem execPutChar_next {x y : Int} {cp : Nat} {s t : State} (h : execPutChar x y cp s = .next t) :
    s.lc = .ready ∧ s.pbExists = true ∧
      ∃ p, p = paintChar (sizeAt s.env.font s.fh) x y cp s.pb ∧
        t = drawn s p.pb s.fh false (p.failed.map fun cp => (.glyphLoadFailure, cp)) := by
  obtain ⟨h1, h2, h3⟩ := onCanvas_next h
  refine ⟨h1, h2, _, rfl, ?_⟩
  unfold paintFlow at h3
  cases hf : (paintChar (sizeAt s.env.font s.fh) x y cp s.pb).failed with
  | none => rw [hf] at h3; cases h3; rfl
  | some cp => rw [hf] at h3; cases h3; rfl

theorem execSetFontHeight_next {px : Nat} {s t : State} (h : execSetFontHeight px s = .next t) :
    s.lc = .ready ∧ ((fontSetOk s.env px = true ∧ t = drawn s s.pb px true none) ∨
      (fontSetOk s.env px = false ∧ t = drawn s s.pb s.fh true (some (.fontLoadFailure, px)))) := by
  obtain ⟨h1, h2⟩ := whenReady_next h
  refine ⟨h1, ?_⟩
  unfold fontHeightStep at h2
  split at h2
  · exact .inl ⟨‹_›, by cases h2; rfl⟩
  · exact .inr ⟨Bool.eq_false_iff.mpr ‹_›, by cases h2; rfl⟩

/-! ## Sending -/

/-- A configuration operation: its instruction was sent and waited for, or the write failed. -/
theorem instruction_next {v : Byte} {s t : State} (h : whenReady s (finishOperation (sendInstruction v s)) = .next t) :
    s.lc = .ready ∧ (t = { s.instructed v with ci := s.ci + 1 } ∨ t = s.writeFailed) := by
  obtain ⟨h1, h2⟩ := whenReady_next h
  rw [sendInstruction_eq] at h2
  split at h2
  · exact ⟨h1, .inl (by cases h2; rfl)⟩
  · exact ⟨h1, .inr (by cases h2; rfl)⟩

/-- A list of frames that ends a host operation: all sent, or those before the failing write. -/
theorem sendAll_next {frames : List (List Byte)} {s t : State} (h : finishOperation (sendAll frames s) = .next t) :
    t = { s.sent frames with ci := s.ci + 1 } ∨ ∃ k, t = (s.sent (frames.take k)).writeFailed := by
  rw [sendAll_eq] at h
  split at h
  · exact .inl (by cases h; rfl)
  · exact .inr ⟨_, by cases h; rfl⟩

theorem execDrawAll_next {s t : State} (h : execDrawAll s = .next t) : s.lc = .ready ∧ s.pbExists = true ∧
    (t = { s.sent (canvasFrames s.pb) with ci := s.ci + 1 } ∨ ∃ k, t = (s.sent ((canvasFrames s.pb).take k)).writeFailed) := by
  obtain ⟨h1, h2, h3⟩ := onCanvas_next h
  rw [flushAll_eq] at h3
  exact ⟨h1, h2, sendAll_next h3⟩

theorem execDrawRow_next {r : Int} {s t : State} (h : execDrawRow r s = .next t) : s.lc = .ready ∧ s.pbExists = true ∧
    (t = { s.sent (rowFrames s.pb r.toNat) with ci := s.ci + 1 } ∨
      ∃ k, t = (s.sent ((rowFrames s.pb r.toNat).take k)).writeFailed) := by
  obtain ⟨h1, h2, h3⟩ := onCanvas_next h
  split at h3
  · rw [flushRow_eq] at h3
    exact ⟨h1, h2, sendAll_next h3⟩
  · cases h3

theorem execDrawSectionsForBB_next {x1 y1 x2 y2 : Int} {s t : State} (h : execDrawSectionsForBB x1 y1 x2 y2 s = .next t) :
    s.lc = .ready ∧ s.pbExists = true ∧ ∃ frames, frames = boxFrames s.pb x1.toNat y1.toNat x2.toNat y2.toNat ∧
      (t = { s.sent frames with ci := s.ci + 1 } ∨ ∃ k, t = (s.sent (frames.take k)).writeFailed) := by
  obtain ⟨h1, h2, h3⟩ := onCanvas_next h
  split at h3
  · rw [flushBox_eq] at h3
    exact ⟨h1, h2, _, rfl, sendAll_next h3⟩
  · cases h3

/-- An internal send: its frame was sent, or the write failed. -/
theorem sendMicro_next {bytes : List Byte} {s t : State}
    (h : whenReady s (finishMicro (transportWrite bytes s)) = .next t) :
    s.lc = .ready ∧ (t = s.sent [bytes] ∨ t = s.writeFailed) := by
  obtain ⟨h1, h2⟩ := whenReady_next h
  rw [transportWrite_eq] at h2
  split at h2
  · exact ⟨h1, .inl (by cases h2; rfl)⟩
  · exact ⟨h1, .inr (by cases h2; rfl)⟩

/-! ## Lifecycle -/

/-- The three instruction bytes of the initialisation sequence (R237). -/
def initBytes : List Byte := [0x30, 0x0C, 0x36]

theorem initSequence_cases (s : State) :
    (fontSetOk s.env s.env.initFontHeight = true ∧
      initSequence s = .ok { initBytes.foldl State.instructed s with fh := s.env.initFontHeight }) ∨
    initSequence s = .raised (raiseFault .fontLoadFailure s.env.initFontHeight (initBytes.foldl State.instructed s)) ∨
    ∃ k, initSequence s = .raised ((initBytes.take k).foldl State.instructed s).writeFailed := by
  have b1 : functionSetByte false false = 0x30 := by decide
  have b2 : displayControlByte true false false = 0x0C := by decide
  have b3 : functionSetByte true true = 0x36 := by decide
  unfold initSequence functionSetStep displayControlStep
  rw [b1, b2, b3, sendInstruction_eq]
  split
  · rw [andThen_ok, sendInstruction_eq]
    split
    · rw [andThen_ok, sendInstruction_eq]
      split
      · rw [andThen_ok, fontHeightStep]
        split
        · exact .inl ⟨‹_›, rfl⟩
        · exact .inr (.inl rfl)
      · exact .inr (.inr ⟨2, rfl⟩)
    · exact .inr (.inr ⟨1, rfl⟩)
  · exact .inr (.inr ⟨0, rfl⟩)

/-- What `CONSTRUCT` can do: complete, fail before anything was sent, or fail in the initialisation sequence. -/
theorem execConstruct_next {busId deviceId : Byte} {s t : State} (h : execConstruct busId deviceId s = .next t) :
    s.lc = .off ∧
    ((fontSetOk s.env s.env.initFontHeight = true ∧
        t = { initBytes.foldl State.instructed (acquired busId deviceId s) with
          fh := s.env.initFontHeight, lc := .ready, ci := s.ci + 1 }) ∨
      (∃ kind, t = raiseFault kind 0 s) ∨
      t = raiseFault .fontLoadFailure s.env.initFontHeight (initBytes.foldl State.instructed (acquired busId deviceId s)) ∨
      ∃ k, t = ((initBytes.take k).foldl State.instructed (acquired busId deviceId s)).writeFailed) := by
  unfold execConstruct at h
  split at h
  · refine ⟨‹_›, ?_⟩
    unfold constructFlow at h
    split at h
    · cases h; exact .inr (.inl ⟨_, rfl⟩)
    · split at h
      · cases h; exact .inr (.inl ⟨_, rfl⟩)
      · split at h
        · cases h; exact .inr (.inl ⟨_, rfl⟩)
        · rcases initSequence_cases (acquired busId deviceId s) with ⟨hh, e⟩ | e | ⟨k, e⟩
          · rw [e] at h; cases h; exact .inl ⟨hh, rfl⟩
          · rw [e] at h; cases h; exact .inr (.inr (.inl rfl))
          · rw [e] at h; cases h; exact .inr (.inr (.inr ⟨k, rfl⟩))
  · cases h

/-- Flushing a buffer and then closing: everything sent, or the frames before the failing write. -/
theorem flushAndClose_next {pb : List Host.Cell} {s t : State}
    (h : finishOperation ((flushAll { s with pb := pb }).andThen fun u =>
      .ok { releaseHandles (freePixelBuffer u) with lc := .closed }) = .next t) :
    t = { s.sent (canvasFrames pb) with
        pb := [], pbExists := false, link := none, face := none, lc := .closed, ci := s.ci + 1 } ∨
      ∃ k, t = { (s.sent ((canvasFrames pb).take k)).writeFailed with pb := pb } := by
  rw [flushAll_eq] at h
  simp only at h
  generalize canvasFrames pb = frames at h ⊢
  rw [sendAll_eq] at h
  split at h
  · exact .inl (Host.Outcome.next.inj h).symm
  · exact .inr ⟨_, (Host.Outcome.next.inj h).symm⟩

/-- What `DESTRUCT` can do: complete, or fail in the flush of the cleared buffer. -/
theorem execDestruct_next {s t : State} (h : execDestruct s = .next t) : s.lc = .ready ∧ s.pbExists = true ∧
    ∃ pb, pb = drawRegion 0 0 127 63 false s.pb ∧
    (t = { s.sent (canvasFrames pb) with
        pb := [], pbExists := false, link := none, face := none, lc := .closed, ci := s.ci + 1 } ∨
      ∃ k, t = { (s.sent ((canvasFrames pb).take k)).writeFailed with pb := pb }) := by
  obtain ⟨h1, h2, h3⟩ := onCanvas_next h
  exact ⟨h1, h2, _, rfl, flushAndClose_next h3⟩

end Sys2Proof.Machine
end

