-- ==== Sys2Proof/Laws/PerInstr.lean ====
section
/-! SUPPORT. The per-instruction family: how many bytes an instruction's encoding has. A host operation's descriptor has the
length in R103's last column, its coordinates as wide as `COORD_W` says; a wire-level row is one byte (R81, R82, R86 to R91). -/

namespace Sys2Proof.Laws

/-- The length of an encoding, in bytes, when a coordinate takes `c` bytes: two at the default width (R103, R84). -/
def encodedLength (c : Nat) : Instr → Nat
  | .construct _ _ => 3
  | .destruct => 1
  | .setFunctionSet _ _ => 3
  | .setDisplayControl _ _ _ => 4
  | .setShiftControl _ _ => 3
  | .setEntryMode _ _ => 3
  | .setFontHeight _ => 3
  | .setPixel _ _ _ => 2 + 2 * c
  | .setRegion _ _ _ _ _ => 2 + 4 * c
  | .putString _ _ text => 3 + 2 * c + 4 * text.length
  | .putBitmap _ _ _ data => 3 + 3 * c + data.length
  | .drawAll => 1
  | .drawRow _ => 1 + c
  | .drawSectionsForBB _ _ _ _ => 1 + 4 * c
  | .send _ _ data => 5 + data.length
  | .gramAddrSet _ _ => 3
  | .putChar _ _ _ => 5 + 2 * c
  | .wireFunctionSet _ _ => 1
  | .wireDisplayControl _ _ _ => 1
  | .wireShiftControl _ _ => 1
  | .wireEntryMode _ _ => 1
  | .wireGramAddrRow _ => 1
  | .wireGramAddrCol _ => 1
  | .wireSync _ _ => 1
  | .wireNibbleHigh _ => 1
  | .wireNibbleLow _ => 1
  | .wireData _ => 1

/-- The codepoints of a `cps` field take four bytes each (R101). -/
theorem encCps_length (l : List Nat) : (encCps l).length = 4 * l.length := by
  induction l with
  | nil => rfl
  | cons c cs ih => simp [encCps, encU32, encU16, encWord, ih]; omega

/-- The encoding of `i` has the length R103 gives it, at every width of a coordinate. -/
def EncodedLength.Statement (i : Instr) : Prop :=
  ∀ coordW, (encode i coordW).length = encodedLength (coordBytes coordW) i

theorem EncodedLength.construct (busId deviceId : Byte) :
    EncodedLength.Statement (.construct busId deviceId) := fun _ => rfl

theorem EncodedLength.destruct :
    EncodedLength.Statement (.destruct) := fun _ => rfl

theorem EncodedLength.setFunctionSet (ext gfx : Bool) :
    EncodedLength.Statement (.setFunctionSet ext gfx) := fun _ => rfl

theorem EncodedLength.setDisplayControl (d c b : Bool) :
    EncodedLength.Statement (.setDisplayControl d c b) := fun _ => rfl

theorem EncodedLength.setShiftControl (s right : Bool) :
    EncodedLength.Statement (.setShiftControl s right) := fun _ => rfl

theorem EncodedLength.setEntryMode (inc sh : Bool) :
    EncodedLength.Statement (.setEntryMode inc sh) := fun _ => rfl

theorem EncodedLength.setFontHeight (px : Nat) :
    EncodedLength.Statement (.setFontHeight px) := fun _ => rfl

theorem EncodedLength.setPixel (x y : Int) (on : Bool) :
    EncodedLength.Statement (.setPixel x y on) := fun w => by
  simp [encode, encodedLength, encCoord_length, encBool]; omega

theorem EncodedLength.setRegion (x1 y1 x2 y2 : Int) (on : Bool) :
    EncodedLength.Statement (.setRegion x1 y1 x2 y2 on) := fun w => by
  simp [encode, encodedLength, encCoord_length, encBool]; omega

theorem EncodedLength.putString (x y : Int) (text : List Nat) :
    EncodedLength.Statement (.putString x y text) := fun w => by
  simp [encode, encodedLength, encCoord_length, encU16, encWord, encCps_length]; omega

theorem EncodedLength.putBitmap (x y width : Int) (data : List Byte) :
    EncodedLength.Statement (.putBitmap x y width data) := fun w => by
  simp [encode, encodedLength, encCoord_length, encU16, encWord]; omega

theorem EncodedLength.drawAll :
    EncodedLength.Statement (.drawAll) := fun _ => rfl

theorem EncodedLength.drawRow (r : Int) :
    EncodedLength.Statement (.drawRow r) := fun w => by
  simp [encode, encodedLength, encCoord_length]; omega

theorem EncodedLength.drawSectionsForBB (x1 y1 x2 y2 : Int) :
    EncodedLength.Statement (.drawSectionsForBB x1 y1 x2 y2) := fun w => by
  simp [encode, encodedLength, encCoord_length]; omega

theorem EncodedLength.send (rs rw : Bool) (data : List Byte) :
    EncodedLength.Statement (.send rs rw data) := fun w => by
  simp [encode, encodedLength, encU16, encWord, encBool]; omega

theorem EncodedLength.gramAddrSet (row col : Nat) :
    EncodedLength.Statement (.gramAddrSet row col) := fun _ => rfl

theorem EncodedLength.putChar (x y : Int) (codepoint : Nat) :
    EncodedLength.Statement (.putChar x y codepoint) := fun w => by
  simp [encode, encodedLength, encCoord_length, encU32, encU16, encWord]; omega

theorem EncodedLength.wireFunctionSet (e g : Bool) :
    EncodedLength.Statement (.wireFunctionSet e g) := fun _ => rfl

theorem EncodedLength.wireDisplayControl (d c b : Bool) :
    EncodedLength.Statement (.wireDisplayControl d c b) := fun _ => rfl

theorem EncodedLength.wireShiftControl (s r : Bool) :
    EncodedLength.Statement (.wireShiftControl s r) := fun _ => rfl

theorem EncodedLength.wireEntryMode (i h : Bool) :
    EncodedLength.Statement (.wireEntryMode i h) := fun _ => rfl

theorem EncodedLength.wireGramAddrRow (row : BitVec 6) :
    EncodedLength.Statement (.wireGramAddrRow row) := fun _ => rfl

theorem EncodedLength.wireGramAddrCol (col : BitVec 4) :
    EncodedLength.Statement (.wireGramAddrCol col) := fun _ => rfl

theorem EncodedLength.wireSync (rw rs : Bool) :
    EncodedLength.Statement (.wireSync rw rs) := fun _ => rfl

theorem EncodedLength.wireNibbleHigh (h : BitVec 4) :
    EncodedLength.Statement (.wireNibbleHigh h) := fun _ => rfl

theorem EncodedLength.wireNibbleLow (l : BitVec 4) :
    EncodedLength.Statement (.wireNibbleLow l) := fun _ => rfl

theorem EncodedLength.wireData (d : Byte) :
    EncodedLength.Statement (.wireData d) := fun _ => rfl

end Sys2Proof.Laws
end

