-- ==== Sys2Proof/Tests/Slice0.lean ====
section
/-! SUPPORT. The model's own tests: ill-formed terms that the checks refuse, words written out from the spec's encodings,
one-step runs on small states with the results of `95_test_vectors.md`, and for every statement with hypotheses a state and
operands that meet them. -/

namespace Sys2Proof.Tests

open Sys2Proof Sys2Proof.Machine

set_option maxRecDepth 20000

/-! ## Small states -/

/-- 'A' of the test font `T8` (V9). -/
def glyphA : Glyph :=
  { width := 5, rows := 7, pitch := 1, buf := [0x70, 0x88, 0x88, 0xF8, 0x88, 0x88, 0x88], left := 0, top := 7, adv := 384 }

/-- 'B' of `T8`. -/
def glyphB : Glyph :=
  { width := 5, rows := 7, pitch := 1, buf := [0xF0, 0x88, 0x88, 0xF0, 0x88, 0x88, 0xF0], left := 0, top := 7, adv := 385 }

/-- 'j' of `T8`: a negative left bearing. -/
def glyphJ : Glyph :=
  { width := 3, rows := 9, pitch := 1, buf := [0x20, 0x00, 0x20, 0x20, 0x20, 0x20, 0x20, 0xA0, 0x40], left := -1, top := 7
    adv := 192 }

/-- 'W' of `T8`: two bytes a raster row. -/
def glyphW : Glyph :=
  { width := 9, rows := 2, pitch := 2, buf := [0x80, 0x80, 0x41, 0x00], left := 1, top := 2, adv := 640 }

/-- `T8` at its one height. -/
def size8 : FontSize :=
  { height := 8, ascender := 480, glyphs := [(0x41, glyphA), (0x42, glyphB), (0x6A, glyphJ), (0x57, glyphW)] }

/-- Every call succeeds, and the FontProvider rejects height 9. -/
def envT8 : Env :=
  { unopenable := [], configureOk := true, loadFaceOk := true, writes := [], rejectedHeights := [9], font := [size8]
    initFontHeight := 8, settleMin := 75, coordW := 16 }

/-- Before `CONSTRUCT`. -/
def offState : State := { State.reset with env := envT8 }

/-- The panel in the extended set. -/
def listening : Panel := { Panel.reset with regs := { PanelRegs.reset with modeE := true, modeG := true, modeD := true } }

/-- Ready to draw and send, with this PixelBuffer. -/
def readyWith (pb : List Host.Cell) : State :=
  { offState with
    pb := pb, pbExists := true, fh := 8, lc := .ready, link := some { path := 0, mode := 0, speedHz := 0 }
    face := some 0, panel := listening }

/-- Ready, with an all-zero PixelBuffer. -/
def readyState : State := readyWith []

/-- Ready, with the panel in the extended set and graphics off. -/
def graphicsOffState : State := { readyState with panel.regs.modeG := false }

/-- Ready, and the coming writes answer this. -/
def readyWrites (writes : List WriteResult) : State := { readyState with env := { envT8 with writes := writes } }

/-- A word of `PB` in the state an operation answers. -/
def wordAfter (r : Result) (row col : Nat) : Option Word :=
  match r with
  | .next t => some (memRead t.pb row col)
  | .fault _ => none
  | .refused _ => none

/-- The trace in the state an operation answers. -/
def traceAfter (r : Result) : Option (List Event) :=
  match r with
  | .next t => some t.trace
  | .fault _ => none
  | .refused _ => none

/-- The fault record in the state an operation answers. -/
def faultAfter (r : Result) : Option FaultRecord :=
  match r with
  | .next t => t.fault
  | .fault _ => none
  | .refused _ => none

/-- The operation answers a next state. -/
def isNext (r : Result) : Bool :=
  match r with
  | .next _ => true
  | .fault _ => false
  | .refused _ => false

/-- The panel's registers in the state an operation answers. -/
def panelAfter (r : Result) : Option PanelRegs :=
  match r with
  | .next t => some t.panel.regs
  | .fault _ => none
  | .refused _ => none

/-! ## Ill-formed terms (R101, R86) -/

theorem test_wf_function_set : Instr.wf (.wireFunctionSet false true) = false := by decide
theorem test_wf_font_height : Instr.wf (.setFontHeight 65536) = false := by decide
theorem test_wf_pixel : Instr.wf (.setPixel 32768 0 true) = false ∧ Instr.wf (.setPixel 0 (-32769) true) = false := by decide
theorem test_wf_region :
    Instr.wf (.setRegion 32768 0 0 0 true) = false ∧ Instr.wf (.setRegion 0 32768 0 0 true) = false ∧
      Instr.wf (.setRegion 0 0 32768 0 true) = false ∧ Instr.wf (.setRegion 0 0 0 32768 true) = false := by decide
theorem test_wf_string :
    Instr.wf (.putString 32768 0 []) = false ∧ Instr.wf (.putString 0 (-32769) []) = false ∧
      Instr.wf (.putString 0 0 [4294967296]) = false := by decide
theorem test_wf_string_length (text : List Nat) (h : text.length = 65536) : Instr.wf (.putString 0 0 text) = false := by
  simp [Instr.wf, fitsU16, h]
theorem test_wf_bitmap :
    Instr.wf (.putBitmap 32768 0 1 []) = false ∧ Instr.wf (.putBitmap 0 32768 1 []) = false ∧
      Instr.wf (.putBitmap 0 0 32768 []) = false := by decide
theorem test_wf_bitmap_length (data : List Byte) (h : data.length = 65536) :
    Instr.wf (.putBitmap 0 0 1 data) = false := by
  simp [Instr.wf, fitsU16, h]
theorem test_wf_row : Instr.wf (.drawRow 32768) = false := by decide
theorem test_wf_box :
    Instr.wf (.drawSectionsForBB 32768 0 0 0) = false ∧ Instr.wf (.drawSectionsForBB 0 32768 0 0) = false ∧
      Instr.wf (.drawSectionsForBB 0 0 32768 0) = false ∧ Instr.wf (.drawSectionsForBB 0 0 0 32768) = false := by decide
theorem test_wf_send_length (data : List Byte) (h : data.length = 65536) :
    Instr.wf (.send true false data) = false := by
  simp [Instr.wf, fitsU16, h]
theorem test_wf_gram_addr : Instr.wf (.gramAddrSet 256 0) = false ∧ Instr.wf (.gramAddrSet 0 256) = false := by decide
theorem test_wf_char :
    Instr.wf (.putChar 32768 0 0) = false ∧ Instr.wf (.putChar 0 32768 0) = false ∧
      Instr.wf (.putChar 0 0 4294967296) = false := by decide

/-! ## Words written out: descriptors by R103 (V12 where it has the row), wire bytes by R81, R82, R86 to R91 -/

theorem test_decode_construct : decode .host [0x01, 0x01, 0x02] = .ok (.construct 1 2) := by decide
theorem test_decode_destruct : decode .host [0x02] = .ok .destruct := by decide
theorem test_decode_set_function_set : decode .host [0x10, 0x00, 0x01] = .ok (.setFunctionSet false true) := by decide
theorem test_decode_set_display_control :
    decode .host [0x11, 0x01, 0x00, 0x00] = .ok (.setDisplayControl true false false) := by decide
theorem test_decode_set_shift_control : decode .host [0x12, 0x00, 0x01] = .ok (.setShiftControl false true) := by decide
theorem test_decode_set_entry_mode : decode .host [0x13, 0x01, 0x00] = .ok (.setEntryMode true false) := by decide
theorem test_decode_set_font_height : decode .host [0x14, 0x01, 0x08] = .ok (.setFontHeight 264) := by decide
theorem test_decode_set_pixel :
    decode .host [0x20, 0x00, 0x11, 0x00, 0x28, 0x01] = .ok (.setPixel 17 40 true) := by decide
theorem test_decode_set_region :
    decode .host [0x21, 0x00, 0x0E, 0x00, 0x1E, 0x00, 0x11, 0x00, 0x21, 0x01] = .ok (.setRegion 14 30 17 33 true) := by decide
theorem test_decode_put_string :
    decode .host [0x22, 0x00, 0x02, 0x00, 0x0A, 0x00, 0x02, 0x00, 0x00, 0x00, 0x41, 0x00, 0x00, 0x00, 0x42] =
      .ok (.putString 2 10 [0x41, 0x42]) := by decide
theorem test_decode_put_bitmap :
    decode .host [0x23, 0x00, 0x0A, 0x00, 0x1F, 0x00, 0x0C, 0x00, 0x03, 0xFF, 0xF0, 0x0F] =
      .ok (.putBitmap 10 31 12 [0xFF, 0xF0, 0x0F]) := by decide
theorem test_decode_draw_all : decode .host [0x30] = .ok .drawAll := by decide
theorem test_decode_draw_row : decode .host [0x31, 0x00, 0x28] = .ok (.drawRow 40) := by decide
theorem test_decode_draw_sections :
    decode .host [0x32, 0x00, 0x0E, 0x00, 0x1E, 0x00, 0x11, 0xFF, 0xFF] = .ok (.drawSectionsForBB 14 30 17 (-1)) := by decide
theorem test_decode_send : decode .host [0x80, 0x01, 0x00, 0x00, 0x01, 0xAB] = .ok (.send true false [0xAB]) := by decide
theorem test_decode_gram_addr_set : decode .host [0x81, 0x1F, 0x08] = .ok (.gramAddrSet 31 8) := by decide
theorem test_decode_put_char :
    decode .host [0x82, 0x00, 0x02, 0xFF, 0xF6, 0x00, 0x01, 0xF6, 0x00] = .ok (.putChar 2 (-10) 0x1F600) := by decide
theorem test_decode_wire_function_set :
    decode (.instruction .first) [0b00110100] = .ok (.wireFunctionSet true false) := by decide
theorem test_decode_wire_display_control :
    decode (.instruction .first) [0b00001100] = .ok (.wireDisplayControl true false false) := by decide
theorem test_decode_wire_shift_control :
    decode (.instruction .first) [0b00011000] = .ok (.wireShiftControl true false) := by decide
theorem test_decode_wire_entry_mode : decode (.instruction .first) [0b00000110] = .ok (.wireEntryMode true false) := by decide
theorem test_decode_wire_gram_addr_row : decode (.instruction .first) [0b10010001] = .ok (.wireGramAddrRow 17) := by decide
theorem test_decode_wire_gram_addr_col : decode (.instruction .column) [0b10001001] = .ok (.wireGramAddrCol 9) := by decide
theorem test_decode_wire_sync : decode (.line false false) [0b11111010] = .ok (.wireSync false true) := by decide
theorem test_decode_wire_nibble_high : decode (.line true false) [0b10100000] = .ok (.wireNibbleHigh 0xA) := by decide
theorem test_decode_wire_nibble_low : decode (.line true true) [0b10110000] = .ok (.wireNibbleLow 0xB) := by decide
theorem test_decode_wire_data : decode .data [0b10100101] = .ok (.wireData 0xA5) := by decide

/-- V12: reserved codes, a truncated descriptor, a count that does not match, a bad `bool`, a trailing byte. -/
theorem test_decode_malformed :
    decode .host [0x00] = .error .reservedCode ∧ decode .host [0x03] = .error .reservedCode ∧
      decode .host [0xFF] = .error .reservedCode ∧ decode .host [] = .error .empty ∧
      decode .host [0x20, 0x00, 0x11, 0x00, 0x28] = .error .truncated ∧
      decode .host [0x23, 0x00, 0x00, 0x00, 0x00, 0x00, 0x08, 0x00, 0x02, 0xFF] = .error .truncated ∧
      decode .host [0x20, 0x00, 0x00, 0x00, 0x00, 0x02] = .error .badBoolean ∧
      decode .host [0x30, 0x00] = .error .trailing := by decide

/-- R93: bytes the block never emits; R84: a line byte that is neither synchronisation nor nibble byte. -/
theorem test_decode_not_wire :
    decode (.instruction .first) [0x32] = .error .neverEmitted ∧ decode (.instruction .first) [0x01] = .error .neverEmitted ∧
      decode (.instruction .first) [0x40] = .error .neverEmitted ∧
      decode (.instruction .column) [0x90] = .error .neverEmitted ∧
      decode (.line true false) [0x01] = .error .notAFrameByte ∧
      decode (.line false false) [0x30] = .error .nibbleOutsideFrame := by decide

/-- R11: a coordinate of 24 bits takes three bytes; one of 12 bits takes two, and a value that does not fit is refused. -/
theorem test_decode_coordinate_width :
    decode .host [0x31, 0xFF, 0xFF, 0xFE] 24 = .ok (.drawRow (-2)) ∧
      decode .host [0x31, 0x00, 0x28] 24 = .error .truncated ∧ decode .host [0x31, 0xFF, 0xFE] 12 = .ok (.drawRow (-2)) ∧
      decode .host [0x31, 0x0F, 0xFE] 12 = .error .coordinateTooWide ∧ encode (.drawRow (-2)) 24 = [0x31, 0xFF, 0xFF, 0xFE] := by
  decide

/-- R11: the command port reads descriptors at the machine's own width. -/
theorem test_step_coordinate_width :
    (let s := { readyState with env := { envT8 with coordW := 24 }, port := [[0x31, 0x00, 0x00, 0x28]] }
     isNext (step s)) = true := by decide

/-- The host's numbering: the first byte lowest. -/
theorem test_table_word :
    decodeTableWord 48 0x012800110020 = some (.setPixel 17 40 true) ∧ decodeTableWord 8 0x02 = some .destruct ∧
      decodeTableWord 8 0x0C = some (.wireDisplayControl true false false) ∧
      decodeTableWord 8 0xFA = some (.wireSync false true) := by decide

/-! ## One operation on a small state -/

/-- V4: one bit, in the lower bank. -/
theorem test_set_pixel : wordAfter (exec (.setPixel 17 40 true) readyState) 8 9 = some 0x4000 := by decide

/-- V4: off the canvas nothing is written. -/
theorem test_set_pixel_outside : wordAfter (exec (.setPixel 128 5 true) readyState) 5 8 = some 0 := by decide

/-- V4: a region across the bank switch and a cell boundary. -/
theorem test_set_region :
    (let r := exec (.setRegion 14 30 17 33 true) readyState
     [wordAfter r 31 0, wordAfter r 31 1, wordAfter r 0 8, wordAfter r 0 9, wordAfter r 2 8]) =
      [some 0x0003, some 0xC000, some 0x0003, some 0xC000, some 0] := by decide

/-- V4: reversed corners (D17). -/
theorem test_set_region_reversed : wordAfter (exec (.setRegion 10 10 5 5 true) readyState) 5 0 = some 0 := by decide

/-- V11: rows of 12 bits from (10, 31). -/
theorem test_put_bitmap :
    (let r := exec (.putBitmap 10 31 12 [0xFF, 0xF0, 0x0F]) readyState
     [wordAfter r 31 0, wordAfter r 31 1, wordAfter r 0 9]) = [some 0x003F, some 0xFC00, some 0x3C00] := by decide

/-- V11: the cursor where the loop ends. -/
theorem test_put_bitmap_cursor :
    (let b := drawBitmap 0 0 3 [0xB6, 0xD9] []
     (b.cx, b.cy, memRead b.pb 4 0)) = (1, 5, 0x8000) := by decide

/-- V10: two glyphs. -/
theorem test_put_string :
    (let r := exec (.putString 2 10 [0x41, 0x42]) readyState
     [wordAfter r 10 0, wordAfter r 13 0, wordAfter r 16 0]) = [some 0x1CF0, some 0x3EF0, some 0x22F0] := by decide

/-- V10: the pen where text ends, and the source's stop at 128. -/
theorem test_put_string_pen :
    (paintText (some size8) 10 [0x41, 0x42] 2 []).pen = 15 ∧ (paintText (some size8) 0 [0x41, 0x42] 126 []).pen = 132 := by
  decide

/-- V10: a negative left bearing. -/
theorem test_put_char :
    (let r := exec (.putChar 0 0 0x6A) readyState
     [wordAfter r 0 0, wordAfter r 7 0, wordAfter r 8 0]) = [some 0x4000, some 0x4000, some 0x8000] := by decide

/-- V10: a codepoint without a glyph. -/
theorem test_put_char_fault :
    faultAfter (exec (.putChar 0 0 0x3F) readyState) = some { kind := .glyphLoadFailure, info := 0x3F } := by decide

/-- V10: a rejected height. -/
theorem test_set_font_height :
    faultAfter (exec (.setFontHeight 9) readyState) = some { kind := .fontLoadFailure, info := 9 } ∧
      faultAfter (exec (.setFontHeight 12) readyState) = none := by decide

/-- V6: graphics dropped without extended. -/
theorem test_set_function_set :
    traceAfter (exec (.setFunctionSet false true) readyState) = some [.tx [0xF8, 0x30, 0x00], .settle] ∧
      traceAfter (exec (.setFunctionSet true true) readyState) = some [.tx [0xF8, 0x30, 0x60], .settle] := by decide

/-- V6. -/
theorem test_set_display_control :
    traceAfter (exec (.setDisplayControl true false true) readyState) = some [.tx [0xF8, 0x00, 0xD0], .settle] := by decide

/-- V6. -/
theorem test_set_shift_control :
    traceAfter (exec (.setShiftControl true false) readyState) = some [.tx [0xF8, 0x10, 0x80], .settle] := by decide

/-- V6. -/
theorem test_set_entry_mode :
    traceAfter (exec (.setEntryMode false true) readyState) = some [.tx [0xF8, 0x00, 0x50], .settle] := by decide

/-- V5: the source's example. -/
theorem test_send :
    traceAfter (exec (.send true false [0xAB]) readyState) = some [.tx [0xFA, 0xA0, 0xB0]] := by decide

/-- V7, and the masked operands. -/
theorem test_gram_addr_set :
    traceAfter (exec (.gramAddrSet 17 9) readyState) = some [.tx [0xF8, 0x90, 0x10, 0x80, 0x90]] ∧
      traceAfter (exec (.gramAddrSet 64 16) readyState) = some [.tx [0xF8, 0x80, 0x00, 0x80, 0x00]] := by decide

/-- V8: the set word is the second cell of the burst. -/
theorem test_draw_row :
    traceAfter (exec (.drawRow 40) (readyWith (drawPixel 17 40 true []))) =
      some [.tx [0xF8, 0x80, 0x80, 0x80, 0x80], .tx (0xFA :: [0x00, 0x00, 0x00, 0x00, 0x40] ++ List.replicate 27 0x00)] := by
  decide

/-- V22: cells 0 and 1 of row 32. -/
theorem test_draw_sections :
    traceAfter (exec (.drawSectionsForBB 14 32 17 32) (readyWith (drawRegion 14 32 17 32 true []))) =
      some [.tx [0xF8, 0x80, 0x00, 0x80, 0x80], .tx [0xFA, 0x00, 0x00, 0x00, 0x30], .tx [0xF8, 0x80, 0x00, 0x80, 0x90],
        .tx [0xFA, 0xC0, 0x00, 0x00, 0x00]] := by decide

/-- V8: reversed `x` sends nothing. -/
theorem test_draw_sections_reversed :
    traceAfter (exec (.drawSectionsForBB 20 3 10 3) readyState) = some [] := by decide

/-- V8: the first write of `DRAW_ALL` fails (R265). -/
theorem test_draw_all_fault :
    faultAfter (exec .drawAll (readyWrites [.all, .count 32])) = some { kind := .transportWriteFailure, info := 32 } := by
  decide

/-- V13: the six events. -/
theorem test_construct :
    traceAfter (exec (.construct 0 0) offState) =
      some [.tx [0xF8, 0x30, 0x00], .settle, .tx [0xF8, 0x00, 0xC0], .settle, .tx [0xF8, 0x30, 0x60], .settle] := by decide

/-- V13: the second write fails. -/
theorem test_construct_fault :
    (let r := exec (.construct 0 0) { offState with env := { envT8 with writes := [.all, .error] } }
     (faultAfter r, traceAfter r)) =
      (some { kind := .transportWriteFailure, info := 0 }, some [.tx [0xF8, 0x30, 0x00], .settle]) := by decide

/-- R243: the first write of `DESTRUCT` fails. -/
theorem test_destruct_fault :
    faultAfter (exec .destruct (readyWrites [.error])) = some { kind := .transportWriteFailure, info := 0 } := by decide

/-- R284: a byte of each configuration row. -/
theorem test_wire_configuration :
    (panelAfter (exec (.wireFunctionSet false false) readyState)).map (fun p => (p.modeE, p.modeG)) = some (false, false) ∧
      (panelAfter (exec (.wireDisplayControl false true false) readyState)).map (fun p => (p.modeD, p.modeC, p.modeB)) =
        some (false, true, false) ∧
      (panelAfter (exec (.wireShiftControl false true) readyState)).map (fun p => (p.modeS, p.modeR)) = some (false, true) ∧
      (panelAfter (exec (.wireEntryMode true false) readyState)).map (fun p => (p.modeI, p.modeH)) = some (true, false) := by
  decide

/-- R283: the two address bytes. -/
theorem test_wire_address :
    (panelAfter (exec (.wireGramAddrRow 31) readyState)).map PanelRegs.ar = some 31 ∧
      (panelAfter (exec (.wireGramAddrCol 9) readyState)).map PanelRegs.ac = some 9 := by decide

/-- U14: with graphics off the block sends its frames, and nothing is said of the panel. -/
theorem test_flush_graphics_off :
    (match exec (.drawRow 40) graphicsOffState with
    | .next t => (t.trace.length, t.panel.standing, t.ci)
    | .fault _ => (0, .following, 0)
    | .refused _ => (0, .following, 0)) = (2, .unspecified, 1) := by decide

/-- U14: as instructions of their own the GRAM rows are refused with graphics off. -/
theorem test_wire_graphics_off :
    isNext (exec (.wireGramAddrRow 0) graphicsOffState) = false ∧ isNext (exec (.wireGramAddrCol 0) graphicsOffState) = false ∧
      isNext (exec (.wireData 0) graphicsOffState) = false := by decide

/-- R81, R82. -/
theorem test_wire_frame :
    (panelAfter (exec (.wireSync false true) readyState)).map (fun p => (p.rx.rs, p.rx.rw)) = some (true, false) ∧
      (panelAfter (exec (.wireNibbleHigh 0xA) readyState)).map (fun p => p.rx.high) = some (some 0xA) := by decide

/-- R282: the first byte of a pair is held. -/
theorem test_wire_data : (panelAfter (exec (.wireData 0x7E) readyState)).map (fun p => (p.bp, p.hb)) = some (true, 0x7E) := by
  decide

/-- R282: a row burst of two words leaves both in GRAM, high byte first. -/
theorem test_receive_words :
    (let p := listening.receive
       [0xF8, 0x80, 0x00, 0x80, 0x00, 0xFA, 0x10, 0x20, 0x30, 0x40, 0x50, 0x60, 0x70, 0x80]
     (gramRead p.gram 0 0, gramRead p.gram 0 1, p.regs.ac)) = (some 0x1234, some 0x5678, 2) := by decide

/-! ## The statements' hypotheses are met: for each a state and operands, boundary values where a clause has a range -/

theorem witness_DecodeOfEncode :
    Instr.wf (.setPixel (-32768) 32767 true) = true ∧ Instr.wf (.putString 0 0 [4294967295]) = true ∧
      Instr.wf (.setFontHeight 65535) = true ∧ Instr.wf (.gramAddrSet 255 255) = true ∧
      Instr.wf (.wireFunctionSet true true) = true ∧ Instr.wf (.setPixel (-8388608) 8388607 true) 24 = true := by decide

theorem witness_EncodeOfDecode :
    decode .host [0x14, 0xFF, 0xFF] = .ok (.setFontHeight 65535) ∧ decode .host [0x31, 0x80, 0x00, 0x00] 24 = .ok (.drawRow (-8388608)) := by
  decide

/-- A payload byte, a line byte, a descriptor, nothing. -/
theorem witness_StepRunsWhatWaits :
    (let s := placeBytes readyState (.instruction .first) [0x36]
     s.panel.regs.rx.payload = some 0x36 ∧ decode s.panel.payloadPort [0x36] = .ok (.wireFunctionSet true true)) ∧
    (let s := { readyState with line := [0xFA] }
     s.panel.regs.rx.payload = none ∧ s.line = 0xFA :: [] ∧
       decode s.panel.linePort [0xFA] = .ok (.wireSync false true)) ∧
    (let s := { readyState with port := [[0x30], [0x02]] }
     s.panel.regs.rx.payload = none ∧ s.line = [] ∧ s.port = [0x30] :: [[0x02]] ∧ decode .host [0x30] s.env.coordW = .ok .drawAll ∧
       Instr.issuable .drawAll = true) ∧
    (readyState.panel.regs.rx.payload = none ∧ readyState.line = [] ∧ readyState.port = []) :=
  ⟨⟨rfl, rfl⟩, ⟨rfl, rfl, rfl⟩, ⟨rfl, rfl, rfl, rfl, rfl⟩, rfl, rfl, rfl⟩

/-- A reserved code: no issuable operation has this descriptor. -/
theorem witness_HostPortRefusesOthers :
    (let s := { readyState with port := [[0x03]] }
     s.panel.regs.rx.payload = none ∧ s.line = [] ∧ s.port = [0x03] :: []) ∧
    ∀ i : Instr, i.wf readyState.env.coordW = true → i.port = .host → i.issuable = true →
      ([0x03] : List Byte) ≠ encode i readyState.env.coordW := by
  refine ⟨⟨rfl, rfl, rfl⟩, fun i _ hp _ h => ?_⟩
  cases i <;> simp [encode] at h <;> cases hp

/-- Pixels at the corners and at the bank switch, and the last bit of the last word. -/
theorem witness_PixelMapIsBijective :
    (127 < 128 ∧ 63 < 64) ∧ (0 < 128 ∧ 31 < 64) ∧ (0 < 128 ∧ 32 < 64) ∧ 31 < 32 ∧ 15 < 16 ∧ 15 < 16 := by decide

/-- Ready; the last pixel, and one column and one row past it. -/
theorem witness_SetPixelWritesOneBit :
    readyState.lc = .ready ∧ readyState.pbExists = true ∧ (127 < 128 ∧ 63 < 64) ∧
      ((127 : Int) < 0 ∨ 128 ≤ (127 : Int) ∨ (-1 : Int) < 0 ∨ 64 ≤ (-1 : Int)) ∧
      ((128 : Int) < 0 ∨ 128 ≤ (128 : Int) ∨ (63 : Int) < 0 ∨ 64 ≤ (63 : Int)) := by decide

theorem witness_SetPixelRoundTrips :
    readyState.lc = .ready ∧ readyState.pbExists = true ∧ (0 ≤ (127 : Int) ∧ (127 : Int) < 128 ∧ 0 ≤ (63 : Int) ∧ (63 : Int) < 64) ∧
      ((126, 63) : Int × Int) ≠ (127, 63) := by decide

theorem witness_SetRegionDrawsRectangle : readyState.lc = .ready ∧ readyState.pbExists = true := by decide

/-- The whole canvas. -/
theorem witness_RegionPixelCount :
    (0 : Int) ≤ 0 ∧ (0 : Int) ≤ 127 ∧ (127 : Int) ≤ 127 ∧ (0 : Int) ≤ 0 ∧ (0 : Int) ≤ 63 ∧ (63 : Int) ≤ 63 := by decide

/-- Width 1. -/
theorem witness_PutBitmapDrawsStream : readyState.lc = .ready ∧ readyState.pbExists = true ∧ (1 : Int) ≤ 1 := by decide

/-- A codepoint with a glyph, and one without. -/
theorem witness_PutCharPaintsGlyph :
    readyState.lc = .ready ∧ readyState.pbExists = true ∧ sizeAt readyState.env.font readyState.fh = some size8 ∧
      glyphAt size8 0x41 = some glyphA ∧
      ∀ size, sizeAt readyState.env.font readyState.fh = some size → glyphAt size 0x3F = none := by
  refine ⟨rfl, rfl, rfl, rfl, fun size h => ?_⟩
  obtain rfl : size8 = size := Option.some.inj h
  rfl

/-- "A?" at 126: the pen stops at 132, so the codepoint without a glyph is not looked at. -/
theorem witness_PutStringPaintsText :
    readyState.lc = .ready ∧ readyState.pbExists = true ∧ sizeAt readyState.env.font readyState.fh = some size8 ∧
      ∀ i cp, penReaches size8 126 [0x41, 0x3F] i → ([0x41, 0x3F] : List Nat)[i]? = some cp →
        (glyphAt size8 cp).isSome = true := by
  refine ⟨rfl, rfl, rfl, fun i cp h hcp => ?_⟩
  obtain ⟨hi, hm⟩ := h
  match i, hi with
  | 0, _ => obtain rfl : 0x41 = cp := Option.some.inj hcp; rfl
  | 1, _ => exact absurd (hm 1 (by decide) (by decide)) (by decide)

/-- "A?B" at 0: the second codepoint has no glyph; a height without a face; for the clause that nothing faults, the text of
`witness_PutStringPaintsText`. -/
theorem witness_PutStringStopsAtMissingGlyph :
    (readyState.lc = .ready ∧ readyState.pbExists = true ∧ sizeAt readyState.env.font readyState.fh = some size8 ∧
      penReaches size8 0 [0x41, 0x3F, 0x42] 1 ∧ ([0x41, 0x3F, 0x42] : List Nat)[1]? = some 0x3F ∧
      glyphAt size8 0x3F = none ∧
      ∀ j c, j < 1 → ([0x41, 0x3F, 0x42] : List Nat)[j]? = some c → (glyphAt size8 c).isSome = true) ∧
    (let s := { readyState with fh := 9 }
     s.lc = .ready ∧ s.pbExists = true ∧ sizeAt s.env.font s.fh = none) := by
  refine ⟨⟨rfl, rfl, rfl, ⟨by decide, fun m h1 h2 => ?_⟩, rfl, rfl, fun j c hj hc => ?_⟩, rfl, rfl, rfl⟩
  · obtain rfl : m = 1 := by omega
    decide
  · obtain rfl : j = 0 := by omega
    obtain rfl : 0x41 = c := Option.some.inj hc
    rfl

/-- An accepted and a rejected height. -/
theorem witness_SetFontHeightSetsOrFaults :
    readyState.lc = .ready ∧ fontSetOk readyState.env 8 = true ∧ fontSetOk readyState.env 9 = false := by decide

/-- Each configuration operation; a write that goes through, and one that reports a byte too few. -/
theorem witness_ConfigurationSendsItsByte :
    readyState.lc = .ready ∧
      (∃ ext gfx, Instr.setFunctionSet false true = .setFunctionSet ext gfx ∧
        (0x30 : Byte) = if ext then (if gfx then 0x36 else 0x34) else 0x30) ∧
      (∃ d c b, Instr.setDisplayControl true true true = .setDisplayControl d c b ∧
        (0x0F : Byte) = 0x08 ||| (flagBit d <<< 2) ||| (flagBit c <<< 1) ||| flagBit b) ∧
      (∃ sh right, Instr.setShiftControl true true = .setShiftControl sh right ∧
        (0x1C : Byte) = 0x10 ||| (flagBit sh <<< 3) ||| (flagBit right <<< 2)) ∧
      (∃ inc sh, Instr.setEntryMode true true = .setEntryMode inc sh ∧
        (0x07 : Byte) = 0x04 ||| (flagBit inc <<< 1) ||| flagBit sh) ∧
      goesThrough [0xF8, 0x30, 0x00] ((readyWrites [.count 3]).env.writes.headD .all) = true ∧
      goesThrough [0xF8, 0x30, 0x00] ((readyWrites [.count 2]).env.writes.headD .all) = false :=
  ⟨rfl, ⟨_, _, rfl, rfl⟩, ⟨_, _, _, rfl, rfl⟩, ⟨_, _, rfl, rfl⟩, ⟨_, _, rfl, rfl⟩, rfl, rfl⟩

/-- An empty payload; a write that goes through and one that answers `Error`. -/
theorem witness_SendWritesOneFrame :
    readyState.lc = .ready ∧
      ([0xFE] : List Byte) = (0xF8 ||| (flagBit true <<< 2) ||| (flagBit true <<< 1)) ::
        ([] : List Byte).flatMap (fun b => [b &&& 0xF0, (b &&& 0x0F) <<< 4]) ∧
      goesThrough [0xFE] (readyState.env.writes.headD .all) = true ∧
      goesThrough [0xFE] ((readyWrites [.error]).env.writes.headD .all) = false := by decide

theorem witness_GramAddrSetWritesOneFrame :
    readyState.lc = .ready ∧ goesThrough (addressFrame 64 16) ((readyWrites [.count 5]).env.writes.headD .all) = true ∧
      goesThrough (addressFrame 64 16) ((readyWrites [.count 4]).env.writes.headD .all) = false := by decide

/-- Row 63: both frames, none, and only the address frame. -/
theorem witness_DrawRowSendsTheRow :
    readyState.lc = .ready ∧ readyState.pbExists = true ∧ 63 ≤ 63 ∧
      framesThrough (rowFrames readyState.pb 63) readyState.env.writes = 2 ∧
      framesThrough (rowFrames readyState.pb 63) (readyWrites [.error]).env.writes = 0 ∧
      framesThrough (rowFrames readyState.pb 63) (readyWrites [.all, .count 32]).env.writes = 1 := by decide

/-- All 128 frames, none, and all but the last. -/
theorem witness_DrawAllSendsEveryRow :
    readyState.lc = .ready ∧ readyState.pbExists = true ∧
      framesThrough (canvasFrames readyState.pb) readyState.env.writes = 128 ∧
      framesThrough (canvasFrames readyState.pb) (readyWrites [.error]).env.writes = 0 ∧
      framesThrough (canvasFrames readyState.pb) (readyWrites (List.replicate 127 .all ++ [.error])).env.writes = 127 := by
  decide

/-- The last pixel's cell; its data frame fails; and a reversed box. -/
theorem witness_DrawSectionsSendsTouchedCells :
    readyState.lc = .ready ∧ readyState.pbExists = true ∧ 127 ≤ 127 ∧ 63 ≤ 63 ∧
      framesThrough (boxFrames readyState.pb 127 63 127 63) readyState.env.writes =
        (boxFrames readyState.pb 127 63 127 63).length ∧
      1 < (boxFrames readyState.pb 127 63 127 63).length ∧
      framesThrough (boxFrames readyState.pb 127 63 127 63) (readyWrites [.count 5, .count 4]).env.writes = 1 ∧
      framesThrough (boxFrames readyState.pb 20 3 10 3) readyState.env.writes =
        (boxFrames readyState.pb 20 3 10 3).length := by decide

theorem witness_FlushSizes :
    readyState.lc = .ready ∧ readyState.pbExists = true ∧ linkSound readyState = true ∧ 63 ≤ 63 ∧ 127 ≤ 127 := by decide

/-- Listening, and with graphics off or in the basic set. -/
theorem witness_DrawRowReachesGram :
    readyState.lc = .ready ∧ readyState.pbExists = true ∧ 63 ≤ 63 ∧ linkSound readyState = true ∧
      panelListening readyState.panel = true ∧ readyState.panel.autoInc = true ∧
      panelDeaf graphicsOffState.panel = true ∧
      panelDeaf { readyState.panel with regs := { readyState.panel.regs with modeE := false } } = true ∧
      (31 = 63 % 32 ∧ 15 / 8 = 63 / 32) ∧ ¬(31 = 63 % 32 ∧ 7 / 8 = 63 / 32) := by decide

/-- The last pixel's cell, also with a panel that does not increment. -/
theorem witness_DrawSectionsReachesGram :
    readyState.lc = .ready ∧ readyState.pbExists = true ∧ linkSound readyState = true ∧ 127 ≤ 127 ∧ 63 ≤ 63 ∧
      panelListening readyState.panel = true ∧ panelListening { readyState.panel with autoInc := false } = true ∧
      (63 ≤ 63 ∧ 63 ≤ 63 ∧ 127 / 16 ≤ 7 ∧ 7 ≤ 127 / 16) ∧ ¬(63 ≤ 62 ∧ 62 ≤ 63 ∧ 127 / 16 ≤ 7 ∧ 7 ≤ 127 / 16) := by decide

theorem witness_DrawAllShowsCanvas :
    readyState.lc = .ready ∧ readyState.pbExists = true ∧ linkSound readyState = true ∧
      panelListening readyState.panel = true ∧ readyState.panel.autoInc = true ∧ readyState.panel.regs.modeD = true := by
  decide

theorem witness_ConstructSucceeds :
    offState.lc = .off ∧ offState.env.unopenable.contains ((0, 0) : Byte × Byte) = false ∧ offState.env.configureOk = true ∧
      offState.env.loadFaceOk = true ∧
      framesThrough [[0xF8, 0x30, 0x00], [0xF8, 0x00, 0xC0], [0xF8, 0x30, 0x60]] offState.env.writes = 3 ∧
      fontSetOk offState.env offState.env.initFontHeight = true := by decide

/-- Each failure in turn: open, configure, load face, the first and the third frame, the height. -/
theorem witness_ConstructFaultsInOrder :
    offState.lc = .off ∧ ({ envT8 with unopenable := [(1, 2)] } : Env).unopenable.contains ((1, 2) : Byte × Byte) = true ∧
      envT8.unopenable.contains ((1, 2) : Byte × Byte) = false ∧
      ({ envT8 with configureOk := false } : Env).configureOk = false ∧ envT8.configureOk = true ∧
      ({ envT8 with loadFaceOk := false } : Env).loadFaceOk = false ∧ envT8.loadFaceOk = true ∧
      framesThrough [[0xF8, 0x30, 0x00], [0xF8, 0x00, 0xC0], [0xF8, 0x30, 0x60]] [.error] = 0 ∧
      framesThrough [[0xF8, 0x30, 0x00], [0xF8, 0x00, 0xC0], [0xF8, 0x30, 0x60]] [.all, .count 3, .count 2] = 2 ∧
      framesThrough [[0xF8, 0x30, 0x00], [0xF8, 0x00, 0xC0], [0xF8, 0x30, 0x60]] [] = 3 ∧
      fontSetOk { envT8 with initFontHeight := 9 } 9 = false := by decide

/-- The invariant holds before `CONSTRUCT`, whatever the environment. -/
theorem offState_inv (env : Env) : State.Inv { offState with env := env } where
  pbCanonical := rfl
  gramCanonical := rfl
  faultRecorded := by simp [offState, State.reset]
  linkOpen := by simp [offState, State.reset]
  faceOpen := by simp [offState, State.reset]
  pbWhenReady := by simp [offState, State.reset]
  pbEmptyWhenAbsent := by simp [offState, State.reset]
  pbAbsentOutside := by simp [offState, State.reset]
  heightAccepted := by simp [offState, State.reset]
  quietBefore := by simp [offState, State.reset]

theorem witness_OpenAndConfigureErrorsLeaveNothing :
    State.Inv { offState with env := { envT8 with unopenable := [(1, 2)] } } ∧
      State.Inv { offState with env := { envT8 with configureOk := false } } ∧ offState.lc = .off ∧
      ({ envT8 with unopenable := [(1, 2)] } : Env).unopenable.contains ((1, 2) : Byte × Byte) = true ∧
      ({ envT8 with configureOk := false } : Env).unopenable.contains ((1, 2) : Byte × Byte) = false ∧
      ({ envT8 with configureOk := false } : Env).configureOk = false :=
  ⟨offState_inv _, offState_inv _, rfl, rfl, rfl, rfl⟩

/-- A floor exactly as long as the settle delay. -/
theorem witness_ConstructConfiguresPanel :
    offState.lc = .off ∧ offState.env.unopenable.contains ((0, 0) : Byte × Byte) = false ∧ offState.env.configureOk = true ∧
      offState.env.loadFaceOk = true ∧ linkSound offState = true ∧
      fontSetOk offState.env offState.env.initFontHeight = true ∧ panelPaced offState = true ∧
      offState.panel.floorUs = offState.env.settleMin := by decide

theorem witness_ConfigurationSetsPanelBits :
    readyState.lc = .ready ∧ linkSound readyState = true ∧ panelPaced readyState = true := by decide

/-- All 128 frames, none, and all but the last. -/
theorem witness_DestructClearsAndCloses :
    readyState.lc = .ready ∧ readyState.pbExists = true ∧ ∃ frames : List (List Byte),
      frames = (List.range 64).flatMap (fun r =>
        [addressFrame (r % 32) (if 32 ≤ r then 8 else 0), 0xFA :: List.replicate 32 0]) ∧
      framesThrough frames readyState.env.writes = 128 ∧ framesThrough frames (readyWrites [.error]).env.writes = 0 ∧
      framesThrough frames (readyWrites (List.replicate 127 .all ++ [.error])).env.writes = 127 :=
  ⟨rfl, rfl, _, rfl, by decide, by decide, by decide⟩

theorem witness_DestructClearsGram :
    readyState.lc = .ready ∧ readyState.pbExists = true ∧ linkSound readyState = true ∧
      panelListening readyState.panel = true ∧ readyState.panel.autoInc = true := by decide

/-- An operation that completes, one that faults, `CONSTRUCT` and `DESTRUCT`. -/
theorem witness_LifecycleTransitions :
    Instr.issuable (.setPixel 0 0 true) = true ∧ Instr.issuable (.setFontHeight 9) = true ∧
      Instr.issuable (.construct 0 0) = true ∧ Instr.issuable .destruct = true ∧
      (∃ t, exec (.setPixel 0 0 true) readyState = .next t) ∧ (∃ t, exec (.setFontHeight 9) readyState = .next t) ∧
      (∃ t, exec (.construct 0 0) offState = .next t) ∧ ∃ t, exec .destruct readyState = .next t :=
  ⟨rfl, rfl, rfl, rfl, ⟨_, rfl⟩, ⟨_, rfl⟩, ⟨_, rfl⟩, ⟨_, rfl⟩⟩

/-- Each clause: outside `READY`, outside `OFF`, and in `READY` a row, a corner and a width just off their range. -/
theorem witness_RefusedOperations :
    (Instr.port .drawAll = .host ∧ (∀ a b, Instr.drawAll ≠ .construct a b) ∧ offState.lc ≠ .ready) ∧ readyState.lc ≠ .off ∧
      readyState.lc = .ready ∧ readyState.pbExists = true ∧ ((-1 : Int) < 0 ∨ 63 < (-1 : Int)) ∧
      ((64 : Int) < 0 ∨ 63 < (64 : Int)) ∧ (127 : Int) < 128 ∧ (63 : Int) < 64 ∧ (0 : Int) < 1 :=
  ⟨⟨rfl, by simp, by decide⟩, by decide, rfl, rfl, by decide, by decide, by decide, by decide, by decide⟩

/-- The host's first descriptor is `CONSTRUCT`. -/
theorem witness_InvKeptByStep :
    State.Inv offState ∧ State.Inv State.reset ∧ (∃ t, step State.reset = .next t) ∧
      ∃ t, step { offState with port := [[0x01, 0x00, 0x00]] } = .next t :=
  ⟨offState_inv envT8, offState_inv Env.reset, ⟨_, rfl⟩, ⟨_, rfl⟩⟩

theorem witness_FramesKeptWellFormed :
    State.trace { readyState with trace := [.tx [0xFA, 0xA0, 0xB0], .settle] } = [.tx [0xFA, 0xA0, 0xB0], .settle] ∧
      ([.tx [0xFA, 0xA0, 0xB0], .settle] : List Event).all wellFramed = true ∧
      ∃ t, step { readyState with trace := [.tx [0xFA, 0xA0, 0xB0], .settle], port := [[0x31, 0x00, 0x3F]] } = .next t :=
  ⟨rfl, by decide, _, rfl⟩

theorem witness_PacingKept :
    paced [.tx [0xF8, 0x30, 0x00], .settle] = true ∧
      ∃ t, step { readyState with trace := [.tx [0xF8, 0x30, 0x00], .settle], port := [[0x13, 0x01, 0x00]] } = .next t :=
  ⟨by decide, _, rfl⟩

theorem witness_TraceOnlyGrows : ∃ t, step { readyState with port := [[0x30]] } = .next t := ⟨_, rfl⟩

theorem witness_DrawingReachesNothingOutside :
    (∃ t, exec (.setPixel 0 0 true) readyState = .next t) ∧ (∃ t, exec (.setRegion 0 0 1 1 true) readyState = .next t) ∧
      (∃ t, exec (.putString 0 0 [0x3F]) readyState = .next t) ∧
      (∃ t, exec (.putBitmap 0 0 1 [0xA5]) readyState = .next t) ∧ (∃ t, exec (.putChar 0 0 0x41) readyState = .next t) ∧
      ∃ t, exec (.setFontHeight 9) readyState = .next t :=
  ⟨⟨_, rfl⟩, ⟨_, rfl⟩, ⟨_, rfl⟩, ⟨_, rfl⟩, ⟨_, rfl⟩, ⟨_, rfl⟩⟩

theorem witness_SendingKeepsPixelBuffer :
    (∃ t, exec (.setFunctionSet true true) readyState = .next t) ∧ (∃ t, exec .drawAll readyState = .next t) ∧
      (∃ t, exec (.drawRow 63) readyState = .next t) ∧ (∃ t, exec (.send true false []) (readyWrites [.error]) = .next t) ∧
      ∃ t, exec (.gramAddrSet 0 0) readyState = .next t :=
  ⟨⟨_, rfl⟩, ⟨_, rfl⟩, ⟨_, rfl⟩, ⟨_, rfl⟩, ⟨_, rfl⟩⟩

/-- A text that faults, over a buffer with a pixel on. -/
theorem witness_TextAndBitmapsOnlySetBits :
    (∃ t, exec (.putString 0 0 [0x41, 0x3F]) (readyWith (drawPixel 127 63 true [])) = .next t) ∧
      pixelOf (readyWith (drawPixel 127 63 true [])).pb 127 63 = true ∧ 127 < 128 ∧ 63 < 64 :=
  ⟨⟨_, rfl⟩, by decide, by decide, by decide⟩

theorem witness_PanelDoesNotSteerBlock :
    Instr.port .drawAll = .host ∧ (∃ t, exec .drawAll readyState = .next t) ∧ exec .drawAll offState = .refused .notReady ∧
      exec .drawAll { readyState with pbExists := false } = .fault .noPixelBuffer :=
  ⟨rfl, ⟨_, rfl⟩, rfl, rfl⟩

theorem witness_WireRowsTouchPanelOnly :
    Instr.port (.wireData 0) ≠ .host ∧ ∃ t, exec (.wireData 0) readyState = .next t := ⟨by decide, _, rfl⟩

theorem witness_WireConfigurationBytesSetBits : readyState.panel.standing = .following ∧ (true || !true) = true := by decide

/-- The last row. -/
theorem witness_WireAddressBytesPoint :
    readyState.panel.standing = .following ∧ readyState.panel.regs.modeE = true ∧ readyState.panel.regs.modeG = true ∧
      (31 : BitVec 6).toNat < 32 := by decide

/-- A panel that is not busy, and one with a nibble waiting. -/
theorem witness_WireFrameBytesBuildPayload :
    readyState.panel.standing = .following ∧ readyState.panel.regs.busyUs = 0 ∧
      ({ readyState.panel.regs.rx with high := some 0xF } : FrameRx).high = some 0xF := by decide

/-- The first and the second byte of a pair; columns 14 and 15; with and without `AUTO_INC`; the last row. -/
theorem witness_WireDataWritesWordCells :
    readyState.panel.standing = .following ∧ readyState.panel.regs.modeE = true ∧ readyState.panel.regs.modeG = true ∧
      readyState.panel.regs.bp = false ∧
      readyState.panel.autoInc = true ∧ ({ readyState.panel with autoInc := false } : Panel).autoInc = false ∧
      ({ readyState.panel.regs with bp := true, ar := 31, ac := 14 } : PanelRegs).bp = true ∧ (31 : BitVec 6).toNat < 32 ∧
      (14 : BitVec 4) ≠ 15 ∧ (15 : BitVec 4) = 15 := by decide

/-- Each clause: no model of the panel; the basic set; graphics off; row 32; no partner. -/
theorem witness_WireStops :
    ({ readyState.panel with standing := .unspecified } : Panel).standing = .unspecified ∧ Instr.port (.wireSync false true) ≠ .host ∧
      readyState.panel.standing = .following ∧ State.reset.panel.standing = .following ∧
      State.reset.panel.regs.modeE = false ∧ graphicsOffState.panel.standing = .following ∧
      graphicsOffState.panel.regs.modeE = true ∧ graphicsOffState.panel.regs.modeG = false ∧
      readyState.panel.regs.modeE = true ∧ readyState.panel.regs.modeG = true ∧ 31 < (32 : BitVec 6).toNat ∧
      ({ readyState.panel.regs with bp := true, ar := 32 } : PanelRegs).bp = true ∧ readyState.panel.regs.rx.high = none := by
  decide

/-- One microsecond left. -/
theorem witness_EarlyFrameLosesPanel :
    readyState.panel.standing = .following ∧ ({ readyState.panel.regs with busyUs := 1 } : PanelRegs).busyUs ≠ 0 := by decide

/-- Graphics off; the last pixel's cell. -/
theorem witness_FlushOutsideGraphicsLosesPanel :
    graphicsOffState.lc = .ready ∧ graphicsOffState.pbExists = true ∧ linkSound graphicsOffState = true ∧
      panelDeaf graphicsOffState.panel = true ∧ 127 ≤ 127 ∧ 63 ≤ 63 ∧ 127 / 16 ≤ 127 / 16 := by decide

/-- A panel that is followed and has no byte to act on, with a byte of each kind; and one that is not followed. -/
theorem witness_PanelGivesUpAtMeaninglessBytes :
    listening.standing = .following ∧ listening.regs.rx.payload = none ∧ lineByteMeaningless listening 0xFA = false ∧
      lineByteMeaningless listening 0x30 = true ∧ lineByteMeaningless listening 0x01 = true ∧
      listening.giveUp.standing = .unspecified := by decide

end Sys2Proof.Tests
end

section
/-! The scope family: the decoder and the encoder are inverse to each other (R101 to R105, R81 to R93), and a step runs what
the next place to be read decodes to (R104, R300). -/

namespace Sys2Proof

/-! ## A host operation is read back from its descriptor -/

/-- The encoding of a host operation is self-delimiting: with more bytes behind it, the decoder reaches the end of the operation
and judges those bytes alone (R105). -/
theorem decode_encode_append {w : Nat} {i : Instr} (hp : i.port = .host) (h : i.wf w = true) (rest : List Byte) :
    decode .host (encode i w ++ rest) w = finishAt i rest := by
  cases i with
  | construct busId deviceId => rfl
  | destruct => rfl
  | setFunctionSet ext gfx =>
    simp only [encode, List.cons_append, List.append_assoc, decode_host_setFunctionSet, readBool_encBool]
  | setDisplayControl d c b =>
    simp only [encode, List.cons_append, List.append_assoc, decode_host_setDisplayControl, readBool_encBool]
  | setShiftControl s right =>
    simp only [encode, List.cons_append, List.append_assoc, decode_host_setShiftControl, readBool_encBool]
  | setEntryMode inc sh =>
    simp only [encode, List.cons_append, List.append_assoc, decode_host_setEntryMode, readBool_encBool]
  | setFontHeight px =>
    simp only [encode, List.cons_append, decode_host_setFontHeight, readU16_encU16 h]
  | setPixel x y on =>
    simp only [Instr.wf, Bool.and_eq_true] at h
    obtain ⟨hx, hy⟩ := h
    simp only [encode, List.cons_append, List.append_assoc, decode_host_setPixel, readCoord_encCoord hx,
      readCoord_encCoord hy, readBool_encBool]
  | setRegion x1 y1 x2 y2 on =>
    simp only [Instr.wf, Bool.and_eq_true] at h
    obtain ⟨⟨⟨hx1, hy1⟩, hx2⟩, hy2⟩ := h
    simp only [encode, List.cons_append, List.append_assoc, decode_host_setRegion, readCoord_encCoord hx1,
      readCoord_encCoord hy1, readCoord_encCoord hx2, readCoord_encCoord hy2, readBool_encBool]
  | putString x y text =>
    simp only [Instr.wf, Bool.and_eq_true] at h
    obtain ⟨⟨⟨hx, hy⟩, hlen⟩, htext⟩ := h
    simp only [encode, List.cons_append, List.append_assoc, decode_host_putString, readCoord_encCoord hx,
      readCoord_encCoord hy, readU16_encU16 hlen, readCps_encCps htext]
  | putBitmap x y width data =>
    simp only [Instr.wf, Bool.and_eq_true] at h
    obtain ⟨⟨⟨hx, hy⟩, hwidth⟩, hlen⟩ := h
    simp only [encode, List.cons_append, List.append_assoc, decode_host_putBitmap, readCoord_encCoord hx,
      readCoord_encCoord hy, readCoord_encCoord hwidth, readU16_encU16 hlen, readBytes_append]
  | drawAll => rfl
  | drawRow r =>
    simp only [encode, List.cons_append, decode_host_drawRow, readCoord_encCoord h]
  | drawSectionsForBB x1 y1 x2 y2 =>
    simp only [Instr.wf, Bool.and_eq_true] at h
    obtain ⟨⟨⟨hx1, hy1⟩, hx2⟩, hy2⟩ := h
    simp only [encode, List.cons_append, List.append_assoc, decode_host_drawSectionsForBB, readCoord_encCoord hx1,
      readCoord_encCoord hy1, readCoord_encCoord hx2, readCoord_encCoord hy2]
  | send rs rw data =>
    simp only [encode, List.cons_append, List.append_assoc, decode_host_send, readBool_encBool, readU16_encU16 h,
      readBytes_append]
  | gramAddrSet row col =>
    simp only [Instr.wf, Bool.and_eq_true, fitsU8, decide_eq_true_eq] at h
    obtain ⟨hrow, hcol⟩ := h
    simp only [encode, List.cons_append, List.nil_append, decode_host_gramAddrSet, readU8_cons, BitVec.toNat_ofNat,
      Nat.mod_eq_of_lt hrow, Nat.mod_eq_of_lt hcol]
  | putChar x y codepoint =>
    simp only [Instr.wf, Bool.and_eq_true] at h
    obtain ⟨⟨hx, hy⟩, hcp⟩ := h
    simp only [encode, List.cons_append, List.append_assoc, decode_host_putChar, readCoord_encCoord hx,
      readCoord_encCoord hy, readU32_encU32 hcp]
  | _ => exact Port.noConfusion hp

theorem decode_encode_host {w : Nat} {i : Instr} (hp : i.port = .host) (h : i.wf w = true) :
    decode .host (encode i w) w = .ok i := by
  simpa only [List.append_nil, finishAt] using decode_encode_append hp h []

/-! ## A wire-level row is read back from its byte -/

theorem decode_encode_wire {w : Nat} {i : Instr} (hp : i.port ≠ .host) (h : i.wf w = true) :
    decode i.port (encode i w) w = .ok i := by
  cases i with
  | wireFunctionSet e g =>
    cases e <;> cases g
    case false.true => exact absurd h Bool.false_ne_true
    all_goals rfl
  | wireDisplayControl d c b => cases d <;> cases c <;> cases b <;> rfl
  | wireShiftControl s r => cases s <;> cases r <;> rfl
  | wireEntryMode inc sh => cases inc <;> cases sh <;> rfl
  | wireGramAddrRow row =>
    have hrow : ∀ row : BitVec 6, decodeFirstByte (0b10#2 ++ row) = .ok (.wireGramAddrRow row) := by decide
    exact hrow row
  | wireGramAddrCol col =>
    have hcol : ∀ col : BitVec 4, decodeColumnByte (0b1000#4 ++ col) = .ok (.wireGramAddrCol col) := by decide
    exact hcol col
  | wireSync rw rs => cases rw <;> cases rs <;> rfl
  | wireNibbleHigh n =>
    have hhigh : ∀ n : BitVec 4, decodeFrameByte true false (n ++ 0#4) = .ok (.wireNibbleHigh n) := by decide
    exact hhigh n
  | wireNibbleLow l =>
    have hlow : ∀ l : BitVec 4, decodeFrameByte true true (l ++ 0#4) = .ok (.wireNibbleLow l) := by decide
    exact hlow l
  | wireData d => rfl
  | _ => exact absurd rfl hp

/-! ## Whatever decodes is the encoding of what it decodes to -/

/-- What the host port reads after an operation code is a well-formed host operation, and the code and the operands are its
encoding (R103, R105). -/
theorem encode_of_decodeOperands {w code : Nat} {l : List Byte} {i : Instr} (h : decodeOperands w code l = .ok i) :
    i.port = .host ∧ i.wf w = true ∧ encode i w = BitVec.ofNat 8 code :: l := by
  unfold decodeOperands at h
  split at h
  · -- `CONSTRUCT`
    obtain ⟨busId, _, rfl, h1⟩ := readU8_ok h
    obtain ⟨deviceId, _, rfl, h2⟩ := readU8_ok h1
    obtain ⟨rfl, rfl⟩ := finishAt_ok h2
    exact ⟨rfl, rfl, rfl⟩
  · -- `DESTRUCT`
    obtain ⟨rfl, rfl⟩ := finishAt_ok h
    exact ⟨rfl, rfl, rfl⟩
  · -- `SET_FUNCTION_SET`
    obtain ⟨ext, _, rfl, h1⟩ := readBool_ok h
    obtain ⟨gfx, _, rfl, h2⟩ := readBool_ok h1
    obtain ⟨rfl, rfl⟩ := finishAt_ok h2
    exact ⟨rfl, rfl, rfl⟩
  · -- `SET_DISPLAY_CONTROL`
    obtain ⟨d, _, rfl, h1⟩ := readBool_ok h
    obtain ⟨c, _, rfl, h2⟩ := readBool_ok h1
    obtain ⟨b, _, rfl, h3⟩ := readBool_ok h2
    obtain ⟨rfl, rfl⟩ := finishAt_ok h3
    exact ⟨rfl, rfl, rfl⟩
  · -- `SET_SHIFT_CONTROL`
    obtain ⟨s, _, rfl, h1⟩ := readBool_ok h
    obtain ⟨right, _, rfl, h2⟩ := readBool_ok h1
    obtain ⟨rfl, rfl⟩ := finishAt_ok h2
    exact ⟨rfl, rfl, rfl⟩
  · -- `SET_ENTRY_MODE`
    obtain ⟨inc, _, rfl, h1⟩ := readBool_ok h
    obtain ⟨sh, _, rfl, h2⟩ := readBool_ok h1
    obtain ⟨rfl, rfl⟩ := finishAt_ok h2
    exact ⟨rfl, rfl, rfl⟩
  · -- `SET_FONT_HEIGHT`
    obtain ⟨px, _, hpx, rfl, h1⟩ := readU16_ok h
    obtain ⟨rfl, rfl⟩ := finishAt_ok h1
    exact ⟨rfl, hpx, by simp [encode]⟩
  · -- `SET_PIXEL`
    obtain ⟨x, _, hx, rfl, h1⟩ := readCoord_ok h
    obtain ⟨y, _, hy, rfl, h2⟩ := readCoord_ok h1
    obtain ⟨on, _, rfl, h3⟩ := readBool_ok h2
    obtain ⟨rfl, rfl⟩ := finishAt_ok h3
    exact ⟨rfl, by simp [Instr.wf, hx, hy], by simp [encode]⟩
  · -- `SET_REGION`
    obtain ⟨x1, _, hx1, rfl, h1⟩ := readCoord_ok h
    obtain ⟨y1, _, hy1, rfl, h2⟩ := readCoord_ok h1
    obtain ⟨x2, _, hx2, rfl, h3⟩ := readCoord_ok h2
    obtain ⟨y2, _, hy2, rfl, h4⟩ := readCoord_ok h3
    obtain ⟨on, _, rfl, h5⟩ := readBool_ok h4
    obtain ⟨rfl, rfl⟩ := finishAt_ok h5
    exact ⟨rfl, by simp [Instr.wf, hx1, hy1, hx2, hy2], by simp [encode]⟩
  · -- `PUT_STRING`
    obtain ⟨x, _, hx, rfl, h1⟩ := readCoord_ok h
    obtain ⟨y, _, hy, rfl, h2⟩ := readCoord_ok h1
    obtain ⟨_, _, hlen, rfl, h3⟩ := readU16_ok h2
    obtain ⟨text, _, rfl, htext, rfl, h4⟩ := readCps_ok h3
    obtain ⟨rfl, rfl⟩ := finishAt_ok h4
    exact ⟨rfl, by simp only [Instr.wf, hx, hy, hlen, htext, Bool.and_self], by simp [encode]⟩
  · -- `PUT_BITMAP`
    obtain ⟨x, _, hx, rfl, h1⟩ := readCoord_ok h
    obtain ⟨y, _, hy, rfl, h2⟩ := readCoord_ok h1
    obtain ⟨width, _, hwidth, rfl, h3⟩ := readCoord_ok h2
    obtain ⟨_, _, hlen, rfl, h4⟩ := readU16_ok h3
    obtain ⟨data, _, rfl, rfl, h5⟩ := readBytes_ok h4
    obtain ⟨rfl, rfl⟩ := finishAt_ok h5
    exact ⟨rfl, by simp [Instr.wf, hx, hy, hwidth, hlen], by simp [encode]⟩
  · -- `DRAW_ALL`
    obtain ⟨rfl, rfl⟩ := finishAt_ok h
    exact ⟨rfl, rfl, rfl⟩
  · -- `DRAW_ROW`
    obtain ⟨r, _, hr, rfl, h1⟩ := readCoord_ok h
    obtain ⟨rfl, rfl⟩ := finishAt_ok h1
    exact ⟨rfl, hr, by simp [encode]⟩
  · -- `DRAW_SECTIONS_FOR_BB`
    obtain ⟨x1, _, hx1, rfl, h1⟩ := readCoord_ok h
    obtain ⟨y1, _, hy1, rfl, h2⟩ := readCoord_ok h1
    obtain ⟨x2, _, hx2, rfl, h3⟩ := readCoord_ok h2
    obtain ⟨y2, _, hy2, rfl, h4⟩ := readCoord_ok h3
    obtain ⟨rfl, rfl⟩ := finishAt_ok h4
    exact ⟨rfl, by simp [Instr.wf, hx1, hy1, hx2, hy2], by simp [encode]⟩
  · -- `SEND`
    obtain ⟨rs, _, rfl, h1⟩ := readBool_ok h
    obtain ⟨rw, _, rfl, h2⟩ := readBool_ok h1
    obtain ⟨_, _, hlen, rfl, h3⟩ := readU16_ok h2
    obtain ⟨data, _, rfl, rfl, h4⟩ := readBytes_ok h3
    obtain ⟨rfl, rfl⟩ := finishAt_ok h4
    exact ⟨rfl, hlen, by simp [encode]⟩
  · -- `GRAM_ADDR_SET`
    obtain ⟨row, _, rfl, h1⟩ := readU8_ok h
    obtain ⟨col, _, rfl, h2⟩ := readU8_ok h1
    obtain ⟨rfl, rfl⟩ := finishAt_ok h2
    exact ⟨rfl, by simp [Instr.wf, fitsU8, row.isLt, col.isLt], by simp [encode]⟩
  · -- `PUT_CHAR`
    obtain ⟨x, _, hx, rfl, h1⟩ := readCoord_ok h
    obtain ⟨y, _, hy, rfl, h2⟩ := readCoord_ok h1
    obtain ⟨cp, _, hcp, rfl, h3⟩ := readU32_ok h2
    obtain ⟨rfl, rfl⟩ := finishAt_ok h3
    exact ⟨rfl, by simp [Instr.wf, hx, hy, hcp], by simp [encode]⟩
  · -- a reserved code
    cases h

theorem encode_of_decode_host {w : Nat} {d : List Byte} {i : Instr} (h : decode .host d w = .ok i) :
    i.port = .host ∧ i.wf w = true ∧ encode i w = d := by
  cases d with
  | nil => cases h
  | cons code rest =>
    obtain ⟨hport, hwf, henc⟩ := encode_of_decodeOperands h
    rw [BitVec.ofNat_toNat, BitVec.setWidth_eq] at henc
    exact ⟨hport, hwf, henc⟩

/-! ### A byte that matches a row's mask is made of that row's pattern and its own operand bits (R81, R82, R86 to R90) -/

theorem syncPattern_of_mask : ∀ b : Byte, b &&& 0xF9 = 0xF8 →
    0b11111#5 ++ BitVec.ofBool (b.getLsbD 2) ++ BitVec.ofBool (b.getLsbD 1) ++ 0#1 = b := by decide

theorem nibblePattern_of_mask : ∀ b : Byte, b &&& 0x0F = 0x00 → b.extractLsb' 4 4 ++ 0#4 = b := by decide

theorem rowPattern_of_mask : ∀ b : Byte, b &&& 0xC0 = 0x80 → 0b10#2 ++ b.extractLsb' 0 6 = b := by decide

theorem colPattern_of_mask : ∀ b : Byte, b &&& 0xF0 = 0x80 → 0b1000#4 ++ b.extractLsb' 0 4 = b := by decide

theorem functionSetPattern_of_mask : ∀ b : Byte, b &&& 0xF9 = 0x30 →
    0b00110#5 ++ BitVec.ofBool (b.getLsbD 2) ++ BitVec.ofBool (b.getLsbD 1) ++ 0#1 = b := by decide

theorem shiftControlPattern_of_mask : ∀ b : Byte, b &&& 0xF3 = 0x10 →
    0b0001#4 ++ BitVec.ofBool (b.getLsbD 3) ++ BitVec.ofBool (b.getLsbD 2) ++ 0#2 = b := by decide

theorem displayControlPattern_of_mask : ∀ b : Byte, b &&& 0xF8 = 0x08 →
    0b00001#5 ++ BitVec.ofBool (b.getLsbD 2) ++ BitVec.ofBool (b.getLsbD 1) ++ BitVec.ofBool (b.getLsbD 0) = b := by decide

theorem entryModePattern_of_mask : ∀ b : Byte, b &&& 0xFC = 0x04 →
    0b000001#6 ++ BitVec.ofBool (b.getLsbD 1) ++ BitVec.ofBool (b.getLsbD 0) = b := by decide

theorem encode_of_decodeFrameByte {inFrame awaitLow : Bool} {b : Byte} {i : Instr} (w : Nat)
    (h : decodeFrameByte inFrame awaitLow b = .ok i) : i.wf w = true ∧ encode i w = [b] := by
  unfold decodeFrameByte at h
  split at h
  next hsync => cases h; exact ⟨rfl, congrArg ([·]) (syncPattern_of_mask b hsync)⟩
  next =>
    split at h
    next hnib =>
      have henc := congrArg ([·]) (nibblePattern_of_mask b hnib)
      cases inFrame with
      | false => cases h
      | true => cases awaitLow <;> cases h <;> exact ⟨rfl, henc⟩
    next => cases h

theorem encode_of_decodeFirstByte {b : Byte} {i : Instr} (w : Nat) (h : decodeFirstByte b = .ok i) :
    i.wf w = true ∧ encode i w = [b] := by
  unfold decodeFirstByte at h
  split at h
  next hrow => cases h; exact ⟨rfl, congrArg ([·]) (rowPattern_of_mask b hrow)⟩
  next =>
  split at h
  next hset =>
    split at h
    next => cases h
    next hemitted =>
      cases h
      have hwf : ∀ e g : Bool, ¬(g && !e) = true → (e || !g) = true := by decide
      exact ⟨hwf _ _ hemitted, congrArg ([·]) (functionSetPattern_of_mask b hset)⟩
  next =>
  split at h
  next hshift => cases h; exact ⟨rfl, congrArg ([·]) (shiftControlPattern_of_mask b hshift)⟩
  next =>
  split at h
  next hdisplay => cases h; exact ⟨rfl, congrArg ([·]) (displayControlPattern_of_mask b hdisplay)⟩
  next =>
  split at h
  next hentry => cases h; exact ⟨rfl, congrArg ([·]) (entryModePattern_of_mask b hentry)⟩
  next => cases h

theorem encode_of_decodeColumnByte {b : Byte} {i : Instr} (w : Nat) (h : decodeColumnByte b = .ok i) :
    i.wf w = true ∧ encode i w = [b] := by
  unfold decodeColumnByte at h
  split at h
  next hcol => cases h; exact ⟨rfl, congrArg ([·]) (colPattern_of_mask b hcol)⟩
  next => cases h

theorem encode_of_decodeInstructionByte {slot : Slot} {b : Byte} {i : Instr} (w : Nat)
    (h : decodeInstructionByte slot b = .ok i) : i.wf w = true ∧ encode i w = [b] := by
  cases slot with
  | first => exact encode_of_decodeFirstByte w h
  | column => exact encode_of_decodeColumnByte w h
  | done => cases h

theorem encode_of_decode {w : Nat} {port : Port} {bytes : List Byte} {i : Instr} (h : decode port bytes w = .ok i) :
    i.wf w = true ∧ encode i w = bytes := by
  cases port with
  | host => exact (encode_of_decode_host h).2
  | line inFrame awaitLow =>
    match bytes, h with
    | [_], h => exact encode_of_decodeFrameByte w h
  | instruction slot =>
    match bytes, h with
    | [_], h => exact encode_of_decodeInstructionByte w h
  | data =>
    match bytes, h with
    | [_], h => cases h; exact ⟨rfl, rfl⟩
  | read => cases h

/-- `COORD_W` is read at the host port alone: the panel's bytes carry no coordinate (R11, R84). -/
theorem decode_wire_width {port : Port} (hp : port ≠ .host) (bytes : List Byte) (v w : Nat) :
    decode port bytes v = decode port bytes w := by
  cases port with
  | host => exact absurd rfl hp
  | _ => rfl

end Sys2Proof

namespace Sys2Proof.Machine

/-! ## What waits, and what a step makes of it -/

theorem waiting_payload {s : State} {b : Byte} (h : s.panel.regs.rx.payload = some b) :
    waiting s = some { port := s.panel.payloadPort, bytes := [b], rest := s } := by
  simp only [waiting, h]

theorem waiting_line {s : State} {b : Byte} {more : List Byte} (hp : s.panel.regs.rx.payload = none)
    (hl : s.line = b :: more) :
    waiting s = some { port := s.panel.linePort, bytes := [b], rest := { s with line := more } } := by
  simp only [waiting, hp, hl]

theorem waiting_host {s : State} {d : List Byte} {more : List (List Byte)} (hp : s.panel.regs.rx.payload = none)
    (hl : s.line = []) (hd : s.port = d :: more) :
    waiting s = some { port := .host, bytes := d, rest := { s with port := more } } := by
  simp only [waiting, hp, hl, hd]

theorem waiting_nothing {s : State} (hp : s.panel.regs.rx.payload = none) (hl : s.line = []) (hd : s.port = []) :
    waiting s = none := by
  simp only [waiting, hp, hl, hd]

theorem step_idle {s : State} (h : waiting s = none) : step s = .next s := by
  simp only [step, fetch, h]

theorem step_run {s : State} {w : Waiting} {i : Instr} (hw : waiting s = some w)
    (hd : decode w.port w.bytes s.env.coordW = .ok i) (hi : w.port = .host → i.issuable = true) :
    step s = exec i w.rest := by
  have hno : ¬(w.port = .host ∧ i.issuable = false) := fun ⟨hhost, hint⟩ => by simp [hi hhost] at hint
  simp only [step, fetch, hw, hd, if_neg hno]

theorem step_undecodable {s : State} {w : Waiting} {why : DecodeError} (hw : waiting s = some w)
    (hd : decode w.port w.bytes s.env.coordW = .error why) : step s = .refused (.undecodable why) := by
  simp only [step, fetch, hw, hd]

theorem step_internal {s : State} {w : Waiting} {i : Instr} (hw : waiting s = some w)
    (hd : decode w.port w.bytes s.env.coordW = .ok i) (hp : w.port = .host) (hi : i.issuable = false) :
    step s = .refused .internalOperation := by
  simp only [step, fetch, hw, hd, if_pos (And.intro hp hi)]

/-- A byte on the panel's side runs what it decodes to, whatever the machine's `COORD_W` is. -/
theorem step_run_wire {s : State} {w : Waiting} {i : Instr} (hw : waiting s = some w) (hp : w.port ≠ .host)
    (hd : decode w.port w.bytes = .ok i) : step s = exec i w.rest :=
  step_run hw ((decode_wire_width hp w.bytes _ _).trans hd) fun hhost => absurd hhost hp

/-! ## The obligations -/

/-- Settles O3: a host operation's fields are read back one by one, a wire-level row from its one byte. -/
theorem decodeOfEncode : Obligations.DecodeOfEncode := by
  intro w i h
  by_cases hp : i.port = .host
  · rw [hp]; exact decode_encode_host hp h
  · exact decode_encode_wire hp h

/-- Settles O4, by the place and, at the host port, by the operation code. -/
theorem encodeOfDecode : Obligations.EncodeOfDecode := fun _ _ _ _ h => encode_of_decode h

/-- Settles O6: a descriptor that decodes is the encoding of what it decodes to, so one that is not the encoding of an
issuable operation is undecodable or internal. -/
theorem hostPortRefusesOthers : Obligations.HostPortRefusesOthers := by
  intro s d more hpay hline hport hother
  have hw := waiting_host hpay hline hport
  cases hd : decode .host d s.env.coordW with
  | error why => exact ⟨_, step_undecodable hw hd⟩
  | ok i =>
    obtain ⟨hp, hwf, henc⟩ := encode_of_decode_host hd
    have hi : i.issuable = false := Bool.eq_false_iff.mpr fun hi => hother i hwf hp hi henc.symm
    exact ⟨_, step_internal hw hd rfl hi⟩

/-- Settles O5: each clause is the place that is read next in that state. -/
theorem stepRunsWhatWaits : Obligations.StepRunsWhatWaits := by
  intro s i
  refine ⟨fun b hpay hd => ?_, fun b more hpay hline hd => ?_, fun d more hpay hline hport hd hi => ?_,
    fun hpay hline hport => ?_⟩
  · exact step_run_wire (waiting_payload hpay) (payloadPort_ne_host s.panel) hd
  · exact step_run_wire (waiting_line hpay hline) (linePort_ne_host s.panel) hd
  · exact step_run (waiting_host hpay hline hport) hd fun _ => hi
  · exact step_idle (waiting_nothing hpay hline hport)

end Sys2Proof.Machine
end

section
/-! The state family: what a host-level operation can do to the lifecycle, the fault record, the resources, the memories and the
trace (R22, R24 to R28, R31, R32), and what every step keeps of them. -/

namespace Sys2Proof.Machine

/-! ## What the drawing bodies leave of the canonical form -/

theorem pbWf_paintText {pb : List Host.Cell} (size : Option FontSize) (y : Int) (text : List Nat) (pen : Int)
    (h : pbWf pb = true) : pbWf (paintText size y text pen pb).pb = true :=
  paintText_induct (fun m => pbWf m = true) (fun _ _ _ h => pbWf_drawPixel _ _ _ h) size y text pen pb h

theorem pbWf_drawBitmap {pb : List Host.Cell} (x y : Int) (width : Nat) (data : List Byte) (h : pbWf pb = true) :
    pbWf (drawBitmap x y width data pb).pb = true :=
  blitBits_induct (fun m => pbWf m = true) (fun _ _ _ h => pbWf_drawPixel _ _ _ h) x y width _ 0 0 pb h

/-- Whatever frames the panel receives, its GRAM stays canonical. -/
theorem gramWf_receiveFrames (frames : List (List Byte)) {p : Panel} (h : gramWf p.gram = true) :
    gramWf (frames.foldl Panel.receive p).gram = true := by
  induction frames generalizing p with
  | nil => exact h
  | cons f frames ih => exact ih (gramWf_receive f h)

/-! ## The steps of an operation before its end -/

/-- What the steps of an operation keep until it completes or faults: the lifecycle, the fault record, the count and the
resources are untouched, the trace only grows, both memories stay canonical and an accepted font height stays accepted. -/
structure Progress (s u : State) : Prop where
  lc : u.lc = s.lc
  fault : u.fault = s.fault
  ci : u.ci = s.ci
  link : u.link = s.link
  face : u.face = s.face
  pbExists : u.pbExists = s.pbExists
  trace : s.trace <+: u.trace
  pbCanonical : pbWf s.pb = true → pbWf u.pb = true
  gramCanonical : gramWf s.panel.gram = true → gramWf u.panel.gram = true
  heightAccepted : fontSetOk s.env s.fh = true → fontSetOk u.env u.fh = true

theorem Progress.refl (s : State) : Progress s s :=
  ⟨rfl, rfl, rfl, rfl, rfl, rfl, List.prefix_rfl, id, id, id⟩

theorem Progress.trans {s u v : State} (h : Progress s u) (k : Progress u v) : Progress s v where
  lc := k.lc.trans h.lc
  fault := k.fault.trans h.fault
  ci := k.ci.trans h.ci
  link := k.link.trans h.link
  face := k.face.trans h.face
  pbExists := k.pbExists.trans h.pbExists
  trace := h.trace.trans k.trace
  pbCanonical := k.pbCanonical ∘ h.pbCanonical
  gramCanonical := k.gramCanonical ∘ h.gramCanonical
  heightAccepted := k.heightAccepted ∘ h.heightAccepted

theorem Progress.sent (s : State) (frames : List (List Byte)) : Progress s (s.sent frames) :=
  ⟨rfl, rfl, rfl, rfl, rfl, rfl, List.prefix_append _ _, id, gramWf_receiveFrames frames, id⟩

/-- The settle delay after an instruction (R141) shortens the panel's busy time and enters the trace. -/
theorem Progress.instructed (s : State) (b : Byte) : Progress s (s.instructed b) :=
  (Progress.sent s [0xF8 :: wireNibbles [b]]).trans
    ⟨rfl, rfl, rfl, rfl, rfl, rfl, List.prefix_append _ _, id, id, id⟩

theorem Progress.instructions (s : State) (bytes : List Byte) : Progress s (bytes.foldl State.instructed s) := by
  induction bytes generalizing s with
  | nil => exact .refl s
  | cons b bytes ih => exact (Progress.instructed s b).trans (ih _)

/-- A failed write has used up its result and lost the panel by the time the fault is raised (R265): `State.writeFailed` is
the fault raised in this state. -/
theorem Progress.lost (s : State) : Progress s (losePanel (useWriteResult s)) :=
  ⟨rfl, rfl, rfl, rfl, rfl, rfl, List.prefix_rfl, id, fun _ => rfl, id⟩

theorem Progress.drew {s : State} {pb : List Host.Cell} (h : pbWf s.pb = true → pbWf pb = true) :
    Progress s { s with pb := pb } :=
  ⟨rfl, rfl, rfl, rfl, rfl, rfl, List.prefix_rfl, h, id, id⟩

theorem Progress.setHeight {s : State} {px : Nat} (h : fontSetOk s.env px = true) : Progress s { s with fh := px } :=
  ⟨rfl, rfl, rfl, rfl, rfl, rfl, List.prefix_rfl, id, id, fun _ => h⟩

/-- The FontProvider's answer is the same after any sequence of instructions (R11: it is a parameter). -/
theorem fontSetOk_instructions (bytes : List Byte) (s : State) (px : Nat) :
    fontSetOk (bytes.foldl State.instructed s).env px = fontSetOk s.env px := by
  induction bytes generalizing s with
  | nil => rfl
  | cons b bytes ih => exact ih _

/-! ## What a host operation can do -/

/-- Every way a host operation answers a next state: completed in `READY`, as `CONSTRUCT` or as `DESTRUCT`; or a fault raised
after some of its steps, where `CONSTRUCT` faults before or after it holds its resources (R22, R26, R266). -/
inductive HostStep (s : State) : Instr → State → Prop
  | completed {i : Instr} {u : State} (ready : s.lc = .ready) (notConstruct : ∀ a b, i ≠ .construct a b)
      (notDestruct : i ≠ .destruct) (done : Progress s u) : HostStep s i { u with ci := u.ci + 1 }
  | raised {i : Instr} {u : State} (kind : FaultKind) (info : Nat) (ready : s.lc = .ready)
      (notConstruct : ∀ a b, i ≠ .construct a b) (done : Progress s u) : HostStep s i (raiseFault kind info u)
  | constructed {busId deviceId : Byte} {u : State} (off : s.lc = .off) (done : Progress (acquired busId deviceId s) u)
      (height : fontSetOk u.env u.fh = true) :
      HostStep s (.construct busId deviceId) { u with lc := .ready, ci := u.ci + 1 }
  | notAcquired {busId deviceId : Byte} (kind : FaultKind) (info : Nat) (off : s.lc = .off) :
      HostStep s (.construct busId deviceId) (raiseFault kind info s)
  | notInitialised {busId deviceId : Byte} {u : State} (kind : FaultKind) (info : Nat) (off : s.lc = .off)
      (done : Progress (acquired busId deviceId s) u) : HostStep s (.construct busId deviceId) (raiseFault kind info u)
  | destructed {u : State} (ready : s.lc = .ready) (done : Progress s u) :
      HostStep s .destruct { releaseHandles (freePixelBuffer u) with lc := .closed, ci := u.ci + 1 }

section
variable {i : Instr} {s t : State} (hc : ∀ a b, i ≠ .construct a b) (hd : i ≠ .destruct)
include hc hd

theorem hostStep_of_drawn {pb : List Host.Cell} {fh : Nat} {fault : Option (FaultKind × Nat)} (hr : s.lc = .ready)
    (h : Progress s { s with pb := pb, fh := fh }) (ht : t = drawn s pb fh true fault) : HostStep s i t := by
  subst ht
  cases fault with
  | none => exact .completed hr hc hd h
  | some f => exact .raised f.1 f.2 hr hc h

theorem hostStep_of_sent {frames : List (List Byte)} (hr : s.lc = .ready)
    (ht : t = { s.sent frames with ci := s.ci + 1 } ∨ ∃ k, t = (s.sent (frames.take k)).writeFailed) : HostStep s i t := by
  obtain rfl | ⟨k, rfl⟩ := ht
  · exact .completed hr hc hd (.sent s frames)
  · exact .raised _ _ hr hc ((Progress.sent s _).trans (.lost _))

theorem hostStep_of_instruction {v : Byte} (h : whenReady s (finishOperation (sendInstruction v s)) = .next t) :
    HostStep s i t := by
  obtain ⟨hr, rfl | rfl⟩ := instruction_next h
  · exact .completed hr hc hd (.instructed s v)
  · exact .raised _ _ hr hc (.lost s)

end

theorem hostStep_construct {busId deviceId : Byte} {s t : State} (h : execConstruct busId deviceId s = .next t) :
    HostStep s (.construct busId deviceId) t := by
  obtain ⟨hoff, ⟨hok, rfl⟩ | ⟨kind, rfl⟩ | rfl | ⟨k, rfl⟩⟩ := execConstruct_next h
  · have hsent := Progress.instructions (acquired busId deviceId s) initBytes
    have hheight := (fontSetOk_instructions initBytes (acquired busId deviceId s) s.env.initFontHeight).trans hok
    exact .constructed hoff (hsent.trans (.setHeight hheight)) hheight
  · exact .notAcquired kind 0 hoff
  · exact .notInitialised _ _ hoff (.instructions _ initBytes)
  · exact .notInitialised _ _ hoff ((Progress.instructions _ _).trans (.lost _))

theorem hostStep_destruct {s t : State} (h : execDestruct s = .next t) : HostStep s .destruct t := by
  obtain ⟨hr, -, pb, hpb, ht⟩ := execDestruct_next h
  have hclear : Progress s { s with pb := pb } := .drew fun hw => hpb ▸ pbWf_drawRegion _ _ _ _ _ hw
  generalize canvasFrames pb = frames at ht
  obtain rfl | ⟨k, rfl⟩ := ht
  · exact .destructed hr (hclear.trans (.sent _ frames))
  · exact .raised (i := .destruct) _ _ hr nofun (hclear.trans ((Progress.sent _ (frames.take k)).trans (.lost _)))

/-- Whatever next state a host operation answers, it is one of the ways of `HostStep`. -/
theorem exec_hostStep {i : Instr} {s t : State} (hi : i.issuable = true) (h : exec i s = .next t) : HostStep s i t := by
  cases i with
  | construct busId deviceId => exact hostStep_construct h
  | destruct => exact hostStep_destruct h
  | setFunctionSet ext gfx => exact hostStep_of_instruction nofun nofun h
  | setDisplayControl d c b => exact hostStep_of_instruction nofun nofun h
  | setShiftControl shifting right => exact hostStep_of_instruction nofun nofun h
  | setEntryMode inc sh => exact hostStep_of_instruction nofun nofun h
  | setFontHeight px =>
    obtain ⟨hr, ⟨hok, ht⟩ | ⟨-, ht⟩⟩ := execSetFontHeight_next h
    · exact hostStep_of_drawn nofun nofun hr (.setHeight hok) ht
    · exact hostStep_of_drawn nofun nofun hr (.refl s) ht
  | setPixel x y on =>
    obtain ⟨hr, -, ht⟩ := execSetPixel_next h
    exact hostStep_of_drawn nofun nofun hr (.drew (pbWf_drawPixel x y on)) ht
  | setRegion x1 y1 x2 y2 on =>
    obtain ⟨hr, -, ht⟩ := execSetRegion_next h
    exact hostStep_of_drawn nofun nofun hr (.drew (pbWf_drawRegion x1 y1 x2 y2 on)) ht
  | putString x y text =>
    obtain ⟨hr, -, p, rfl, ht⟩ := execPutString_next h
    exact hostStep_of_drawn nofun nofun hr (.drew (pbWf_paintText _ y text x)) ht
  | putBitmap x y width data =>
    obtain ⟨hr, -, -, ht⟩ := execPutBitmap_next h
    exact hostStep_of_drawn nofun nofun hr (.drew (pbWf_drawBitmap x y width.toNat data)) ht
  | drawAll =>
    obtain ⟨hr, -, ht⟩ := execDrawAll_next h
    exact hostStep_of_sent nofun nofun hr ht
  | drawRow r =>
    obtain ⟨hr, -, ht⟩ := execDrawRow_next h
    exact hostStep_of_sent nofun nofun hr ht
  | drawSectionsForBB x1 y1 x2 y2 =>
    obtain ⟨hr, -, frames, -, ht⟩ := execDrawSectionsForBB_next h
    exact hostStep_of_sent nofun nofun hr ht
  | send | gramAddrSet | putChar | wireFunctionSet | wireDisplayControl | wireShiftControl | wireEntryMode | wireGramAddrRow
  | wireGramAddrCol | wireSync | wireNibbleHigh | wireNibbleLow | wireData => exact absurd hi Bool.false_ne_true

/-- What a step does when it answers a next state, with the inputs it took out of the state: nothing, a host operation, or a
wire-level row, which changes the panel alone. -/
theorem step_host_or_wire {s t : State} (h : step s = .next t) :
    t = s ∨ ∃ port line,
      (∃ i, HostStep { s with port := port, line := line } i t) ∨
      ∃ i p, wireEffect i s.panel = .ok p ∧ t = { s with port := port, line := line, panel := p } := by
  obtain rfl | ⟨i, port, line, hexec, hi | hwire⟩ := step_cases h
  · exact .inl rfl
  · exact .inr ⟨port, line, .inl ⟨i, exec_hostStep hi hexec⟩⟩
  · rw [exec_wire hwire] at hexec
    obtain ⟨-, p, hp, rfl⟩ := onPanel_next hexec
    exact .inr ⟨port, line, .inr ⟨i, p, hp, rfl⟩⟩

/-! ## The trace -/

/-- A host operation appends to the trace (R28). -/
theorem HostStep.trace_grows {i : Instr} {s t : State} (h : HostStep s i t) : s.trace <+: t.trace := by
  cases h with
  | completed _ _ _ done => exact done.trace
  | raised _ _ _ _ done => exact done.trace
  | constructed _ done _ => exact done.trace
  | notAcquired => exact List.prefix_rfl
  | notInitialised _ _ _ done => exact done.trace
  | destructed _ done => exact done.trace

/-! ## The invariant -/

/-- The inputs not yet taken are no part of the invariant. -/
theorem State.Inv.withInputs {s : State} (h : s.Inv) (port : List (List Byte)) (line : List Byte) :
    State.Inv { s with port := port, line := line } := { h with }

/-- Of the panel, the invariant speaks of GRAM only. -/
theorem State.Inv.withPanel {s : State} (h : s.Inv) {p : Panel} (hp : gramWf p.gram = true) :
    State.Inv { s with panel := p } := { h with gramCanonical := hp }

/-- `CI` is bound by the invariant before `CONSTRUCT` only. -/
theorem State.Inv.counted {s : State} (h : s.Inv) (hr : s.lc = .ready) : State.Inv { s with ci := s.ci + 1 } :=
  { h with quietBefore := fun hoff => Lifecycle.noConfusion (hr.symm.trans hoff) }

/-- While `READY`, the steps of an operation keep the invariant. -/
theorem Progress.inv {s u : State} (p : Progress s u) (hr : s.lc = .ready) (h : s.Inv) : u.Inv where
  pbCanonical := p.pbCanonical h.pbCanonical
  gramCanonical := p.gramCanonical h.gramCanonical
  faultRecorded := by rw [p.fault, p.lc]; exact h.faultRecorded
  linkOpen := by rw [p.link, p.lc]; exact h.linkOpen
  faceOpen := by rw [p.face, p.lc]; exact h.faceOpen
  pbWhenReady := by rw [p.pbExists, p.lc]; exact h.pbWhenReady
  pbEmptyWhenAbsent := by simp [p.pbExists, h.pbWhenReady hr]
  pbAbsentOutside := by rw [p.pbExists, p.lc]; exact h.pbAbsentOutside
  heightAccepted := fun _ => p.heightAccepted (h.heightAccepted hr)
  quietBefore := by simp [p.lc, hr]

/-- Raising a fault gives the invariant wherever the memories are in order: the fault is recorded and nothing stays open
(R27, R31). -/
theorem inv_raiseFault {u : State} (kind : FaultKind) (info : Nat) (hpb : pbWf u.pb = true)
    (hgram : gramWf u.panel.gram = true) (habsent : u.pbExists = false → u.pb = []) : (raiseFault kind info u).Inv where
  pbCanonical := hpb
  gramCanonical := hgram
  faultRecorded := by simp
  linkOpen := by simp
  faceOpen := by simp
  pbWhenReady := by simp
  pbEmptyWhenAbsent := habsent
  pbAbsentOutside := by simp
  heightAccepted := by simp
  quietBefore := by simp

/-- A completed `CONSTRUCT` opens what `READY` asks for (R236). -/
theorem inv_constructed {busId deviceId : Byte} {s u : State} (h : s.Inv) (hoff : s.lc = .off)
    (p : Progress (acquired busId deviceId s) u) (hheight : fontSetOk u.env u.fh = true) :
    State.Inv { u with lc := .ready, ci := u.ci + 1 } where
  pbCanonical := p.pbCanonical rfl
  gramCanonical := p.gramCanonical h.gramCanonical
  faultRecorded := by
    rw [show u.fault = s.fault from p.fault, h.faultRecorded, hoff]
    simp
  linkOpen := by simp [p.link, acquired]
  faceOpen := by simp [p.face, acquired]
  pbWhenReady := fun _ => p.pbExists
  pbEmptyWhenAbsent := by simp [p.pbExists, acquired]
  pbAbsentOutside := by simp
  heightAccepted := fun _ => hheight
  quietBefore := by simp

/-- A completed `DESTRUCT` frees `PB` and closes everything (R242). -/
theorem inv_destructed {u : State} (h : u.Inv) (hr : u.lc = .ready) :
    State.Inv { releaseHandles (freePixelBuffer u) with lc := .closed, ci := u.ci + 1 } where
  pbCanonical := rfl
  gramCanonical := h.gramCanonical
  faultRecorded := by
    show u.fault.isSome = true ↔ _
    rw [h.faultRecorded, hr]
    simp
  linkOpen := by simp [releaseHandles]
  faceOpen := by simp [releaseHandles]
  pbWhenReady := by simp
  pbEmptyWhenAbsent := fun _ => rfl
  pbAbsentOutside := fun _ => rfl
  heightAccepted := by simp
  quietBefore := by simp

/-- A host operation keeps the invariant, completed or faulted. -/
theorem HostStep.inv {i : Instr} {s t : State} (h : HostStep s i t) (hs : s.Inv) : t.Inv := by
  cases h with
  | completed ready _ _ done => exact (done.inv ready hs).counted (done.lc.trans ready)
  | raised kind info ready _ done =>
    have hu := done.inv ready hs
    exact inv_raiseFault kind info hu.pbCanonical hu.gramCanonical hu.pbEmptyWhenAbsent
  | constructed off done height => exact inv_constructed hs off done height
  | notAcquired kind info _ => exact inv_raiseFault kind info hs.pbCanonical hs.gramCanonical hs.pbEmptyWhenAbsent
  | notInitialised kind info _ done =>
    refine inv_raiseFault kind info (done.pbCanonical rfl) (done.gramCanonical hs.gramCanonical) fun habsent => ?_
    exact Bool.noConfusion (done.pbExists.symm.trans habsent)
  | destructed ready done => exact inv_destructed (done.inv ready hs) (done.lc.trans ready)

/-! ## What is refused -/

/-- Every host-level operation but `CONSTRUCT`, internal ones included, stands behind the gate of R26. -/
theorem exec_eq_whenReady {i : Instr} (hp : i.port = .host) (hc : ∀ a b, i ≠ .construct a b) (s : State) :
    ∃ k, exec i s = whenReady s k := by
  cases i with
  | construct busId deviceId => exact absurd rfl (hc busId deviceId)
  | destruct | setFunctionSet | setDisplayControl | setShiftControl | setEntryMode | setFontHeight | setPixel | setRegion
  | putString | putBitmap | drawAll | drawRow | drawSectionsForBB | send | gramAddrSet | putChar => exact ⟨_, rfl⟩
  | wireFunctionSet | wireDisplayControl | wireShiftControl | wireEntryMode | wireGramAddrRow | wireGramAddrCol | wireSync
  | wireNibbleHigh | wireNibbleLow | wireData => exact Port.noConfusion hp

theorem whenReady_of_not_ready {s : State} (h : s.lc ≠ .ready) (k : Result) : whenReady s k = .refused .notReady := if_neg h

theorem boxOnCanvas_iff (x1 y1 x2 y2 : Int) : boxOnCanvas x1 y1 x2 y2 = true ↔
    (0 ≤ x1 ∧ x1 < 128 ∧ 0 ≤ y1 ∧ y1 < 64) ∧ 0 ≤ x2 ∧ x2 < 128 ∧ 0 ≤ y2 ∧ y2 < 64 := by
  rw [boxOnCanvas, Bool.and_eq_true, inCanvas_iff, inCanvas_iff]

section
variable {s : State} (hr : s.lc = .ready) (hp : s.pbExists = true)
include hr hp

theorem execDrawRow_refused {r : Int} (h : r < 0 ∨ 63 < r) : execDrawRow r s = .refused .rowOffCanvas := by
  rw [execDrawRow, onCanvas_of_ready hr hp, if_neg (by omega)]

theorem execDrawSectionsForBB_refused {x1 y1 x2 y2 : Int}
    (h : x1 < 0 ∨ 127 < x1 ∨ x2 < 0 ∨ 127 < x2 ∨ y1 < 0 ∨ 63 < y1 ∨ y2 < 0 ∨ 63 < y2) :
    execDrawSectionsForBB x1 y1 x2 y2 s = .refused .boxOffCanvas := by
  rw [execDrawSectionsForBB, onCanvas_of_ready hr hp, if_neg]
  rw [boxOnCanvas_iff]
  omega

theorem execPutBitmap_refused (x y : Int) {width : Int} (data : List Byte) (h : width < 1) :
    execPutBitmap x y width data s = .refused .widthBelowOne := by
  rw [execPutBitmap, onCanvas_of_ready hr hp, if_neg (by omega)]

end

/-! ## The obligations -/

/-- Settles O40: nothing waits, a host operation runs, or the panel takes a byte; each keeps the invariant. -/
theorem invKeptByStep : Obligations.InvKeptByStep := by
  intro s t hs h
  obtain rfl | ⟨port, line, ⟨i, hhost⟩ | ⟨i, p, hp, rfl⟩⟩ := step_host_or_wire h
  · exact hs
  · exact hhost.inv (hs.withInputs port line)
  · exact (hs.withInputs port line).withPanel (gramWf_wireEffect hp hs.gramCanonical)

/-- Settles O37: each way a host operation can end, against its row of R26's table. -/
theorem lifecycleTransitions : Obligations.LifecycleTransitions := by
  intro i s t hi h
  cases exec_hostStep hi h with
  | completed ready notConstruct notDestruct done =>
    rw [if_neg fun ⟨a, b, e⟩ => notConstruct a b e, if_neg notDestruct]
    exact ⟨ready, .inl ⟨congrArg (· + 1) done.ci, done.fault, done.lc.trans ready⟩⟩
  | raised kind info ready notConstruct done =>
    rw [if_neg fun ⟨a, b, e⟩ => notConstruct a b e]
    exact ⟨ready, .inr ⟨done.ci, rfl, rfl, rfl, rfl⟩⟩
  | constructed off done _ =>
    rw [if_pos ⟨_, _, rfl⟩, if_neg nofun]
    exact ⟨off, .inl ⟨congrArg (· + 1) done.ci, done.fault, rfl⟩⟩
  | notAcquired kind info off =>
    rw [if_pos ⟨_, _, rfl⟩]
    exact ⟨off, .inr ⟨rfl, rfl, rfl, rfl, rfl⟩⟩
  | notInitialised kind info off done =>
    rw [if_pos ⟨_, _, rfl⟩]
    exact ⟨off, .inr ⟨done.ci, rfl, rfl, rfl, rfl⟩⟩
  | destructed ready done =>
    rw [if_neg nofun, if_pos rfl]
    exact ⟨ready, .inl ⟨congrArg (· + 1) done.ci, done.fault, rfl⟩⟩

/-- Settles O43: a host operation extends the trace, every other step leaves it. -/
theorem traceOnlyGrows : Obligations.TraceOnlyGrows := by
  intro s t h
  have hgrows : s.trace <+: t.trace := by
    obtain rfl | ⟨port, line, ⟨i, hhost⟩ | ⟨i, p, -, rfl⟩⟩ := step_host_or_wire h
    · exact List.prefix_rfl
    · exact hhost.trace_grows
    · exact List.prefix_rfl
  obtain ⟨more, hmore⟩ := hgrows
  exact ⟨more, hmore.symm⟩

/-- Settles O1, field by field of `State.reset`. -/
theorem resetIsBeforeConstruct : Obligations.ResetIsBeforeConstruct := ⟨rfl, rfl, rfl, rfl, rfl, rfl, rfl⟩

/-- Settles O38: the gate of R26, the gate of `CONSTRUCT`, and the operand tests of the three operations that have one. -/
theorem refusedOperations : Obligations.RefusedOperations := by
  refine fun s => ⟨fun i hp hc hlc => ?_, fun a b hlc => if_neg hlc, fun hr hp => ⟨fun r h => ?_, fun x1 y1 x2 y2 h => ?_,
    fun x y width data h => ?_⟩⟩
  · obtain ⟨k, hk⟩ := exec_eq_whenReady hp hc s
    rw [hk, whenReady_of_not_ready hlc]
  · exact execDrawRow_refused hr hp h
  · exact execDrawSectionsForBB_refused hr hp h
  · exact execPutBitmap_refused hr hp x y data h

/-- Settles O39: at reset nothing is open, recorded, allocated or sent. -/
theorem invAtReset : Obligations.InvAtReset where
  pbCanonical := reset_memories_wf.1
  gramCanonical := reset_memories_wf.2
  faultRecorded := by simp [State.reset]
  linkOpen := by simp [State.reset]
  faceOpen := by simp [State.reset]
  pbWhenReady := by simp [State.reset]
  pbEmptyWhenAbsent := fun _ => rfl
  pbAbsentOutside := fun _ => rfl
  heightAccepted := by simp [State.reset]
  quietBefore := fun _ => ⟨rfl, rfl⟩

/-- Settles O48: a wire-level row is its effect on the panel, and `onPanel` writes the panel only. -/
theorem wireRowsTouchPanelOnly : Obligations.WireRowsTouchPanelOnly := by
  intro i s t hi h
  rw [exec_wire hi] at h
  obtain ⟨-, p, -, rfl⟩ := onPanel_next h
  rfl

end Sys2Proof.Machine
end

section
/-! The memory family: where a pixel stands in `PB` (R52, R54), and what drawing and sending leave of each other's side of the
machine: drawing sends nothing (R65, R312, R190), sending keeps `PB` and `FH` (R68, R170, R174, R176, R266). -/

namespace Sys2Proof.Machine

/-! ## The pixel mapping -/

theorem wordCol_eq (x y : Nat) : wordCol x y = x / 16 + if 32 ≤ y then 8 else 0 := rfl

/-- R52's formula, read off `GET_PIXEL` (R124). -/
theorem pixelOf_eq_memRead (pb : List Host.Cell) (x y : Nat) :
    pixelOf pb x y = (memRead pb (y % 32) (x / 16 + if 32 ≤ y then 8 else 0)).getLsbD (15 - x % 16) := rfl

/-- Every bit of the 32 x 16 words holds a pixel: the bank of the column says which half of the canvas it lies in (R51). -/
theorem exists_pixel_of_bit {r c b : Nat} (hr : r < 32) (hc : c < 16) (hb : b < 16) :
    ∃ x y, x < 128 ∧ y < 64 ∧ wordRow y = r ∧ wordCol x y = c ∧ 15 - x % 16 = b := by
  by_cases hbank : c < 8
  · refine ⟨16 * c + (15 - b), r, by omega, by omega, Nat.mod_eq_of_lt hr, ?_, by omega⟩
    rw [wordCol_eq, if_neg (by omega)]
    omega
  · refine ⟨16 * (c - 8) + (15 - b), 32 + r, by omega, by omega, ?_, ?_, by omega⟩
    · rw [wordRow, Nat.add_mod_left, Nat.mod_eq_of_lt hr]
    · rw [wordCol_eq, if_pos (by omega)]
      omega

/-! ## What drawing leaves -/

/-- Of everything outside `PB`, `FH` and the block's own bookkeeping, a drawing operation changes nothing, faulted or not. -/
theorem nothing_outside_of_drawn {s t : State} {pb : List Host.Cell} {fh : Nat} {counted : Bool}
    {fault : Option (FaultKind × Nat)} (h : t = drawn s pb fh counted fault) :
    t.trace = s.trace ∧ t.panel = s.panel ∧ t.env = s.env ∧ t.port = s.port ∧ t.line = s.line ∧
      t.pbExists = s.pbExists := by
  subst h
  cases fault with
  | none => exact ⟨rfl, rfl, rfl, rfl, rfl, rfl⟩
  | some f => exact ⟨rfl, rfl, rfl, rfl, rfl, rfl⟩

/-! ## What sending leaves -/

/-- What sending keeps: the canvas, the font height, the inputs not yet taken, and of the environment everything but the write
results it uses up. -/
structure CanvasKept (s t : State) : Prop where
  pb : t.pb = s.pb
  pbExists : t.pbExists = s.pbExists
  fh : t.fh = s.fh
  port : t.port = s.port
  line : t.line = s.line
  env : t.env = { s.env with writes := t.env.writes }

theorem CanvasKept.trans {s u t : State} (h : CanvasKept s u) (k : CanvasKept u t) : CanvasKept s t where
  pb := k.pb.trans h.pb
  pbExists := k.pbExists.trans h.pbExists
  fh := k.fh.trans h.fh
  port := k.port.trans h.port
  line := k.line.trans h.line
  env := calc
    t.env = { u.env with writes := t.env.writes } := k.env
    _ = { s.env with writes := t.env.writes } := by rw [h.env]

theorem CanvasKept.sent (s : State) (frames : List (List Byte)) : CanvasKept s (s.sent frames) :=
  ⟨rfl, rfl, rfl, rfl, rfl, rfl⟩

theorem CanvasKept.writeFailed (s : State) : CanvasKept s s.writeFailed := ⟨rfl, rfl, rfl, rfl, rfl, rfl⟩

theorem CanvasKept.instructed (s : State) (b : Byte) : CanvasKept s (s.instructed b) := ⟨rfl, rfl, rfl, rfl, rfl, rfl⟩

theorem CanvasKept.counted (s : State) (n : Nat) : CanvasKept s { s with ci := n } := ⟨rfl, rfl, rfl, rfl, rfl, rfl⟩

section
variable {s t : State}

/-- Both ends of a flush: every frame sent, or those before the failing write. -/
theorem canvasKept_of_flush {frames : List (List Byte)}
    (h : t = { s.sent frames with ci := s.ci + 1 } ∨ ∃ k, t = (s.sent (frames.take k)).writeFailed) : CanvasKept s t := by
  obtain rfl | ⟨k, rfl⟩ := h
  · exact (CanvasKept.sent s frames).trans (.counted _ _)
  · exact (CanvasKept.sent s _).trans (.writeFailed _)

theorem canvasKept_of_instruction {v : Byte} (h : whenReady s (finishOperation (sendInstruction v s)) = .next t) :
    CanvasKept s t := by
  obtain ⟨-, rfl | rfl⟩ := instruction_next h
  · exact (CanvasKept.instructed s v).trans (.counted _ _)
  · exact .writeFailed s

theorem canvasKept_of_sendMicro {bytes : List Byte} (h : whenReady s (finishMicro (transportWrite bytes s)) = .next t) :
    CanvasKept s t := by
  obtain ⟨-, rfl | rfl⟩ := sendMicro_next h
  · exact .sent s [bytes]
  · exact .writeFailed s

end

/-! ## The obligations -/

/-- Settles O9: every bit has a pixel, and a word place determines its pixel. -/
theorem pixelMapIsBijective : Obligations.PixelMapIsBijective := by
  refine ⟨fun pb x y hx _ => ⟨wordRow_lt y, wordCol_lt hx, pixelOf_eq_memRead pb x y⟩, fun r c b hr hc hb => ?_⟩
  obtain ⟨x, y, hx, hy, hrow, hcol, hbit⟩ := exists_pixel_of_bit hr hc hb
  refine ⟨x, y, ⟨hx, hy, hrow, hcol, hbit⟩, fun x' y' hx' hy' hrow' hcol' hbit' => ?_⟩
  exact wordPlace_injective hx' hy' hx hy (hrow'.trans hrow.symm) (hcol'.trans hcol.symm) (by omega)

/-- Settles O44: each of the six operations leaves the state `drawn` of some buffer and font height. -/
theorem drawingReachesNothingOutside : Obligations.DrawingReachesNothingOutside := by
  intro i s t h hi
  obtain ⟨x, y, on, rfl⟩ | ⟨x1, y1, x2, y2, on, rfl⟩ | ⟨x, y, text, rfl⟩ | ⟨x, y, w, data, rfl⟩ | ⟨x, y, cp, rfl⟩ |
    ⟨px, rfl⟩ := hi
  · obtain ⟨-, -, ht⟩ := execSetPixel_next h
    exact nothing_outside_of_drawn ht
  · obtain ⟨-, -, ht⟩ := execSetRegion_next h
    exact nothing_outside_of_drawn ht
  · obtain ⟨-, -, p, -, ht⟩ := execPutString_next h
    exact nothing_outside_of_drawn ht
  · obtain ⟨-, -, -, ht⟩ := execPutBitmap_next h
    exact nothing_outside_of_drawn ht
  · obtain ⟨-, -, p, -, ht⟩ := execPutChar_next h
    exact nothing_outside_of_drawn ht
  · obtain ⟨-, ⟨-, ht⟩ | ⟨-, ht⟩⟩ := execSetFontHeight_next h
    · exact nothing_outside_of_drawn ht
    · exact nothing_outside_of_drawn ht

/-- Settles O45: a configuration operation is one instruction, a flush a list of frames, an internal send one frame. -/
theorem sendingKeepsPixelBuffer : Obligations.SendingKeepsPixelBuffer := by
  intro i s t h hi
  have hkept : CanvasKept s t := by
    obtain ⟨e, g, rfl⟩ | ⟨d, c, b, rfl⟩ | ⟨sh, r, rfl⟩ | ⟨inc, sh, rfl⟩ | rfl | ⟨r, rfl⟩ | ⟨x1, y1, x2, y2, rfl⟩ |
      ⟨rs, rw, data, rfl⟩ | ⟨row, col, rfl⟩ := hi
    · exact canvasKept_of_instruction h
    · exact canvasKept_of_instruction h
    · exact canvasKept_of_instruction h
    · exact canvasKept_of_instruction h
    · obtain ⟨-, -, ht⟩ := execDrawAll_next h
      exact canvasKept_of_flush ht
    · obtain ⟨-, -, ht⟩ := execDrawRow_next h
      exact canvasKept_of_flush ht
    · obtain ⟨-, -, frames, -, ht⟩ := execDrawSectionsForBB_next h
      exact canvasKept_of_flush ht
    · exact canvasKept_of_sendMicro h
    · exact canvasKept_of_sendMicro h
  exact ⟨hkept.pb, hkept.pbExists, hkept.fh, hkept.port, hkept.line, hkept.env⟩

/-- Settles O10: `wordRow` and `wordCol` at the last row of the upper half and the first of the lower. -/
theorem bankSwitchesAtRow32 : Obligations.BankSwitchesAtRow32 := ⟨rfl, rfl, rfl, rfl⟩

end Sys2Proof.Machine
end

section
/-! The encoding family: every frame the block sends is well formed (R80 to R82), what each wire-level row does or where it stops
(R82, R86, R93), and at which bytes the panel's behaviour stops being specified (U9, U11, U14). -/

namespace Sys2Proof.Machine

/-! ## What the block sends -/

/-- A frame of a flush: one that points the panel at a word-cell, or one that carries words (R146, R174). -/
def FlushFrame (f : List Byte) : Prop := (∃ row col, f = addressFrame row col) ∨ ∃ words, f = dataFrame words

/-- What a host operation may append to the trace: frames of a flush, and instruction frames each with its settle delay (R141). -/
inductive Emission : List Event → Prop
  | nothing : Emission []
  | flushFrame {f : List Byte} {es : List Event} (hf : FlushFrame f) (rest : Emission es) : Emission (.tx f :: es)
  | instruction (b : Byte) {es : List Event} (rest : Emission es) :
      Emission (.tx (0xF8 :: wireNibbles [b]) :: .settle :: es)

theorem Emission.append {es fs : List Event} (h : Emission es) (k : Emission fs) : Emission (es ++ fs) := by
  induction h with
  | nothing => exact k
  | flushFrame hf _ ih => exact .flushFrame hf ih
  | instruction b _ ih => exact .instruction b ih

theorem emission_of_flushFrames {frames : List (List Byte)} (h : ∀ f ∈ frames, FlushFrame f) :
    Emission (frames.map Event.tx) := by
  induction frames with
  | nil => exact .nothing
  | cons f frames ih =>
    obtain ⟨hf, hrest⟩ := List.forall_mem_cons.mp h
    exact .flushFrame hf (ih hrest)

theorem flushFrame_of_mem_rowFrames {pb : List Host.Cell} {r : Nat} : ∀ f ∈ rowFrames pb r, FlushFrame f :=
  List.forall_mem_cons.mpr ⟨.inl ⟨_, _, rfl⟩, List.forall_mem_singleton.mpr (.inr ⟨_, rfl⟩)⟩

theorem flushFrame_of_mem_canvasFrames {pb : List Host.Cell} : ∀ f ∈ canvasFrames pb, FlushFrame f := by
  intro f hf
  obtain ⟨r, -, hr⟩ := List.mem_flatMap.mp hf
  exact flushFrame_of_mem_rowFrames f hr

theorem flushFrame_of_mem_boxFrames {pb : List Host.Cell} {x1 y1 x2 y2 : Nat} :
    ∀ f ∈ boxFrames pb x1 y1 x2 y2, FlushFrame f := by
  intro f hf
  obtain ⟨cell, -, hcell⟩ := List.mem_flatMap.mp hf
  exact List.forall_mem_cons.mpr ⟨.inl ⟨_, _, rfl⟩, List.forall_mem_singleton.mpr (.inr ⟨_, rfl⟩)⟩ f hcell

/-- From `s` to `t` the trace has grown by an emission. -/
def Emits (s t : State) : Prop := ∃ es, t.trace = s.trace ++ es ∧ Emission es

theorem emits_of_trace_eq {s t : State} (h : t.trace = s.trace) : Emits s t := ⟨[], by simpa using h, .nothing⟩

theorem Emits.trans {s u t : State} (h : Emits s u) (k : Emits u t) : Emits s t := by
  obtain ⟨es, hes, he⟩ := h
  obtain ⟨fs, hfs, hf⟩ := k
  exact ⟨es ++ fs, by rw [hfs, hes, List.append_assoc], he.append hf⟩

theorem Emits.sent (s : State) {frames : List (List Byte)} (h : ∀ f ∈ frames, FlushFrame f) : Emits s (s.sent frames) :=
  ⟨_, sent_trace s frames, emission_of_flushFrames h⟩

theorem Emits.instructed (s : State) (b : Byte) : Emits s (s.instructed b) :=
  ⟨_, List.append_assoc s.trace _ _, .instruction b .nothing⟩

theorem Emits.instructions (s : State) (bytes : List Byte) : Emits s (bytes.foldl State.instructed s) := by
  induction bytes generalizing s with
  | nil => exact emits_of_trace_eq rfl
  | cons b bytes ih => exact (Emits.instructed s b).trans (ih _)

/-- A failed write enters no `TX` (R265). -/
theorem Emits.sentThenFailed (s : State) {frames : List (List Byte)} (h : ∀ f ∈ frames, FlushFrame f) (k : Nat) :
    Emits s (s.sent (frames.take k)).writeFailed :=
  (Emits.sent s fun f hf => h f (List.mem_of_mem_take hf)).trans (emits_of_trace_eq rfl)

section
variable {s t : State}

/-- Drawing sends nothing. -/
theorem emits_of_drawn {pb : List Host.Cell} {fh : Nat} {counted : Bool} {fault : Option (FaultKind × Nat)}
    (h : t = drawn s pb fh counted fault) : Emits s t := by
  obtain ⟨htrace, -⟩ := nothing_outside_of_drawn h
  exact emits_of_trace_eq htrace

theorem emits_of_flush {frames : List (List Byte)} (hf : ∀ f ∈ frames, FlushFrame f)
    (h : t = { s.sent frames with ci := s.ci + 1 } ∨ ∃ k, t = (s.sent (frames.take k)).writeFailed) : Emits s t := by
  obtain rfl | ⟨k, rfl⟩ := h
  · exact (Emits.sent s hf).trans (emits_of_trace_eq rfl)
  · exact .sentThenFailed s hf k

theorem emits_of_instruction {v : Byte} (h : whenReady s (finishOperation (sendInstruction v s)) = .next t) : Emits s t := by
  obtain ⟨-, rfl | rfl⟩ := instruction_next h
  · exact (Emits.instructed s v).trans (emits_of_trace_eq rfl)
  · exact emits_of_trace_eq rfl

theorem emits_of_construct {busId deviceId : Byte} (h : execConstruct busId deviceId s = .next t) : Emits s t := by
  have hinit : ∀ bytes : List Byte, Emits s (bytes.foldl State.instructed (acquired busId deviceId s)) := fun bytes =>
    (emits_of_trace_eq rfl).trans (.instructions _ bytes)
  obtain ⟨-, ⟨-, rfl⟩ | ⟨kind, rfl⟩ | rfl | ⟨k, rfl⟩⟩ := execConstruct_next h
  · exact (hinit initBytes).trans (emits_of_trace_eq rfl)
  · exact emits_of_trace_eq rfl
  · exact (hinit initBytes).trans (emits_of_trace_eq rfl)
  · exact (hinit _).trans (emits_of_trace_eq rfl)

theorem emits_of_destruct (h : execDestruct s = .next t) : Emits s t := by
  obtain ⟨-, -, pb, -, ht⟩ := execDestruct_next h
  have hframes : ∀ f ∈ canvasFrames pb, FlushFrame f := flushFrame_of_mem_canvasFrames
  generalize canvasFrames pb = frames at ht hframes
  obtain rfl | ⟨k, rfl⟩ := ht
  · exact (Emits.sent s hframes).trans (emits_of_trace_eq rfl)
  · exact (Emits.sentThenFailed s hframes k).trans (emits_of_trace_eq rfl)

end

/-- A host operation appends an emission to the trace, completed or faulted; the internal `SEND`, which could append any frame,
cannot be issued (R104). -/
theorem exec_emits {i : Instr} {s t : State} (hi : i.issuable = true) (h : exec i s = .next t) : Emits s t := by
  cases i with
  | construct busId deviceId => exact emits_of_construct h
  | destruct => exact emits_of_destruct h
  | setFunctionSet ext gfx => exact emits_of_instruction h
  | setDisplayControl d c b => exact emits_of_instruction h
  | setShiftControl shifting right => exact emits_of_instruction h
  | setEntryMode inc sh => exact emits_of_instruction h
  | setFontHeight px =>
    obtain ⟨-, ⟨-, ht⟩ | ⟨-, ht⟩⟩ := execSetFontHeight_next h
    · exact emits_of_drawn ht
    · exact emits_of_drawn ht
  | setPixel x y on =>
    obtain ⟨-, -, ht⟩ := execSetPixel_next h
    exact emits_of_drawn ht
  | setRegion x1 y1 x2 y2 on =>
    obtain ⟨-, -, ht⟩ := execSetRegion_next h
    exact emits_of_drawn ht
  | putString x y text =>
    obtain ⟨-, -, p, -, ht⟩ := execPutString_next h
    exact emits_of_drawn ht
  | putBitmap x y width data =>
    obtain ⟨-, -, -, ht⟩ := execPutBitmap_next h
    exact emits_of_drawn ht
  | drawAll =>
    obtain ⟨-, -, ht⟩ := execDrawAll_next h
    exact emits_of_flush flushFrame_of_mem_canvasFrames ht
  | drawRow r =>
    obtain ⟨-, -, ht⟩ := execDrawRow_next h
    exact emits_of_flush flushFrame_of_mem_rowFrames ht
  | drawSectionsForBB x1 y1 x2 y2 =>
    obtain ⟨-, -, frames, rfl, ht⟩ := execDrawSectionsForBB_next h
    exact emits_of_flush flushFrame_of_mem_boxFrames ht
  | send | gramAddrSet | putChar | wireFunctionSet | wireDisplayControl | wireShiftControl | wireEntryMode | wireGramAddrRow
  | wireGramAddrCol | wireSync | wireNibbleHigh | wireNibbleLow | wireData => exact absurd hi Bool.false_ne_true

/-- Every step appends an emission to the trace: a wire-level row, which sends nothing, an empty one. -/
theorem step_emits {s t : State} (h : step s = .next t) : Emits s t := by
  obtain rfl | ⟨i, port, line, hexec, hi | hwire⟩ := step_cases h
  · exact emits_of_trace_eq rfl
  · have htaken : Emits s { s with port := port, line := line } := emits_of_trace_eq rfl
    exact htaken.trans (exec_emits hi hexec)
  · have ht := wireRowsTouchPanelOnly i { s with port := port, line := line } t hwire hexec
    have htrace : t.trace = _ := congrArg State.trace ht
    exact emits_of_trace_eq htrace

/-! ## Well-formed frames -/

theorem lowBits_of_nibble : ∀ n : BitVec 4, (n ++ 0#4 : Byte) &&& 0x0F = 0 := by decide

theorem wireNibbles_cons (b : Byte) (data : List Byte) :
    wireNibbles (b :: data) = (b.extractLsb' 4 4 ++ 0#4) :: (b.extractLsb' 0 4 ++ 0#4) :: wireNibbles data := rfl

/-- The nibble bytes of a payload come in pairs (R82). -/
theorem wireNibbles_length (data : List Byte) : (wireNibbles data).length = 2 * data.length := by
  induction data with
  | nil => rfl
  | cons b data ih => rw [wireNibbles_cons, List.length_cons, List.length_cons, List.length_cons, ih]; omega

theorem wireNibbles_lowBits (data : List Byte) : ((wireNibbles data).all fun v => v &&& 0x0F == 0) = true := by
  induction data with
  | nil => rfl
  | cons b data ih => simp only [wireNibbles_cons, List.all_cons, lowBits_of_nibble, ih, beq_self_eq_true, Bool.and_self]

/-- A synchronisation byte with `rw = 0` and the nibble bytes of any payload make a well-formed frame (R80 to R82). -/
theorem wellFramed_wireNibbles {sync : Byte} (data : List Byte) (h : sync = 0xF8 ∨ sync = 0xFA) :
    wellFramed (.tx (sync :: wireNibbles data)) = true := by
  have hsync : (sync == 0xF8 || sync == 0xFA) = true := by simpa using h
  have hpairs : ((wireNibbles data).length % 2 == 0) = true := by simp [wireNibbles_length]
  simp only [wellFramed, hsync, hpairs, wireNibbles_lowBits, Bool.and_self]

theorem FlushFrame.wellFramed {f : List Byte} (h : FlushFrame f) : Machine.wellFramed (.tx f) = true := by
  obtain ⟨row, col, rfl⟩ | ⟨words, rfl⟩ := h
  · exact wellFramed_wireNibbles _ (.inl rfl)
  · exact wellFramed_wireNibbles _ (.inr rfl)

theorem Emission.wellFramed {es : List Event} (h : Emission es) : es.all Machine.wellFramed = true := by
  induction h with
  | nothing => rfl
  | flushFrame hf _ ih => rw [List.all_cons, hf.wellFramed, ih]; rfl
  | instruction b _ ih => rw [List.all_cons, wellFramed_wireNibbles _ (.inl rfl), List.all_cons, ih]; rfl

/-! ## A wire-level row on the panel -/

theorem onPanel_unspecified {s : State} (h : s.panel.standing = .unspecified) (effect : Panel → Except Refusal Panel) :
    onPanel effect s = .refused .panelUnspecified := by
  simp only [onPanel, h]

theorem onPanel_ok {effect : Panel → Except Refusal Panel} {s : State} {p : Panel} (h : s.panel.standing = .following)
    (he : effect s.panel = .ok p) : onPanel effect s = .next { s with panel := p } := by
  simp only [onPanel, h, he]

theorem onPanel_error {effect : Panel → Except Refusal Panel} {s : State} {why : Refusal}
    (h : s.panel.standing = .following) (he : effect s.panel = .error why) : onPanel effect s = .refused why := by
  simp only [onPanel, h, he]

theorem whenGraphic_basicSet {p : Panel} (k : Except Refusal Panel) (h : p.regs.modeE = false) :
    p.whenGraphic k = .error .basicSet := by
  simp [Panel.whenGraphic, h]

theorem whenGraphic_graphicsOff {p : Panel} (k : Except Refusal Panel) (he : p.regs.modeE = true)
    (hg : p.regs.modeG = false) : p.whenGraphic k = .error .graphicsOff := by
  simp [Panel.whenGraphic, he, hg]

theorem addrRow_noSuchRow {p : Panel} {row : BitVec 6} (he : p.regs.modeE = true) (hg : p.regs.modeG = true)
    (h : 31 < row.toNat) : p.addrRow row = .error .noSuchGramRow := by
  rw [Panel.addrRow, whenGraphic_open _ he hg, if_pos (by omega)]

theorem dataByte_noSuchRow {p : Panel} (d : Byte) (he : p.regs.modeE = true) (hg : p.regs.modeG = true)
    (hb : p.regs.bp = true) (h : 31 < p.regs.ar.toNat) : p.dataByte d = .error .noSuchGramRow := by
  rw [Panel.dataByte, whenGraphic_open _ he hg, hb, if_neg (by decide), if_pos (by omega)]

theorem nibbleLow_alone {p : Panel} (l : BitVec 4) (h : p.regs.rx.high = none) : p.nibbleLow l = .error .noHighNibble := by
  simp only [Panel.nibbleLow, h]

theorem nibbleLow_joins {p : Panel} {h : BitVec 4} (l : BitVec 4) (hh : p.regs.rx.high = some h) :
    p.nibbleLow l = .ok { p with regs.rx.high := none, regs.rx.payload := some (h ++ l) } := by
  simp only [Panel.nibbleLow, hh]

/-- Joining two nibbles is `first | (second >> 4)` of their wire bytes (R82). -/
theorem append_eq_or_shift : ∀ h l : BitVec 4, (h ++ l : Byte) = (h ++ 0#4) ||| ((l ++ 0#4 : Byte) >>> 4) := by decide

/-! ## Which bytes the panel understands -/

/-- The byte is an instruction where it is read, and the panel has a meaning for it. -/
def Panel.understands (p : Panel) (port : Port) (b : Byte) : Bool :=
  match decode port [b] with
  | .error _ => false
  | .ok i => (wireEffect i p).isOk

theorem understands_of_decode {p : Panel} {port : Port} {b : Byte} {i : Instr} (hd : decode port [b] = .ok i) :
    p.understands port b = (wireEffect i p).isOk := by
  simp only [Panel.understands, hd]

theorem understands_undecodable {p : Panel} {port : Port} {b : Byte} {why : DecodeError}
    (hd : decode port [b] = .error why) : p.understands port b = false := by
  simp only [Panel.understands, hd]

/-- No wire-level row ends the receiver model's claims by itself. -/
theorem wireEffect_standing {i : Instr} {p q : Panel} (h : wireEffect i p = .ok q) : q.standing = p.standing := by
  cases i with
  | wireFunctionSet e g =>
    simp only [wireEffect, Panel.functionSet] at h
    split at h <;> cases h
    rfl
  | wireDisplayControl | wireShiftControl | wireEntryMode | wireNibbleHigh => cases h; rfl
  | wireGramAddrRow row =>
    obtain ⟨-, -, h⟩ := whenGraphic_ok h
    split at h <;> cases h
    rfl
  | wireGramAddrCol col =>
    obtain ⟨-, -, h⟩ := whenGraphic_ok h
    cases h
    rfl
  | wireSync rw rs =>
    simp only [wireEffect, Panel.sync] at h
    split at h <;> cases h <;> rfl
  | wireNibbleLow l =>
    simp only [wireEffect, Panel.nibbleLow] at h
    split at h <;> cases h
    rfl
  | wireData d =>
    obtain ⟨-, -, h⟩ := whenGraphic_ok h
    split at h
    · cases h; rfl
    · split at h <;> cases h
      exact (advance_fields p).1
  | construct | destruct | setFunctionSet | setDisplayControl | setShiftControl | setEntryMode | setFontHeight | setPixel
  | setRegion | putString | putBitmap | drawAll | drawRow | drawSectionsForBB | send | gramAddrSet | putChar => cases h

/-- The panel is given up exactly at a byte it does not understand. -/
theorem take_unspecified_iff {p : Panel} (hs : p.standing = .following) (port : Port) (b : Byte) :
    (p.take port b).standing = .unspecified ↔ p.understands port b = false := by
  cases hd : decode port [b] with
  | error why =>
    have htake : p.take port b = p.giveUp := by simp only [Panel.take, hd]
    rw [htake, understands_undecodable hd]
    exact iff_of_true rfl rfl
  | ok i =>
    rw [understands_of_decode hd]
    cases he : wireEffect i p with
    | error why =>
      rw [take_refused hd he]
      exact iff_of_true rfl rfl
    | ok q =>
      rw [take_of_effect hd he, wireEffect_standing he, hs]
      exact iff_of_false Standing.noConfusion Bool.false_ne_true.symm

theorem whenGraphic_isOk (p : Panel) (k : Except Refusal Panel) :
    (p.whenGraphic k).isOk = (p.regs.modeE && p.regs.modeG && k.isOk) := by
  cases he : p.regs.modeE with
  | false => rw [whenGraphic_basicSet k he]; rfl
  | true =>
    cases hg : p.regs.modeG with
    | false => rw [whenGraphic_graphicsOff k he hg]; rfl
    | true => rw [whenGraphic_open k he hg]; rfl

theorem understands_data (p : Panel) (d : Byte) :
    p.understands .data d =
      (p.regs.modeE && p.regs.modeG && !(p.regs.bp && decide (32 ≤ p.regs.ar.toNat))) := by
  rw [understands_of_decode (i := .wireData d) rfl]
  refine (whenGraphic_isOk p _).trans ?_
  congr 1
  cases p.regs.bp with
  | false => rfl
  | true =>
    by_cases har : 32 ≤ p.regs.ar.toNat
    · rw [decide_eq_true har, if_neg (by decide), if_pos har]; rfl
    · rw [decide_eq_false har, if_neg (by decide), if_neg har]; rfl

theorem addrRow_isOk (p : Panel) (row : BitVec 6) :
    (p.addrRow row).isOk = (p.regs.modeE && p.regs.modeG && decide (row.toNat < 32)) := by
  rw [Panel.addrRow, whenGraphic_isOk]
  congr 1
  by_cases hrow : 32 ≤ row.toNat
  · rw [if_pos hrow, decide_eq_false (by omega)]; rfl
  · rw [if_neg hrow, decide_eq_true (by omega)]; rfl

/-- The column byte of an address set has bits 7:4 `1000` (R90). -/
theorem understands_column (p : Panel) (d : Byte) :
    p.understands (.instruction .column) d =
      (p.regs.modeE && p.regs.modeG && decide (0x80 ≤ d.toNat ∧ d.toNat ≤ 0x8F)) := by
  have hrange : ∀ d : Byte, d &&& 0xF0 = 0x80 ↔ 0x80 ≤ d.toNat ∧ d.toNat ≤ 0x8F := by decide
  by_cases hcol : d &&& 0xF0 = 0x80
  · have hd : decode (.instruction .column) [d] = .ok (.wireGramAddrCol (d.extractLsb' 0 4)) := if_pos hcol
    rw [understands_of_decode hd, decide_eq_true ((hrange d).mp hcol)]
    exact whenGraphic_isOk p _
  · have hd : decode (.instruction .column) [d] = .error .neverEmitted := if_neg hcol
    rw [understands_undecodable hd, decide_eq_false ((hrange d).not.mp hcol), Bool.and_false]

/-- A configuration byte (R86 to R89) is always taken: the decoder has rejected 0x32 (R93). -/
theorem configuration_isOk {d : Byte} {i : Instr} (p : Panel) (hrow : ¬ d &&& 0xC0 = 0x80)
    (h : decodeFirstByte d = .ok i) : (wireEffect i p).isOk = true := by
  unfold decodeFirstByte at h
  rw [if_neg hrow] at h
  split at h
  next =>
    split at h
    next => cases h
    next hemitted =>
      cases h
      show (p.functionSet _ _).isOk = true
      rw [Panel.functionSet, if_neg hemitted]
      rfl
  next =>
  split at h
  next => cases h; rfl
  next =>
  split at h
  next => cases h; rfl
  next => split at h <;> cases h; rfl

/-- The first instruction byte of a frame: a row byte, `10` and six bits (R90), or a configuration byte (R86 to R89). -/
theorem understands_first (p : Panel) (d : Byte) :
    p.understands (.instruction .first) d =
      if d &&& 0xC0 = 0x80 then p.regs.modeE && p.regs.modeG && decide ((d.extractLsb' 0 6).toNat < 32)
      else (decodeFirstByte d).isOk := by
  by_cases hrow : d &&& 0xC0 = 0x80
  · have hd : decode (.instruction .first) [d] = .ok (.wireGramAddrRow (d.extractLsb' 0 6)) := if_pos hrow
    rw [if_pos hrow, understands_of_decode hd]
    exact addrRow_isOk p _
  · rw [if_neg hrow, ← show decode (.instruction .first) [d] = decodeFirstByte d from rfl]
    cases hd : decode (.instruction .first) [d] with
    | error why => exact understands_undecodable hd
    | ok i => exact (understands_of_decode hd).trans (configuration_isOk p hrow hd)

/-- The five patterns of R86 to R90 as the bytes they are. -/
theorem firstByte_listed : ∀ (graphic : Bool) (d : Byte),
    (if d &&& 0xC0 = 0x80 then graphic && decide ((d.extractLsb' 0 6).toNat < 32) else (decodeFirstByte d).isOk) =
      ([0x30, 0x34, 0x36, 0x10, 0x14, 0x18, 0x1C, 0x04, 0x05, 0x06, 0x07].contains d.toNat ||
        decide (0x08 ≤ d.toNat ∧ d.toNat ≤ 0x0F) || (graphic && decide (0x80 ≤ d.toNat ∧ d.toNat ≤ 0x9F))) := by decide

/-- The payload bytes without meaning are those the panel does not understand where it reads them. -/
theorem payloadMeaningless_eq (p : Panel) (d : Byte) :
    payloadMeaningless p d = !p.understands p.payloadPort d := by
  unfold payloadMeaningless Panel.payloadPort
  cases p.regs.rx.rw with
  | true => rfl
  | false =>
    cases p.regs.rx.rs with
    | true => simp [understands_data]
    | false =>
      cases p.regs.rx.slot with
      | first =>
        show _ = !p.understands (.instruction .first) d
        rw [understands_first, firstByte_listed]
        rfl
      | column =>
        show _ = !p.understands (.instruction .column) d
        rw [understands_column]
        rfl
      | done => rfl

/-! ## Which bytes of the line have a meaning -/

theorem syncByte_listed : ∀ b : Byte, [0xF8, 0xFA, 0xFC, 0xFE].contains b.toNat = decide (b &&& 0xF9 = 0xF8) := by decide

theorem lowBits_zero_iff : ∀ b : Byte, b.toNat % 16 = 0 ↔ b &&& 0x0F = 0x00 := by decide

section
variable {p : Panel} {b : Byte} (hs : p.standing = .following)
include hs

theorem receiveByte_of_effect {i : Instr} {q : Panel} (hd : decode p.linePort [b] = .ok i) (he : wireEffect i p = .ok q) :
    p.receiveByte b = q.takePayload := by
  rw [receiveByte_following hs, take_of_effect hd he]

/-- A byte that leaves no payload byte to act on ends no claim. -/
theorem receiveByte_keeps_following {i : Instr} {q : Panel} (hd : decode p.linePort [b] = .ok i)
    (he : wireEffect i p = .ok q) (hq : q.regs.rx.payload = none) : (p.receiveByte b).standing ≠ .unspecified := by
  rw [receiveByte_of_effect hs hd he, takePayload_none hq, wireEffect_standing he, hs]
  exact Standing.noConfusion

theorem receiveByte_undecodable {why : DecodeError} (hd : decode p.linePort [b] = .error why) :
    (p.receiveByte b).standing = .unspecified := by
  have htake : p.take p.linePort b = p.giveUp := by simp only [Panel.take, hd]
  rw [receiveByte_following hs, htake, takePayload_none rfl]
  rfl

/-- A synchronisation byte always begins a frame, early or not (R80, R285). -/
theorem receiveByte_sync_following (hb : b &&& 0xF9 = 0xF8) : (p.receiveByte b).standing ≠ .unspecified := by
  have hd : decode p.linePort [b] = .ok (.wireSync (b.getLsbD 2) (b.getLsbD 1)) := if_pos hb
  by_cases hbusy : p.regs.busyUs = 0
  · exact receiveByte_keeps_following hs hd (if_pos hbusy) rfl
  · exact receiveByte_keeps_following hs hd (if_neg hbusy) rfl

/-- A second nibble joins a payload byte, and the panel is given up exactly where that byte has no meaning. -/
theorem receiveByte_join_iff {h : BitVec 4} (hd : decode p.linePort [b] = .ok (.wireNibbleLow (b.extractLsb' 4 4)))
    (hh : p.regs.rx.high = some h) :
    (p.receiveByte b).standing = .unspecified ↔ payloadMeaningless p (h ++ b.extractLsb' 4 4) = true := by
  rw [receiveByte_of_effect hs hd (nibbleLow_joins _ hh), takePayload_some rfl, take_unspecified_iff (by exact hs),
    ← Bool.not_eq_true', ← payloadMeaningless_eq]
  rfl

/-- The bytes of the line at which the panel is given up, by what the byte is (R84) and where it stands (R80, R82). -/
theorem receiveByte_unspecified_iff (hp : p.regs.rx.payload = none) :
    (p.receiveByte b).standing = .unspecified ↔ lineByteMeaningless p b = true := by
  unfold lineByteMeaningless
  rw [syncByte_listed]
  by_cases hsync : b &&& 0xF9 = 0xF8
  · rw [decide_eq_true hsync]
    exact iff_of_false (receiveByte_sync_following hs hsync) Bool.false_ne_true
  rw [decide_eq_false hsync]
  by_cases hnibble : b &&& 0x0F = 0x00
  · have hlow := (lowBits_zero_iff b).mpr hnibble
    have hdecode : decode p.linePort [b] = if p.regs.rx.inFrame then
        if p.regs.rx.high.isSome then .ok (.wireNibbleLow (b.extractLsb' 4 4)) else .ok (.wireNibbleHigh (b.extractLsb' 4 4))
      else .error .nibbleOutsideFrame := (if_neg hsync).trans (if_pos hnibble)
    cases hin : p.regs.rx.inFrame with
    | false =>
      rw [hin] at hdecode
      simpa using receiveByte_undecodable hs hdecode
    | true =>
      rw [hin] at hdecode
      cases hh : p.regs.rx.high with
      | none =>
        rw [hh] at hdecode
        simpa [hlow] using receiveByte_keeps_following hs hdecode rfl hp
      | some h =>
        rw [hh] at hdecode
        simpa [hlow] using receiveByte_join_iff hs hdecode hh
  · have hlow := (lowBits_zero_iff b).not.mpr hnibble
    have hdecode : decode p.linePort [b] = .error .notAFrameByte := (if_neg hsync).trans (if_neg hnibble)
    simpa [hlow] using receiveByte_undecodable hs hdecode

end

/-! ## The obligations -/

/-- Settles O41: a step appends an emission, whose frames are well formed. -/
theorem framesKeptWellFormed : Obligations.FramesKeptWellFormed := by
  intro s t hs h
  obtain ⟨es, htrace, hes⟩ := step_emits h
  rw [htrace, List.all_append, hs, hes.wellFramed]
  rfl

/-- Settles O56: by the kind of the byte on the line, and for one that completes a payload byte by the place of that byte. -/
theorem panelGivesUpAtMeaninglessBytes : Obligations.PanelGivesUpAtMeaninglessBytes :=
  fun p b => ⟨receiveByte_unspecified_iff, fun h => ⟨receiveByte_unspecified p b h, glass_unspecified h⟩⟩

/-- Settles O2: each word is evaluated by the decoder. -/
theorem sampleWordsDecode : Obligations.SampleWordsDecode := ⟨rfl, rfl, rfl, rfl, rfl, rfl, rfl, rfl, rfl⟩

/-- Settles O7: the two wire bytes are the nibbles over four zero bits, and every byte is put together from them again. -/
theorem nibblesCarryTheByte : Obligations.NibblesCarryTheByte := by
  intro b
  have hrecover : ∀ b : Byte, (b &&& 0xF0) ||| (((b &&& 0x0F) <<< 4) >>> 4) = b := by decide
  have hbits : ∀ (b : Byte) (i : Nat), i < 4 → (b &&& 0xF0).getLsbD i = false ∧ ((b &&& 0x0F) <<< 4).getLsbD i = false ∧
      (b &&& 0xF0).getLsbD (4 + i) = b.getLsbD (4 + i) ∧ ((b &&& 0x0F) <<< 4).getLsbD (4 + i) = b.getLsbD i := by decide
  exact ⟨_, _, rfl, rfl, rfl, hbits b, hrecover b⟩

/-- Settles O8, flag by flag. -/
theorem instructionBytesAreTheirPatterns : Obligations.InstructionBytesAreTheirPatterns :=
  ⟨by decide, by decide, by decide, by decide⟩

/-- Settles O51: each frame byte has its effect on the place in the frame; joined nibbles are R82's formula. -/
theorem wireFrameBytesBuildPayload : Obligations.WireFrameBytesBuildPayload := by
  refine fun s hs => ⟨fun rw rs hb => ?_, fun h => ?_, fun h l hh => ?_⟩
  · exact onPanel_ok hs (if_pos hb)
  · exact onPanel_ok (effect := Panel.nibbleHigh h) hs rfl
  · rw [← append_eq_or_shift]
    exact onPanel_ok hs (nibbleLow_joins l hh)

/-- Settles O53: the panel's standing first, then the gate of extended graphics mode, then each row's own operand. -/
theorem wireStops : Obligations.WireStops := by
  refine fun s => ⟨fun hs i hi => ?_, fun hs => ⟨fun he => ?_, fun he hg => ?_, fun he hg => ?_, ?_, fun hh l => ?_⟩⟩
  · rw [exec_wire hi, onPanel_unspecified hs]
  · exact ⟨fun _ => onPanel_error hs (whenGraphic_basicSet _ he), fun _ => onPanel_error hs (whenGraphic_basicSet _ he),
      fun _ => onPanel_error hs (whenGraphic_basicSet _ he)⟩
  · exact ⟨fun _ => onPanel_error hs (whenGraphic_graphicsOff _ he hg),
      fun _ => onPanel_error hs (whenGraphic_graphicsOff _ he hg), fun _ => onPanel_error hs (whenGraphic_graphicsOff _ he hg)⟩
  · exact ⟨fun _ hrow => onPanel_error hs (addrRow_noSuchRow he hg hrow),
      fun d hb har => onPanel_error hs (dataByte_noSuchRow d he hg hb har)⟩
  · exact onPanel_error (effect := Panel.functionSet false true) hs rfl
  · exact onPanel_error hs (nibbleLow_alone l hh)

end Sys2Proof.Machine
end

section
/-! The PixelBuffer family: `SET_PIXEL` and `SET_REGION` complete and change `PB` alone (R120, R122), what they leave of each
pixel (R121, R124), and how many pixels a region writes (R123). -/

namespace Sys2Proof.Machine

/-! ## The two operations complete -/

section
variable {s : State} (hr : s.lc = .ready) (hp : s.pbExists = true)
include hr hp

theorem exec_setPixel_of_ready (x y : Int) (on : Bool) :
    exec (.setPixel x y on) s = .next { s with pb := drawPixel x y on s.pb, ci := s.ci + 1 } :=
  onCanvas_of_ready hr hp _

theorem exec_setRegion_of_ready (x1 y1 x2 y2 : Int) (on : Bool) :
    exec (.setRegion x1 y1 x2 y2 on) s = .next { s with pb := drawRegion x1 y1 x2 y2 on s.pb, ci := s.ci + 1 } :=
  onCanvas_of_ready hr hp _

end

/-! ## One pixel -/

/-- Off the canvas the range test of R120 fails. -/
theorem drawPixel_offCanvas {x y : Int} (h : ¬ inCanvas x y = true) (on : Bool) (pb : List Host.Cell) :
    drawPixel x y on pb = pb := if_neg h

/-- The word that holds the pixel, after the read-modify-write of R120. -/
theorem memRead_drawPixel {x y : Nat} (hx : x < 128) (hy : y < 64) (on : Bool) (pb : List Host.Cell) :
    memRead (drawPixel x y on pb) (wordRow y) (wordCol x y) =
      if on then memRead pb (wordRow y) (wordCol x y) ||| pixelMask x
      else memRead pb (wordRow y) (wordCol x y) &&& ~~~pixelMask x := by
  rw [drawPixel, if_pos (inCanvas_nat hx hy)]
  simp only [Int.toNat_natCast]
  rw [memRead_memWrite _ _ _ _ _ _ (wordCol_lt hx) (wordCol_lt hx), if_pos ⟨rfl, rfl⟩]

theorem getPixel_offCanvas {x y : Int} (h : ¬ inCanvas x y = true) (s : State) : getPixel s x y = none := by
  simp [getPixel, h]

theorem getPixel_onCanvas {s : State} (hp : s.pbExists = true) {x y : Nat} (hx : x < 128) (hy : y < 64) :
    getPixel s x y = some (pixelOf s.pb x y) := by
  simp [getPixel, hp, inCanvas_nat hx hy]

/-- A place on the canvas has natural coordinates. -/
theorem exists_nat_of_inCanvas {x y : Int} (h : inCanvas x y = true) :
    ∃ a b : Nat, x = a ∧ y = b ∧ a < 128 ∧ b < 64 := by
  obtain ⟨hx0, hx, hy0, hy⟩ := (inCanvas_iff x y).mp h
  exact ⟨x.toNat, y.toNat, by omega, by omega, by omega, by omega⟩

/-- `GET_PIXEL` anywhere, after a pixel is set: `on` at that pixel where it lies on the canvas, elsewhere as before. -/
theorem getPixel_drawPixel {s : State} (hp : s.pbExists = true) (x y x' y' : Int) (on : Bool) (n : Nat) :
    getPixel { s with pb := drawPixel x y on s.pb, ci := n } x' y' =
      if inCanvas x y = true ∧ (x', y') = (x, y) then some on else getPixel s x' y' := by
  by_cases hin : inCanvas x' y' = true
  · obtain ⟨a, b, rfl, rfl, ha, hb⟩ := exists_nat_of_inCanvas hin
    rw [getPixel_onCanvas (s := s) hp ha hb, getPixel_onCanvas (by exact hp) ha hb, pixelOf_drawPixel _ _ _ _ ha hb]
    by_cases hxy : x = a ∧ y = b
    · obtain ⟨rfl, rfl⟩ := hxy
      rw [if_pos ⟨rfl, rfl⟩, if_pos ⟨hin, rfl⟩]
    · rw [if_neg hxy, if_neg]
      rintro ⟨-, h⟩
      obtain ⟨hxa, hyb⟩ := Prod.mk.inj h
      exact hxy ⟨hxa.symm, hyb.symm⟩
  · rw [getPixel_offCanvas hin, getPixel_offCanvas hin, if_neg]
    rintro ⟨hxy, h⟩
    obtain ⟨rfl, rfl⟩ := Prod.mk.inj h
    exact hin hxy

/-! ## How many pixels a region writes (R123) -/

theorem nodup_canvasSpan (lo hi : Int) (limit : Nat) : (canvasSpan lo hi limit).Nodup := List.nodup_range.filter _

/-- One more place on the axis is one more coordinate exactly where it lies in the span. -/
theorem canvasSpan_succ (lo hi : Int) (limit : Nat) :
    canvasSpan lo hi (limit + 1) = canvasSpan lo hi limit ++ if lo ≤ limit ∧ (limit : Int) ≤ hi then [limit] else [] := by
  rw [canvasSpan, List.range_succ, List.filter_append, ← canvasSpan, List.filter_singleton, Bool.cond_decide]

theorem length_canvasSpan (lo hi : Int) (limit : Nat) :
    ((canvasSpan lo hi limit).length : Int) = max 0 (min hi (limit - 1) - max lo 0 + 1) := by
  induction limit with
  | zero =>
    rw [show canvasSpan lo hi 0 = [] from rfl, List.length_nil]
    omega
  | succ n ih =>
    rw [canvasSpan_succ, List.length_append, Int.natCast_add, ih]
    split
    · rw [List.length_singleton]
      omega
    · rw [List.length_nil]
      omega

/-- A region is the product of its two spans, the rows outermost. -/
theorem regionPixels_eq_product (x1 y1 x2 y2 : Int) :
    regionPixels x1 y1 x2 y2 =
      (canvasSpan y1 y2 Config.canvasH ×ˢ canvasSpan x1 x2 Config.canvasW).map Prod.swap := by
  simp only [regionPixels, SProd.sprod, List.product, List.map_flatMap, List.map_map]
  rfl

theorem nodup_regionPixels (x1 y1 x2 y2 : Int) : (regionPixels x1 y1 x2 y2).Nodup := by
  rw [regionPixels_eq_product]
  exact ((nodup_canvasSpan _ _ _).product (nodup_canvasSpan _ _ _)).map Prod.swap_injective

theorem length_regionPixels (x1 y1 x2 y2 : Int) :
    ((regionPixels x1 y1 x2 y2).length : Int) =
      max 0 (min x2 127 - max x1 0 + 1) * max 0 (min y2 63 - max y1 0 + 1) := by
  rw [regionPixels_eq_product, List.length_map, List.length_product, Int.natCast_mul, length_canvasSpan, length_canvasSpan,
    mul_comm]
  rfl

/-- The clamped length of a span that lies inside its axis. -/
theorem clampedLength_of_inside {lo hi top : Int} (h0 : 0 ≤ lo) (h : lo ≤ hi) (htop : hi ≤ top) :
    max 0 (min hi top - max lo 0 + 1) = hi - lo + 1 := by omega

/-! ## The obligations -/

/-- Settles O11: the word that holds the pixel is read back, every other byte is outside it. -/
theorem setPixelWritesOneBit : Obligations.SetPixelWritesOneBit := by
  refine fun s on hr hp => ⟨fun x y hx hy => ⟨drawPixel x y on s.pb, exec_setPixel_of_ready hr hp x y on,
    memRead_drawPixel hx hy on s.pb, fun a hhigh hlow => ?_⟩, fun x y hoff => ?_⟩
  · exact pbByte_drawPixel_of_ne x y on s.pb a fun _ => ⟨hhigh, hlow⟩
  · have hin : ¬ inCanvas x y = true := fun h => by rw [inCanvas_iff] at h; omega
    rw [exec_setPixel_of_ready hr hp, drawPixel_offCanvas hin]

/-- Settles O12: `GET_PIXEL` after `SET_PIXEL`, at the pixel and anywhere else. -/
theorem setPixelRoundTrips : Obligations.SetPixelRoundTrips := by
  refine fun s x y on hr hp => ⟨_, exec_setPixel_of_ready hr hp x y on, rfl, fun h => ?_, fun x' y' hne => ?_⟩
  · rw [getPixel_drawPixel hp, if_pos ⟨(inCanvas_iff x y).mpr h, rfl⟩]
  · rw [getPixel_drawPixel hp, if_neg fun h => hne h.2]

/-- Settles O13: the operation's body is a drawing of the rectangle. -/
theorem setRegionDrawsRectangle : Obligations.SetRegionDrawsRectangle := fun s x1 y1 x2 y2 on hr hp =>
  ⟨_, exec_setRegion_of_ready hr hp x1 y1 x2 y2 on, draws_drawRegion x1 y1 x2 y2 on s.pb⟩

/-- Settles O14: a region's length is the product of its spans' lengths, each clamped to its axis. -/
theorem regionPixelCount : Obligations.RegionPixelCount := by
  refine fun x1 y1 x2 y2 => ⟨nodup_regionPixels x1 y1 x2 y2, length_regionPixels x1 y1 x2 y2,
    fun hx1 hx hx2 hy1 hy hy2 => ?_⟩
  rw [length_regionPixels, clampedLength_of_inside hx1 hx hx2, clampedLength_of_inside hy1 hy hy2]

end Sys2Proof.Machine
end

section
/-! The protocol family: every instruction frame is followed at once by its settle delay (R141, R310), and what the configuration
operations, `SEND` and `GRAM_ADDR_SET` do, sent or failed (R140 to R146, R265). -/

namespace Sys2Proof.Machine

/-! ## Pacing -/

theorem paced_cons (e : Event) (rest : List Event) :
    paced (e :: rest) = ((!oneByteInstruction e || rest.head? == some .settle) && paced rest) := rfl

/-- A paced trace does not end in an instruction frame, so what comes after it need not begin with a settle delay. -/
theorem paced_append {es fs : List Event} (he : paced es = true) (hf : paced fs = true) : paced (es ++ fs) = true := by
  induction es with
  | nil => exact hf
  | cons e rest ih =>
    obtain ⟨hhead, hrest⟩ := Bool.and_eq_true_iff.mp he
    refine Bool.and_eq_true_iff.mpr ⟨?_, ih hrest⟩
    cases rest with
    | nil =>
      have hplain : oneByteInstruction e = false := by simpa using hhead
      rw [hplain]; rfl
    | cons _ _ => exact hhead

theorem oneByteInstruction_data (rest : List Byte) : oneByteInstruction (.tx (0xFA :: rest)) = false :=
  match rest with
  | [] | [_] | [_, _] | _ :: _ :: _ :: _ => rfl

/-- An address frame has five bytes, and a data frame another synchronisation byte. -/
theorem FlushFrame.not_oneByteInstruction {f : List Byte} (h : FlushFrame f) : oneByteInstruction (.tx f) = false := by
  obtain ⟨row, col, rfl⟩ | ⟨words, rfl⟩ := h
  · rfl
  · exact oneByteInstruction_data _

theorem Emission.paced {es : List Event} (h : Emission es) : Machine.paced es = true := by
  induction h with
  | nothing => rfl
  | flushFrame hf _ ih => rw [paced_cons, hf.not_oneByteInstruction, ih]; rfl
  | instruction b _ ih => rw [paced_cons, paced_cons, ih]; rfl

/-! ## The operations in `READY` -/

section
variable {s : State} (hr : s.lc = .ready)
include hr

/-- A configuration operation, by the result of its one write. -/
theorem instruction_of_ready (v : Byte) :
    whenReady s (finishOperation (sendInstruction v s)) = .next
      (if goesThrough (0xF8 :: wireNibbles [v]) (s.env.writes.headD .all) then { s.instructed v with ci := s.ci + 1 }
      else s.writeFailed) := by
  rw [whenReady_of_ready hr, sendInstruction_eq]
  split
  · rfl
  · rfl

/-- An internal send, by the result of its one write. -/
theorem sendMicro_of_ready (bytes : List Byte) :
    whenReady s (finishMicro (transportWrite bytes s)) = .next
      (if goesThrough bytes (s.env.writes.headD .all) then s.sent [bytes] else s.writeFailed) := by
  rw [whenReady_of_ready hr, transportWrite_eq]
  split
  · rfl
  · rfl

end

/-! ## The bytes they send -/

/-- R142: graphics only with the extended set. -/
theorem functionSetByte_eq : ∀ ext gfx : Bool,
    functionSetByte ext gfx = if ext then (if gfx then 0x36 else 0x34) else 0x30 := by decide

/-- R82 on a one-byte payload. -/
theorem wireNibbles_singleton (v : Byte) : wireNibbles [v] = [v &&& 0xF0, (v &&& 0x0F) <<< 4] := (nibbleBytes_eq v).symm

theorem length_frameBytes (rs rw : Bool) (data : List Byte) : (frameBytes rs rw data).length = 1 + 2 * data.length := by
  rw [frameBytes, flatMap_nibbleBytes, List.length_cons, wireNibbles_length, Nat.add_comm]

/-- Only the low six bits of the row and the low four of the column reach the wire (R90, R146). -/
theorem addressFrame_mod (row col : Nat) : addressFrame (row % 64) (col % 16) = addressFrame row col := by
  have hrow : BitVec.ofNat 6 (row % 64) = BitVec.ofNat 6 row := BitVec.eq_of_toNat_eq (Nat.mod_mod row 64)
  have hcol : BitVec.ofNat 4 (col % 16) = BitVec.ofNat 4 col := BitVec.eq_of_toNat_eq (Nat.mod_mod col 16)
  rw [addressFrame, addressFrame, hrow, hcol]

/-- An instruction's frame and settle delay, written out (R141). -/
theorem instructed_eq (s : State) (v : Byte) :
    s.instructed v =
      { s with
        trace := s.trace ++ [.tx [0xF8, v &&& 0xF0, (v &&& 0x0F) <<< 4], .settle]
        panel := (s.panel.receive [0xF8, v &&& 0xF0, (v &&& 0x0F) <<< 4]).wait s.env.settleMin
        env.writes := s.env.writes.drop 1 } := by
  rw [State.instructed, wireNibbles_singleton, State.sent, List.map_singleton, List.append_assoc]
  rfl

/-! ## The obligations -/

/-- Settles O42: a step appends an emission, in which every instruction frame has its settle delay. -/
theorem pacingKept : Obligations.PacingKept := by
  intro s t hs h
  obtain ⟨es, htrace, hes⟩ := step_emits h
  rw [htrace]
  exact paced_append hs hes.paced

/-- Settles O20: each of the four operations is `INSTR` of its own byte. -/
theorem configurationSendsItsByte : Obligations.ConfigurationSendsItsByte := by
  intro s hr i v hi
  have hexec : exec i s = whenReady s (finishOperation (sendInstruction v s)) := by
    obtain ⟨ext, gfx, rfl, rfl⟩ | ⟨d, c, b, rfl, rfl⟩ | ⟨sh, right, rfl, rfl⟩ | ⟨inc, sh, rfl, rfl⟩ := hi
    · rw [← functionSetByte_eq]; rfl
    · rfl
    · rfl
    · rfl
  rw [hexec, instruction_of_ready hr, wireNibbles_singleton, instructed_eq]
  exact ⟨fun hsent => by rw [if_pos hsent], fun hfailed => by rw [hfailed]; rfl⟩

/-- Settles O21: the frame written out is the frame the model sends in its one write. -/
theorem sendWritesOneFrame : Obligations.SendWritesOneFrame := by
  refine ⟨?_, by decide⟩
  intro s rs rw data frame hr hframe
  obtain rfl : frame = frameBytes rs rw data := hframe
  have hexec : exec (.send rs rw data) s = _ := sendMicro_of_ready hr (frameBytes rs rw data)
  exact ⟨length_frameBytes rs rw data, fun hsent => by rw [hexec, if_pos hsent], fun hfailed => by rw [hexec, hfailed]; rfl⟩

/-- Settles O22: the two masked address bytes are the payload of the one frame. -/
theorem gramAddrSetWritesOneFrame : Obligations.GramAddrSetWritesOneFrame := by
  intro s row col hr
  have hexec : exec (.gramAddrSet row col) s = _ := sendMicro_of_ready hr (frameBytes false false (gramAddrBytes row col))
  rw [frameBytes_address] at hexec
  exact ⟨(addressFrame_mod row col).symm, rfl, fun hsent => by rw [hexec, if_pos hsent],
    fun hfailed => by rw [hexec, hfailed]; rfl⟩

end Sys2Proof.Machine
end

section
/-! The redraw family: which frames the three flushes send, sent whole or up to the write that fails (R170, R174, R176, R265), how
many frames and bytes they are (R171), and what the panel makes of them, in extended graphics mode (R286, R287) and outside it
(U14, R316). -/

namespace Sys2Proof.Machine

/-! ## A list of frames that ends an operation -/

/-- Both ends of an operation that sends frames, by how many of them the coming writes let through (R265). -/
theorem sendAll_outcomes (frames : List (List Byte)) (s : State) :
    (framesThrough frames s.env.writes = frames.length →
      finishOperation (sendAll frames s) = .next { s.sent frames with ci := s.ci + 1 }) ∧
    ∀ k, k < frames.length → framesThrough frames s.env.writes = k →
      finishOperation (sendAll frames s) = .next (s.sent (frames.take k)).writeFailed := by
  refine ⟨fun hall => ?_, fun k hk hsome => ?_⟩
  · rw [sendAll_eq, if_pos hall]; rfl
  · rw [sendAll_eq, hsome, if_neg hk.ne]; rfl

/-- Over a sound link the operation completes with every frame sent (R35). -/
theorem completes_of_linkSound {s : State} {i : Instr} {frames : List (List Byte)} (hl : linkSound s = true)
    (hexec : exec i s = finishOperation (sendAll frames s)) :
    ∃ t, exec i s = .next t ∧ t.pb = s.pb ∧ t.ci = s.ci + 1 ∧ t.trace = s.trace ++ frames.map Event.tx ∧
      t.panel = frames.foldl Panel.receive s.panel :=
  ⟨_, hexec.trans ((sendAll_outcomes frames s).1 (framesThrough_sound frames hl)), rfl, rfl, rfl, rfl⟩

/-! ## The three flushes in `READY` -/

section
variable {s : State} (hr : s.lc = .ready) (hp : s.pbExists = true)
include hr hp

theorem exec_drawAll_of_ready : exec .drawAll s = finishOperation (sendAll (canvasFrames s.pb) s) := by
  rw [← flushAll_eq]
  exact onCanvas_of_ready hr hp _

theorem exec_drawRow_of_ready {r : Nat} (h : r ≤ 63) :
    exec (.drawRow r) s = finishOperation (sendAll (rowFrames s.pb r) s) := by
  rw [← flushRow_eq]
  exact (onCanvas_of_ready hr hp _).trans (if_pos ⟨by omega, by omega⟩)

theorem exec_drawSections_of_ready {x1 y1 x2 y2 : Nat} (hx1 : x1 ≤ 127) (hx2 : x2 ≤ 127) (hy1 : y1 ≤ 63) (hy2 : y2 ≤ 63) :
    exec (.drawSectionsForBB x1 y1 x2 y2) s = finishOperation (sendAll (boxFrames s.pb x1 y1 x2 y2) s) := by
  rw [← flushBox_eq]
  exact (onCanvas_of_ready hr hp _).trans (if_pos ((boxOnCanvas_iff ..).mpr (by omega)))

end

/-! ## How many frames and bytes (R171) -/

theorem length_dataFrame (ws : List Word) : (dataFrame ws).length = 1 + 4 * ws.length := by
  rw [← frameBytes_data, length_frameBytes, List.length_flatMap]
  simp only [cellPayload, List.length_cons, List.length_nil, List.map_const', List.sum_replicate, smul_eq_mul]
  omega

/-- A loop whose every turn sends frames of these sizes. -/
theorem sizes_flatMap {α : Type} {frames : α → List (List Byte)} {sizes : List Nat}
    (h : ∀ a, (frames a).map List.length = sizes) (l : List α) :
    (l.flatMap frames).length = l.length * sizes.length ∧
      ((l.flatMap frames).map List.length).sum = l.length * sizes.sum := by
  induction l with
  | nil => simp
  | cons a l ih =>
    obtain ⟨hcount, hbytes⟩ := ih
    have ha : (frames a).length = sizes.length := by rw [← h a, List.length_map]
    rw [List.flatMap_cons, List.length_append, List.map_append, List.sum_append, hcount, hbytes, h a, ha, List.length_cons]
    constructor <;> ring

theorem sizes_rowFrames (pb : List Host.Cell) (r : Nat) : (rowFrames pb r).map List.length = [5, 33] := by
  simp only [rowFrames, List.map_cons, List.map_nil, length_dataFrame, List.length_map, List.length_range]
  rfl

theorem sizes_canvasFrames (pb : List Host.Cell) :
    (canvasFrames pb).length = 128 ∧ ((canvasFrames pb).map List.length).sum = 2432 :=
  sizes_flatMap (sizes_rowFrames pb) (List.range 64)

theorem length_boxVisits (x1 y1 x2 y2 : Nat) :
    (boxVisits x1 y1 x2 y2).length = (y2 + 1 - y1) * (x2 / 16 + 1 - x1 / 16) := by
  simp [boxVisits, List.length_flatMap]

theorem sizes_boxFrames (pb : List Host.Cell) (x1 y1 x2 y2 : Nat) :
    (boxFrames pb x1 y1 x2 y2).length = 2 * (y2 + 1 - y1) * (x2 / 16 + 1 - x1 / 16) ∧
      ((boxFrames pb x1 y1 x2 y2).map List.length).sum = 10 * (y2 + 1 - y1) * (x2 / 16 + 1 - x1 / 16) := by
  obtain ⟨hcount, hbytes⟩ := sizes_flatMap (sizes := [5, 5]) (frames := fun cell : Nat × Nat =>
    [addressFrame cell.1 cell.2, dataFrame [memRead pb cell.1 cell.2]]) (fun _ => rfl) (boxVisits x1 y1 x2 y2)
  rw [length_boxVisits] at hcount hbytes
  exact ⟨hcount.trans (by simp; ring), hbytes.trans (by simp; ring)⟩

/-! ## The flushes as lists of bursts -/

/-- Where the burst of a row begins (R51, R174). -/
def rowPlace (r : Nat) : Nat × Nat := (wordRow r, bankOf r)

theorem rowFrames_eq_bursts (pb : List Host.Cell) (r : Nat) : rowFrames pb r = [rowPlace r].flatMap (burstFrames pb 8) := rfl

theorem canvasFrames_eq_bursts (pb : List Host.Cell) :
    canvasFrames pb = ((List.range 64).map rowPlace).flatMap (burstFrames pb 8) :=
  (List.flatMap_map rowPlace (burstFrames pb 8) (List.range 64)).symm

theorem boxFrames_eq_bursts (pb : List Host.Cell) (x1 y1 x2 y2 : Nat) :
    boxFrames pb x1 y1 x2 y2 = (boxVisits x1 y1 x2 y2).flatMap (burstFrames pb 1) := rfl

theorem wordRow_eq (y : Nat) : wordRow y = y % 32 := rfl

theorem bankOf_eq {y : Nat} (h : y < 64) : bankOf y = 8 * (y / 32) := by
  simp only [bankOf, Config.halfH, Config.bankCols]
  split <;> omega

/-- The eight cells a row's burst covers are those of its bank. -/
theorem rowPlace_covers {r row col : Nat} (h : r < 64) :
    (row = (rowPlace r).1 ∧ (rowPlace r).2 ≤ col ∧ col < (rowPlace r).2 + 8) ↔ row = r % 32 ∧ col / 8 = r / 32 := by
  simp only [rowPlace, wordRow_eq, bankOf_eq h]
  omega

theorem rowPlace_fits {r : Nat} (h : r < 64) : (rowPlace r).1 < 32 ∧ (rowPlace r).2 + 8 ≤ 16 := by
  simp only [rowPlace, wordRow_eq, bankOf_eq h]
  omega

/-- The cells a box visits, by canvas row and word-cell column (R170). -/
theorem mem_boxVisits {x1 y1 x2 y2 : Nat} {cell : Nat × Nat} :
    cell ∈ boxVisits x1 y1 x2 y2 ↔
      ∃ y j, (y1 ≤ y ∧ y ≤ y2 ∧ x1 / 16 ≤ j ∧ j ≤ x2 / 16) ∧ cell = (wordRow y, j + bankOf y) := by
  simp only [boxVisits, List.mem_flatMap, List.mem_map, List.mem_range]
  constructor
  · rintro ⟨dy, hdy, dj, hdj, rfl⟩
    exact ⟨y1 + dy, x1 / 16 + dj, by omega, rfl⟩
  · rintro ⟨y, j, ⟨hy1, hy2, hj1, hj2⟩, rfl⟩
    refine ⟨y - y1, by omega, j - x1 / 16, by omega, ?_⟩
    rw [Nat.add_sub_cancel' hy1, Nat.add_sub_cancel' hj1]
    rfl

section
variable {x1 y1 x2 y2 : Nat} (hx2 : x2 ≤ 127) (hy2 : y2 ≤ 63)
include hx2 hy2

theorem boxVisits_fits : ∀ cell ∈ boxVisits x1 y1 x2 y2, cell.1 < 32 ∧ cell.2 + 1 ≤ 16 := by
  intro cell hcell
  obtain ⟨y, j, hbox, rfl⟩ := mem_boxVisits.mp hcell
  simp only [wordRow_eq, bankOf_eq (show y < 64 by omega)]
  omega

/-- A cell of the canvas is covered exactly when the box touches it: no two places share a word-cell. -/
theorem boxVisits_covers {y j : Nat} (hy : y < 64) (hj : j < 8) :
    (∃ cell ∈ boxVisits x1 y1 x2 y2, wordRow y = cell.1 ∧ cell.2 ≤ j + bankOf y ∧ j + bankOf y < cell.2 + 1) ↔
      y1 ≤ y ∧ y ≤ y2 ∧ x1 / 16 ≤ j ∧ j ≤ x2 / 16 := by
  constructor
  · rintro ⟨_, hcell, hrow, hle, hlt⟩
    obtain ⟨y', j', hbox, rfl⟩ := mem_boxVisits.mp hcell
    simp only [wordRow_eq, bankOf_eq hy, bankOf_eq (show y' < 64 by omega)] at hrow hle hlt
    obtain ⟨rfl, rfl⟩ : y = y' ∧ j = j' := by omega
    exact hbox
  · intro hbox
    exact ⟨_, mem_boxVisits.mpr ⟨y, j, hbox, rfl⟩, rfl, le_rfl, Nat.lt_succ_self _⟩

end

/-! ## Outside extended graphics mode -/

theorem receive_bursts_deaf {p : Panel} (h : panelDeaf p = true) (pb : List Host.Cell) (n : Nat) {cells : List (Nat × Nat)}
    (hne : cells ≠ []) : ((cells.flatMap (burstFrames pb n)).foldl Panel.receive p).standing = .unspecified := by
  obtain ⟨cell, rest, rfl⟩ := List.exists_cons_of_ne_nil hne
  have hlost := receive_address_deaf h cell.1 cell.2
  rw [List.flatMap_cons, List.foldl_append, burstFrames, List.foldl_cons, foldl_receive_unspecified _ hlost,
    foldl_receive_unspecified _ hlost, hlost]

/-- A flush that sends at least one burst to a panel outside extended graphics mode completes and loses it (U14; log 7). -/
theorem flush_loses_panel {s : State} {i : Instr} {frames : List (List Byte)} (pb : List Host.Cell) (n : Nat)
    {cells : List (Nat × Nat)} (hl : linkSound s = true) (hd : panelDeaf s.panel = true)
    (hexec : exec i s = finishOperation (sendAll frames s)) (hframes : frames = cells.flatMap (burstFrames pb n))
    (hne : cells ≠ []) :
    ∃ t, exec i s = .next t ∧ t.pb = s.pb ∧ t.ci = s.ci + 1 ∧ t.trace = s.trace ++ frames.map Event.tx ∧
      t.panel.standing = .unspecified ∧ ∀ x y, t.panel.glass x y = none := by
  obtain ⟨t, ht, hpb, hci, htrace, hpanel⟩ := completes_of_linkSound hl hexec
  have hlost : t.panel.standing = .unspecified := by
    rw [hpanel, hframes]
    exact receive_bursts_deaf hd pb n hne
  exact ⟨t, ht, hpb, hci, htrace, hlost, glass_unspecified hlost⟩

/-! ## The obligations -/

/-- Settles O23: `DRAW_ROW` is the sending of the row's two frames. -/
theorem drawRowSendsTheRow : Obligations.DrawRowSendsTheRow := by
  intro s r hr hp hrow
  rw [exec_drawRow_of_ready hr hp hrow]
  exact sendAll_outcomes (rowFrames s.pb r) s

/-- Settles O24: `DRAW_ALL` is the sending of the canvas's 128 frames. -/
theorem drawAllSendsEveryRow : Obligations.DrawAllSendsEveryRow := by
  intro s hr hp
  rw [exec_drawAll_of_ready hr hp, ← (sizes_canvasFrames s.pb).1]
  exact sendAll_outcomes (canvasFrames s.pb) s

/-- Settles O25: `DRAW_SECTIONS_FOR_BB` is the sending of the frames of the visited cells. -/
theorem drawSectionsSendsTouchedCells : Obligations.DrawSectionsSendsTouchedCells := by
  intro s x1 y1 x2 y2 hr hp hx1 hx2 hy1 hy2
  rw [exec_drawSections_of_ready hr hp hx1 hx2 hy1 hy2]
  exact sendAll_outcomes (boxFrames s.pb x1 y1 x2 y2) s

/-- Settles O26: over a sound link all frames are sent, and their sizes are counted loop by loop. -/
theorem flushSizes : Obligations.FlushSizes := by
  intro s hr hp hl
  refine ⟨fun r hrow => ?_, ?_, fun x1 y1 x2 y2 hx1 hx2 hy1 hy2 => ?_⟩
  · obtain ⟨t, ht, -, -, htrace, -⟩ := completes_of_linkSound hl (exec_drawRow_of_ready hr hp hrow)
    exact ⟨t, _, ht, htrace, sizes_rowFrames s.pb r⟩
  · obtain ⟨t, ht, -, -, htrace, -⟩ := completes_of_linkSound hl (exec_drawAll_of_ready hr hp)
    exact ⟨t, _, ht, htrace, sizes_canvasFrames s.pb⟩
  · obtain ⟨t, ht, -, -, htrace, -⟩ := completes_of_linkSound hl (exec_drawSections_of_ready hr hp hx1 hx2 hy1 hy2)
    exact ⟨t, _, ht, htrace, sizes_boxFrames s.pb x1 y1 x2 y2⟩

/-- Settles O27: the row is one burst of eight words from the start of its bank; a deaf panel is lost at its address frame. -/
theorem drawRowReachesGram : Obligations.DrawRowReachesGram := by
  intro s r hr hp hrow hl
  have hr64 : r < 64 := by omega
  have hexec := exec_drawRow_of_ready hr hp hrow
  refine ⟨fun hlisten hinc => ?_, fun hdeaf =>
    flush_loses_panel s.pb 8 hl hdeaf hexec (rowFrames_eq_bursts s.pb r) (List.cons_ne_nil _ _)⟩
  obtain ⟨t, ht, hpb, -, -, hpanel⟩ := completes_of_linkSound hl hexec
  obtain ⟨hlisten', -, -, hshown, hkept⟩ := receive_bursts s.pb [rowPlace r] hlisten (by omega) (.inl hinc)
    (List.forall_mem_singleton.mpr (rowPlace_fits hr64))
  rw [← rowFrames_eq_bursts, ← hpanel] at hlisten' hshown hkept
  refine ⟨t, ht, hpb, hlisten', fun row col hcol => ⟨fun hin => ?_, fun hout => ?_⟩⟩
  · exact hshown row col hcol ⟨_, List.mem_singleton_self _, (rowPlace_covers hr64).mpr hin⟩
  · refine hkept row col hcol ?_
    rintro ⟨cell, hcell, hcover⟩
    obtain rfl := List.mem_singleton.mp hcell
    exact hout ((rowPlace_covers hr64).mp hcover)

/-- Settles O28: each visit is a burst of one word, which needs no `AUTO_INC`. -/
theorem drawSectionsReachesGram : Obligations.DrawSectionsReachesGram := by
  intro s x1 y1 x2 y2 hr hp hl hx1 hx2 hy1 hy2 hlisten
  obtain ⟨t, ht, hpb, -, -, hpanel⟩ := completes_of_linkSound hl (exec_drawSections_of_ready hr hp hx1 hx2 hy1 hy2)
  obtain ⟨hlisten', -, -, hshown, hkept⟩ := receive_bursts s.pb (boxVisits x1 y1 x2 y2) hlisten le_rfl (.inr le_rfl)
    (boxVisits_fits hx2 hy2)
  rw [← boxFrames_eq_bursts, ← hpanel] at hlisten' hshown hkept
  refine ⟨t, ht, hpb, hlisten', fun y j hy hj => ?_⟩
  have hcol : j + bankOf y < 16 := by rw [bankOf_eq hy]; omega
  exact ⟨fun hin => hshown (wordRow y) (j + bankOf y) hcol ((boxVisits_covers hx2 hy2 hy hj).mpr hin),
    fun hout => hkept (wordRow y) (j + bankOf y) hcol fun hcover => hout ((boxVisits_covers hx2 hy2 hy hj).mp hcover)⟩

/-- Settles O29: the bursts of rows 0 to 63 cover every cell, row `row + 32 * (col / 8)` the cell `(row, col)`. -/
theorem drawAllShowsCanvas : Obligations.DrawAllShowsCanvas := by
  intro s hr hp hl hlisten hinc
  obtain ⟨t, ht, hpb, -, -, hpanel⟩ := completes_of_linkSound hl (exec_drawAll_of_ready hr hp)
  have hfits : ∀ cell ∈ (List.range 64).map rowPlace, cell.1 < 32 ∧ cell.2 + 8 ≤ 16 :=
    List.forall_mem_map.mpr fun r hr64 => rowPlace_fits (List.mem_range.mp hr64)
  obtain ⟨hlisten', hmodeD, -, hshown, -⟩ := receive_bursts s.pb ((List.range 64).map rowPlace) hlisten (by omega)
    (.inl hinc) hfits
  rw [← canvasFrames_eq_bursts, ← hpanel] at hlisten' hmodeD hshown
  have hgram : ∀ row col, row < 32 → col < 16 → gramShows t.panel s.pb row col := by
    intro row col hrow hcol
    have hr64 : row + 32 * (col / 8) < 64 := by omega
    exact hshown row col hcol
      ⟨_, List.mem_map_of_mem (List.mem_range.mpr hr64), (rowPlace_covers hr64).mpr ⟨by omega, by omega⟩⟩
  refine ⟨t, ht, hpb, hgram, fun hon x y hx hy => ?_⟩
  obtain ⟨hfollows, hE, hG, -⟩ := (panelListening_iff _).mp hlisten'
  rw [getPixel_onCanvas hp hx hy]
  exact glass_of_gramShows hx hy hfollows (hmodeD.trans hon) hE hG (hgram _ _ (wordRow_lt y) (wordCol_lt hx))

/-- Settles O55: both flushes begin with an address frame, since the canvas has a row and the box touches a cell. -/
theorem flushOutsideGraphicsLosesPanel : Obligations.FlushOutsideGraphicsLosesPanel := by
  intro s hr hp hl hdeaf
  refine ⟨flush_loses_panel s.pb 8 hl hdeaf (exec_drawAll_of_ready hr hp) (canvasFrames_eq_bursts s.pb)
      (by simp),
    fun x1 y1 x2 y2 hx1 hx2 hy2 hy hx => ?_⟩
  have htouched : (wordRow y1, x1 / 16 + bankOf y1) ∈ boxVisits x1 y1 x2 y2 :=
    mem_boxVisits.mpr ⟨y1, x1 / 16, by omega, rfl⟩
  exact flush_loses_panel s.pb 1 hl hdeaf (exec_drawSections_of_ready hr hp hx1 hx2 (by omega) hy2)
    (boxFrames_eq_bursts s.pb x1 y1 x2 y2) (List.ne_nil_of_mem htouched)

end Sys2Proof.Machine
end

section
/-! The glyph family: `SET_FONT_HEIGHT` sets `FH` or faults (R190, R263), `PUT_CHAR` paints one glyph (R192), and `PUT_STRING`
paints a text up to the pen stop or to the first codepoint without a glyph (R196, R197, R264). -/

namespace Sys2Proof.Machine

/-! ## The font height -/

theorem fontHeightStep_accepted {s : State} {px : Nat} (h : fontSetOk s.env px = true) :
    fontHeightStep px s = .ok { s with fh := px } := if_pos h

theorem fontHeightStep_rejected {s : State} {px : Nat} (h : fontSetOk s.env px = false) :
    fontHeightStep px s = .raised (raiseFault .fontLoadFailure px s) := if_neg (Bool.eq_false_iff.mp h)

/-! ## One codepoint -/

/-- A codepoint with a glyph is painted and moves the pen by its advance (R192, R196). -/
theorem paintChar_glyph {size : FontSize} {cp : Nat} {g : Glyph} (h : glyphAt size cp = some g) (pen y : Int)
    (pb : List Host.Cell) :
    paintChar (some size) pen y cp pb =
      { pb := paintGlyph g size.ascender pen y pb, pen := pen + ceilPx g.adv, failed := none } := by
  simp only [paintChar, h]

/-- Without a face, or without a glyph in it, nothing is painted (R264). -/
theorem paintChar_missing {size : Option FontSize} {cp : Nat} (h : ∀ z, size = some z → glyphAt z cp = none) (pen y : Int)
    (pb : List Host.Cell) : paintChar size pen y cp pb = { pb := pb, pen := pen, failed := some cp } := by
  cases size with
  | none => rfl
  | some z => simp only [paintChar, h z rfl]

/-! ## A text -/

/-- A text has one first codepoint without a glyph. -/
theorem firstMissing_unique {z : FontSize} {text : List Nat} {i j ci cj : Nat} (hi : text[i]? = some ci)
    (hj : text[j]? = some cj) (hci : glyphAt z ci = none) (hcj : glyphAt z cj = none)
    (hbefore : ∀ k c, k < i → text[k]? = some c → (glyphAt z c).isSome = true)
    (hbefore' : ∀ k c, k < j → text[k]? = some c → (glyphAt z c).isSome = true) : i = j ∧ ci = cj := by
  obtain hlt | rfl | hgt := Nat.lt_trichotomy i j
  · exact absurd (hbefore' i ci hlt hi) (by simp [hci])
  · exact ⟨rfl, Option.some.inj (hi.symm.trans hj)⟩
  · exact absurd (hbefore j cj hgt hj) (by simp [hcj])

section
variable {z : FontSize} {x : Int} {text : List Nat} (y : Int) (pb : List Host.Cell)

/-- A text whose looked-at codepoints all have glyphs is painted up to the pen stop (R196, R197). -/
theorem paintText_complete
    (hall : ∀ i cp, penReaches z x text i → text[i]? = some cp → (glyphAt z cp).isSome = true) :
    (paintText (some z) y text x pb).failed = none ∧
      Draws (textPaints z x y text text.length) true pb (paintText (some z) y text x pb).pb := by
  obtain ⟨hnone, -, hdraws⟩ | ⟨i, cp, -, hreach, hcp, hmissing, -, -⟩ := paintText_cases z y text x pb
  · exact ⟨hnone, hdraws⟩
  · exact absurd (hall i cp hreach hcp) (by simp [hmissing])

/-- The first looked-at codepoint without a glyph stops the painting, after the glyphs before it (R264, R268). -/
theorem paintText_stopped {i cp : Nat} (hreach : penReaches z x text i) (hcp : text[i]? = some cp)
    (hmissing : glyphAt z cp = none) (hbefore : ∀ j c, j < i → text[j]? = some c → (glyphAt z c).isSome = true) :
    (paintText (some z) y text x pb).failed = some cp ∧
      Draws (textPaints z x y text i) true pb (paintText (some z) y text x pb).pb := by
  obtain ⟨-, hall, -⟩ | ⟨j, c, hfailed, -, hc, hmissing', hbefore', hdraws⟩ := paintText_cases z y text x pb
  · exact absurd (hall i cp hreach hcp) (by simp [hmissing])
  · obtain ⟨rfl, rfl⟩ := firstMissing_unique hcp hc hmissing hmissing' hbefore hbefore'
    exact ⟨hfailed, hdraws⟩

end

/-- Without a face the first codepoint already stops the painting, and nothing is painted. -/
theorem paintText_noFace (y : Int) (cp : Nat) (rest : List Nat) (x : Int) (pb : List Host.Cell) :
    paintText none y (cp :: rest) x pb = { pb := pb, pen := x, failed := some cp } := rfl

/-! ## What was painted enters the state -/

theorem paintFlow_painted {p : Painted} (h : p.failed = none) (s : State) : paintFlow p s = .ok { s with pb := p.pb } := by
  rw [paintFlow, h]

theorem paintFlow_failed {p : Painted} {cp : Nat} (h : p.failed = some cp) (s : State) :
    paintFlow p s = .raised (raiseFault .glyphLoadFailure cp { s with pb := p.pb }) := by
  rw [paintFlow, h]

/-! ## The three operations in `READY` -/

theorem exec_setFontHeight_of_ready {s : State} (hr : s.lc = .ready) (px : Nat) :
    exec (.setFontHeight px) s = finishOperation (fontHeightStep px s) := whenReady_of_ready hr _

section
variable {s : State} (hr : s.lc = .ready) (hp : s.pbExists = true)
include hr hp

theorem exec_putChar_of_ready (x y : Int) (cp : Nat) :
    exec (.putChar x y cp) s = finishMicro (paintFlow (paintChar (sizeAt s.env.font s.fh) x y cp s.pb) s) :=
  onCanvas_of_ready hr hp _

theorem exec_putString_of_ready (x y : Int) (text : List Nat) :
    exec (.putString x y text) s = finishOperation (paintFlow (paintText (sizeAt s.env.font s.fh) y text x s.pb) s) :=
  onCanvas_of_ready hr hp _

/-- `PUT_STRING` of a text that nothing stops completes, with the painted buffer. -/
theorem exec_putString_painted {x y : Int} {text : List Nat}
    (h : (paintText (sizeAt s.env.font s.fh) y text x s.pb).failed = none) :
    exec (.putString x y text) s =
      .next { s with pb := (paintText (sizeAt s.env.font s.fh) y text x s.pb).pb, ci := s.ci + 1 } := by
  rw [exec_putString_of_ready hr hp, paintFlow_painted h, finishOperation_ok]

/-- `PUT_STRING` of a text that a codepoint stops faults with that codepoint, and keeps what was painted (R266). -/
theorem exec_putString_failed {x y : Int} {text : List Nat} {cp : Nat}
    (h : (paintText (sizeAt s.env.font s.fh) y text x s.pb).failed = some cp) :
    exec (.putString x y text) s =
      .next (raiseFault .glyphLoadFailure cp
        { s with pb := (paintText (sizeAt s.env.font s.fh) y text x s.pb).pb }) := by
  rw [exec_putString_of_ready hr hp, paintFlow_failed h, finishOperation_raised]

end

/-! ## The obligations -/

/-- Settles O18: the painting stops at the first looked-at codepoint without a glyph, and nowhere where there is none. -/
theorem putStringStopsAtMissingGlyph : Obligations.PutStringStopsAtMissingGlyph := by
  intro s x y text hr hp
  refine ⟨fun size i cp hsize hreach hcp hmissing hbefore => ?_, fun size hsize hall => ?_, fun hsize => ⟨?_, ?_⟩⟩
  · obtain ⟨hfailed, hdraws⟩ := paintText_stopped y s.pb hreach hcp hmissing hbefore
    rw [← hsize] at hfailed hdraws
    exact ⟨_, exec_putString_failed hr hp hfailed, hdraws⟩
  · obtain ⟨hnone, -⟩ := paintText_complete y s.pb hall
    rw [← hsize] at hnone
    exact ⟨_, exec_putString_painted hr hp hnone, rfl, hr⟩
  · rintro cp rest rfl
    rw [exec_putString_of_ready hr hp, hsize, paintText_noFace]
    rfl
  · rintro rfl
    exact exec_putString_painted hr hp rfl

/-- Settles O17: nothing stops the text, so the pixels of all its looked-at glyphs are on. -/
theorem putStringPaintsText : Obligations.PutStringPaintsText := by
  intro s x y text size hr hp hsize hall
  obtain ⟨hnone, hdraws⟩ := paintText_complete y s.pb hall
  rw [← hsize] at hnone hdraws
  exact ⟨_, exec_putString_painted hr hp hnone, hdraws⟩

/-- Settles O16: a codepoint either has a glyph, which is painted, or stops the operation before any pixel. -/
theorem putCharPaintsGlyph : Obligations.PutCharPaintsGlyph := by
  intro s x y cp hr hp
  rw [exec_putChar_of_ready hr hp]
  refine ⟨fun size g hsize hg => ?_, fun hmissing => ?_⟩
  · rw [hsize, paintChar_glyph hg]
    exact ⟨_, rfl, draws_paintGlyph g size.ascender x y s.pb⟩
  · rw [paintChar_missing hmissing]
    rfl

/-- Settles O19: the step's two outcomes, by what the FontProvider answers. -/
theorem setFontHeightSetsOrFaults : Obligations.SetFontHeightSetsOrFaults := by
  intro s px hr
  rw [exec_setFontHeight_of_ready hr]
  exact ⟨fun haccepted => by rw [fontHeightStep_accepted haccepted]; rfl,
    fun hrejected => by rw [fontHeightStep_rejected hrejected]; rfl⟩

end Sys2Proof.Machine
end

section
/-! The bitmap family: `PUT_BITMAP` of a width of at least 1 completes (R220) and turns on the pixels of its set bits alone
(R221). -/

namespace Sys2Proof.Machine

/-- `PUT_BITMAP` of a width of at least 1 completes, with the blitted buffer (R220). -/
theorem exec_putBitmap_of_ready {s : State} (hr : s.lc = .ready) (hp : s.pbExists = true) (x y : Int) {width : Int}
    (hw : 1 ≤ width) (data : List Byte) :
    exec (.putBitmap x y width data) s =
      .next { s with pb := (drawBitmap x y width.toNat data s.pb).pb, ci := s.ci + 1 } :=
  calc exec (.putBitmap x y width data) s
    _ = if 1 ≤ width then finishOperation (.ok { s with pb := (drawBitmap x y width.toNat data s.pb).pb })
        else .refused .widthBelowOne := onCanvas_of_ready hr hp _
    _ = finishOperation (.ok { s with pb := (drawBitmap x y width.toNat data s.pb).pb }) := if_pos hw
    _ = .next { s with pb := (drawBitmap x y width.toNat data s.pb).pb, ci := s.ci + 1 } := finishOperation_ok _

/-! ## The obligation -/

/-- Settles O15: the blit loop paints bit `n` where the closed form of R221 puts it, and the operation completes with what the
loop leaves. -/
theorem putBitmapDrawsStream : Obligations.PutBitmapDrawsStream := by
  intro s x y width data hr hp hw
  exact ⟨_, exec_putBitmap_of_ready hr hp x y hw data, draws_drawBitmap x y hw data s.pb⟩

end Sys2Proof.Machine
end

section
/-! The lifecycle family: `CONSTRUCT` completes, or raises the first failure it meets with nothing left open (R236 to R238, R261
to R268), and leaves the panel on in extended graphics mode (R284, R285); `DESTRUCT` flushes a cleared buffer and closes
(R242, R243). -/

namespace Sys2Proof.Machine

/-! ## A list of settled instructions -/

/-- The frame of a one-byte instruction (R141). -/
def instructionFrame (b : Byte) : List Byte := 0xF8 :: wireNibbles [b]

/-- Everything a list of settled instructions can do: all are sent and waited for, or those before the first failing write,
and then the fault. -/
theorem forEach_sendInstruction (bytes : List Byte) (s : State) :
    forEach sendInstruction bytes s =
      if framesThrough (bytes.map instructionFrame) s.env.writes = bytes.length then .ok (bytes.foldl State.instructed s)
      else
        .raised ((bytes.take (framesThrough (bytes.map instructionFrame) s.env.writes)).foldl State.instructed s).writeFailed := by
  induction bytes generalizing s with
  | nil => rfl
  | cons b bytes ih =>
    rw [forEach_cons, sendInstruction_eq, ← instructionFrame, List.map_cons, framesThrough]
    split
    · have hwrites : (s.instructed b).env.writes = s.env.writes.drop 1 := rfl
      simp only [andThen_ok, ih, hwrites, List.length_cons, Nat.add_right_cancel_iff, List.take_succ_cons, List.foldl_cons]
    · rfl

theorem trace_instructions (bytes : List Byte) (s : State) :
    (bytes.foldl State.instructed s).trace = s.trace ++ bytes.flatMap fun b => [.tx (instructionFrame b), .settle] := by
  induction bytes generalizing s with
  | nil => exact (List.append_nil _).symm
  | cons b bytes ih =>
    have hone : (s.instructed b).trace = s.trace ++ [.tx (instructionFrame b), .settle] := List.append_assoc ..
    rw [List.foldl_cons, ih, hone, List.append_assoc]
    rfl

/-! ## The initialisation sequence (R237) -/

theorem andThen_assoc (m : Flow) (k l : State → Flow) :
    (m.andThen k).andThen l = m.andThen fun s => (k s).andThen l := by
  cases m with
  | ok s => rfl
  | raised s => rfl

theorem initBytes_eq :
    initBytes = [functionSetByte false false, displayControlByte true false false, functionSetByte true true] := by decide

/-- The three instructions, then the font height. -/
theorem initSequence_eq (s : State) :
    initSequence s =
      (forEach sendInstruction initBytes s).andThen fun t => fontHeightStep t.env.initFontHeight t := by
  simp only [initSequence, functionSetStep, displayControlStep, initBytes_eq, forEach_cons, forEach_nil, andThen_assoc,
    andThen_ok]

/-- The three frames of R238. -/
def initFrames : List (List Byte) := [[0xF8, 0x30, 0x00], [0xF8, 0x00, 0xC0], [0xF8, 0x30, 0x60]]

theorem map_initBytes : initBytes.map instructionFrame = initFrames := by decide

section
variable {s : State}

/-- The three frames go out, and the font height decides. -/
theorem initSequence_sent (hall : framesThrough initFrames s.env.writes = 3) :
    initSequence s = fontHeightStep s.env.initFontHeight (initBytes.foldl State.instructed s) := by
  rw [initSequence_eq, forEach_sendInstruction, map_initBytes, if_pos (show _ = initBytes.length from hall)]
  rfl

theorem initSequence_failed {k : Nat} (hk : k < 3) (hsome : framesThrough initFrames s.env.writes = k) :
    initSequence s = .raised ((initBytes.take k).foldl State.instructed s).writeFailed := by
  rw [initSequence_eq, forEach_sendInstruction, map_initBytes, hsome, if_neg (show ¬ k = initBytes.length from hk.ne)]
  rfl

end

/-! ## `CONSTRUCT` in `OFF` -/

/-- Sending neither reads nor changes what `CONSTRUCT` acquires. -/
theorem foldl_instructed_acquired (busId deviceId : Byte) (bytes : List Byte) (s : State) :
    bytes.foldl State.instructed (acquired busId deviceId s) = acquired busId deviceId (bytes.foldl State.instructed s) :=
  List.foldl_hom (acquired busId deviceId) fun _ _ => rfl

theorem exec_construct_of_off {s : State} (hoff : s.lc = .off) (busId deviceId : Byte) :
    exec (.construct busId deviceId) s = finishOperation (constructFlow busId deviceId s) := if_pos hoff

section
variable {s : State} {busId deviceId : Byte}

theorem constructFlow_unopenable (hopen : s.env.unopenable.contains (busId, deviceId) = true) :
    constructFlow busId deviceId s = .raised (raiseFault .deviceOpenFailure 0 s) := if_pos hopen

variable (hopen : s.env.unopenable.contains (busId, deviceId) = false)
include hopen

theorem constructFlow_modeRejected (hmode : s.env.configureOk = false) :
    constructFlow busId deviceId s = .raised (raiseFault .modeConfigFailure 0 s) := by
  rw [constructFlow, hopen, hmode]; rfl

variable (hmode : s.env.configureOk = true)
include hmode

theorem constructFlow_faceMissing (hface : s.env.loadFaceOk = false) :
    constructFlow busId deviceId s = .raised (raiseFault .fontLoadFailure 0 s) := by
  rw [constructFlow, hopen, hmode, hface]; rfl

variable (hface : s.env.loadFaceOk = true)
include hface

theorem constructFlow_acquired :
    constructFlow busId deviceId s =
      (initSequence (acquired busId deviceId s)).andThen fun t => .ok { t with lc := .ready } := by
  rw [constructFlow, hopen, hmode, hface]; rfl

/-- A frame of the initialisation fails. -/
theorem constructFlow_frameFailed {k : Nat} (hk : k < 3) (hsome : framesThrough initFrames s.env.writes = k) :
    constructFlow busId deviceId s =
      .raised { ((initBytes.take k).foldl State.instructed s).writeFailed with pb := [], pbExists := true } := by
  rw [constructFlow_acquired hopen hmode hface, initSequence_failed hk (by exact hsome), foldl_instructed_acquired]
  rfl

variable (hall : framesThrough initFrames s.env.writes = 3)
include hall

/-- All three frames are sent: what is left is the font height. -/
theorem constructFlow_sent :
    constructFlow busId deviceId s =
      (fontHeightStep s.env.initFontHeight (acquired busId deviceId (initBytes.foldl State.instructed s))).andThen fun t =>
        .ok { t with lc := .ready } := by
  rw [constructFlow_acquired hopen hmode hface, initSequence_sent (by exact hall), foldl_instructed_acquired]
  rfl

theorem constructFlow_heightRejected (hheight : fontSetOk s.env s.env.initFontHeight = false) :
    constructFlow busId deviceId s =
      .raised (raiseFault .fontLoadFailure s.env.initFontHeight
        (acquired busId deviceId (initBytes.foldl State.instructed s))) := by
  have hanswer := (fontSetOk_instructions initBytes s s.env.initFontHeight).trans hheight
  rw [constructFlow_sent hopen hmode hface hall,
    fontHeightStep_rejected (s := acquired busId deviceId (initBytes.foldl State.instructed s)) hanswer]
  rfl

theorem constructFlow_completes (hheight : fontSetOk s.env s.env.initFontHeight = true) :
    constructFlow busId deviceId s =
      .ok { acquired busId deviceId (initBytes.foldl State.instructed s) with
        fh := s.env.initFontHeight, lc := .ready } := by
  have hanswer := (fontSetOk_instructions initBytes s s.env.initFontHeight).trans hheight
  rw [constructFlow_sent hopen hmode hface hall,
    fontHeightStep_accepted (s := acquired busId deviceId (initBytes.foldl State.instructed s)) hanswer]
  rfl

end

/-! ## The panel after a settled instruction (R284, R285) -/

/-- The panel stands at the end of an instruction frame. -/
def FrameRx.instructionDone : FrameRx :=
  { inFrame := true, rs := false, rw := false, high := none, slot := .done, payload := none }

section
variable {s : State} (hp : panelPaced s = true)
include hp

theorem panelPaced_fields :
    s.panel.standing = .following ∧ s.panel.regs.busyUs = 0 ∧ s.panel.floorUs - s.env.settleMin = 0 := by
  simpa [panelPaced, and_assoc, Nat.sub_eq_zero_iff_le] using hp

/-- The settle delay covers the panel's floor, so after an instruction the panel is idle again. -/
theorem panel_instructed {v : Byte} {regs : PanelRegs}
    (hreceived : s.panel.receive (frameBytes false false [v]) =
      { s.panel with regs := { regs with busyUs := s.panel.floorUs, rx := .instructionDone } }) :
    (s.instructed v).panel = { s.panel with regs := { regs with busyUs := 0, rx := .instructionDone } } := by
  obtain ⟨-, -, hsettled⟩ := panelPaced_fields hp
  calc (s.instructed v).panel
    _ = (s.panel.receive (frameBytes false false [v])).wait s.env.settleMin := by rw [frameBytes_instruction]; rfl
    _ = { s.panel with
        regs := { regs with busyUs := s.panel.floorUs - s.env.settleMin, rx := .instructionDone } } := by
      rw [hreceived]; rfl
    _ = { s.panel with regs := { regs with busyUs := 0, rx := .instructionDone } } := by rw [hsettled]

theorem panel_instructed_functionSet (ext gfx : Bool) :
    (s.instructed (functionSetByte ext gfx)).panel = { s.panel with
      regs := { s.panel.regs with modeE := ext, modeG := ext && gfx, busyUs := 0, rx := .instructionDone } } := by
  obtain ⟨hfollows, hidle, -⟩ := panelPaced_fields hp
  exact panel_instructed hp (regs := { s.panel.regs with modeE := ext, modeG := ext && gfx })
    (receive_functionSet s.panel ext gfx hfollows hidle)

theorem panel_instructed_displayControl (d c b : Bool) :
    (s.instructed (displayControlByte d c b)).panel = { s.panel with
      regs := { s.panel.regs with modeD := d, modeC := c, modeB := b, busyUs := 0, rx := .instructionDone } } := by
  obtain ⟨hfollows, hidle, -⟩ := panelPaced_fields hp
  exact panel_instructed hp (regs := { s.panel.regs with modeD := d, modeC := c, modeB := b })
    (receive_displayControl s.panel d c b hfollows hidle)

/-- An instruction that leaves the panel idle leaves it ready for the next. -/
theorem panelPaced_instructed {v : Byte} {regs : PanelRegs}
    (h : (s.instructed v).panel = { s.panel with regs := regs }) (hidle : regs.busyUs = 0) :
    panelPaced (s.instructed v) = true := by
  obtain ⟨hfollows, -, hsettled⟩ := panelPaced_fields hp
  have hfloor : s.panel.floorUs ≤ (s.instructed v).env.settleMin := Nat.sub_eq_zero_iff_le.mp hsettled
  simp [panelPaced, h, hfollows, hidle, hfloor]

/-- What the three instructions of the initialisation leave (R237, R284). -/
theorem panel_initialised :
    (initBytes.foldl State.instructed s).panel = { s.panel with
      regs := { s.panel.regs with
        modeE := true, modeG := true, modeD := true, modeC := false, modeB := false, busyUs := 0
        rx := .instructionDone } } := by
  have hbasic := panel_instructed_functionSet hp false false
  have hpaced := panelPaced_instructed hp hbasic rfl
  have hon := panel_instructed_displayControl hpaced true false false
  have hgraphics := panel_instructed_functionSet (panelPaced_instructed hpaced hon rfl) true true
  rw [initBytes_eq, List.foldl_cons, List.foldl_cons, List.foldl_cons, List.foldl_nil, hgraphics, hon, hbasic]
  rfl

end

/-! ## The obligations of `CONSTRUCT` -/

/-- Settles O30: nothing is in the way of the initialisation sequence, and each of its instructions appends two events. -/
theorem constructSucceeds : Obligations.ConstructSucceeds := by
  intro s busId deviceId hoff hopen hmode hface hall hheight
  have hevents : (initBytes.flatMap fun b => [Event.tx (instructionFrame b), .settle]) =
      [.tx [0xF8, 0x30, 0x00], .settle, .tx [0xF8, 0x00, 0xC0], .settle, .tx [0xF8, 0x30, 0x60], .settle] := by decide
  rw [exec_construct_of_off hoff, constructFlow_completes hopen hmode hface hall hheight, finishOperation_ok]
  exact ⟨_, rfl, hevents ▸ trace_instructions initBytes s, rfl⟩

/-- Settles O31: a fault before the handles are held, at one of the three frames, or at the font height. -/
theorem constructFaultsInOrder : Obligations.ConstructFaultsInOrder := by
  intro s busId deviceId hoff
  rw [exec_construct_of_off hoff]
  refine ⟨fun hopen => ?_, fun hopen => ⟨fun hmode => ?_, fun hmode => ⟨fun hface => ?_, fun hface =>
    ⟨fun k hk hsome => ?_, fun hall hheight => ?_⟩⟩⟩⟩
  · rw [constructFlow_unopenable hopen]; rfl
  · rw [constructFlow_modeRejected hopen hmode]; rfl
  · rw [constructFlow_faceMissing hopen hmode hface]; rfl
  · rw [constructFlow_frameFailed hopen hmode hface hk hsome]; rfl
  · rw [constructFlow_heightRejected hopen hmode hface hall hheight]; rfl

/-- Settles O33: over a sound link the three instructions are sent, each to a panel that is idle again. -/
theorem constructConfiguresPanel : Obligations.ConstructConfiguresPanel := by
  intro s busId deviceId hoff hopen hmode hface hl hheight hpaced
  have hall : framesThrough initFrames s.env.writes = 3 := framesThrough_sound initFrames hl
  rw [exec_construct_of_off hoff, constructFlow_completes hopen hmode hface hall hheight, finishOperation_ok]
  exact ⟨_, .instructionDone, rfl, panel_initialised hpaced⟩

/-! ## `DESTRUCT` in `READY` -/

/-- The buffer `DESTRUCT` flushes (R242). -/
def cleared (pb : List Host.Cell) : List Host.Cell := drawRegion 0 0 127 63 false pb

theorem pixelOf_cleared (pb : List Host.Cell) {x y : Nat} (hx : x < 128) (hy : y < 64) : pixelOf (cleared pb) x y = false := by
  rw [cleared, pixelOf_drawRegion _ _ _ _ _ _ hx hy, if_pos (by omega)]

/-- Every bit of the grid is a pixel. -/
theorem memRead_cleared (pb : List Host.Cell) {r c : Nat} (hr : r < 32) (hc : c < 16) : memRead (cleared pb) r c = 0 := by
  apply BitVec.eq_of_getLsbD_eq
  intro i hi
  obtain ⟨x, y, hx, hy, rfl, rfl, rfl⟩ := exists_pixel_of_bit hr hc hi
  exact (pixelOf_cleared pb hx hy).trans BitVec.getLsbD_zero.symm

theorem pbByte_cleared_outside (pb : List Host.Cell) {a : Nat} (ha : 1024 ≤ a) : pbByte (cleared pb) a = pbByte pb a :=
  drawRegion_induct (fun m => pbByte m a = pbByte pb a) _ _ _ _ _
    (fun m x y h => (pbByte_drawPixel_outside x y false m ha).trans h) pb rfl

/-- The two frames of a zero row. -/
def zeroRowFrames (r : Nat) : List (List Byte) :=
  [addressFrame (r % 32) (if 32 ≤ r then 8 else 0), 0xFA :: List.replicate 32 0]

theorem rowFrames_cleared (pb : List Host.Cell) (r : Nat) : rowFrames (cleared pb) r = zeroRowFrames r := by
  have hzero : ((List.range 8).map fun k => memRead (cleared pb) (r % 32) ((if 32 ≤ r then 8 else 0) + k)) =
      List.replicate 8 0 := by
    rw [List.eq_replicate_iff]
    refine ⟨by simp, List.forall_mem_map.mpr fun k hk => memRead_cleared pb (Nat.mod_lt r (by decide)) ?_⟩
    have := List.mem_range.mp hk
    split <;> omega
  have hdata : dataFrame (List.replicate 8 0) = 0xFA :: List.replicate 32 0 := by decide
  simp only [rowFrames, hzero, hdata, zeroRowFrames]

theorem canvasFrames_cleared (pb : List Host.Cell) : canvasFrames (cleared pb) = (List.range 64).flatMap zeroRowFrames :=
  congrArg (List.flatMap · (List.range 64)) (funext (rowFrames_cleared pb))

/-- How `DESTRUCT` ends once the flush went through (R242). -/
def closeDown (t : State) : Flow := .ok { releaseHandles (freePixelBuffer t) with lc := .closed }

theorem exec_destruct_of_ready {s : State} (hr : s.lc = .ready) (hp : s.pbExists = true) :
    exec .destruct s =
      finishOperation ((sendAll (canvasFrames (cleared s.pb)) { s with pb := cleared s.pb }).andThen closeDown) := by
  rw [← flushAll_eq { s with pb := cleared s.pb }]
  exact onCanvas_of_ready hr hp _

/-- Both ends of sending from a buffer and then closing, by how many frames the coming writes let through (R243, R265). -/
theorem sendAndClose_outcomes (frames : List (List Byte)) (pb : List Host.Cell) (s : State) :
    (framesThrough frames s.env.writes = frames.length →
      finishOperation ((sendAll frames { s with pb := pb }).andThen closeDown) = .next
        { s.sent frames with
          pb := [], pbExists := false, link := none, face := none, lc := .closed, ci := s.ci + 1 }) ∧
    ∀ k, k < frames.length → framesThrough frames s.env.writes = k →
      finishOperation ((sendAll frames { s with pb := pb }).andThen closeDown) =
        .next { (s.sent (frames.take k)).writeFailed with pb := pb } := by
  refine ⟨fun hall => ?_, fun k hk hsome => ?_⟩
  · rw [sendAll_eq, if_pos hall]; rfl
  · rw [sendAll_eq]
    simp only [hsome]
    rw [if_neg hk.ne]; rfl

/-- The frames of a whole buffer leave the GRAM equal to it: they are what `DRAW_ALL` would send if `PB` were that buffer. -/
theorem canvasFrames_reach_gram {s : State} (hr : s.lc = .ready) (hp : s.pbExists = true) (hl : linkSound s = true)
    (hlisten : panelListening s.panel = true) (hinc : s.panel.autoInc = true) (pb : List Host.Cell) {row col : Nat}
    (hrow : row < 32) (hcol : col < 16) : gramShows ((canvasFrames pb).foldl Panel.receive s.panel) pb row col := by
  have hexec := exec_drawAll_of_ready (s := { s with pb := pb }) hr hp
  obtain ⟨t, ht, -, -, -, hpanel⟩ := completes_of_linkSound (s := { s with pb := pb }) hl hexec
  obtain ⟨u, hu, -, hgram, -⟩ := drawAllShowsCanvas { s with pb := pb } hr hp hl hlisten hinc
  obtain rfl := Host.Outcome.next.inj (ht.symm.trans hu)
  rw [← hpanel]
  exact hgram row col hrow hcol

/-! ## The obligations of `DESTRUCT` -/

/-- Settles O35: the frames of zero rows are those of the cleared buffer, sent whole or up to the write that fails. -/
theorem destructClearsAndCloses : Obligations.DestructClearsAndCloses := by
  intro s frames hr hp hframes
  obtain rfl : frames = canvasFrames (cleared s.pb) := hframes.trans (canvasFrames_cleared s.pb).symm
  rw [exec_destruct_of_ready hr hp, ← (sizes_canvasFrames (cleared s.pb)).1]
  obtain ⟨hcloses, hfaults⟩ := sendAndClose_outcomes (canvasFrames (cleared s.pb)) (cleared s.pb) s
  exact ⟨hcloses, fun k hk hsome => ⟨cleared s.pb, hfaults k hk hsome, fun _ _ => memRead_cleared s.pb,
    fun _ => pbByte_cleared_outside s.pb⟩⟩

/-- Settles O36: the flush inside `DESTRUCT` is a `DRAW_ALL` of the cleared buffer. -/
theorem destructClearsGram : Obligations.DestructClearsGram := by
  intro s hr hp hl hlisten hinc
  have hall := framesThrough_sound (canvasFrames (cleared s.pb)) hl
  rw [exec_destruct_of_ready hr hp]
  refine ⟨_, (sendAndClose_outcomes _ _ s).1 hall, fun row col hrow hcol => ?_⟩
  rw [← memRead_cleared s.pb hrow hcol]
  exact canvasFrames_reach_gram hr hp hl hlisten hinc (cleared s.pb) hrow hcol

end Sys2Proof.Machine
end

section
/-! The exceptions family: a refused open or mode ends `CONSTRUCT` with nothing open and nothing sent (R261, R262), the block
answers the same whatever panel is attached (R280), and what the panel makes of a configuration, an address, a data and an
early synchronisation byte (R282 to R285). -/

namespace Sys2Proof.Machine

/-! ## The panel's address after a word-cell (R282) -/

section
variable {p : Panel}

theorem advance_fixed (hinc : p.autoInc = false) : p.advance = p := by
  rw [Panel.advance, hinc]; rfl

theorem advance_nextColumn (hinc : p.autoInc = true) (hcol : p.regs.ac ≠ 15) :
    p.advance = { p with regs.ac := p.regs.ac + 1 } := by
  rw [Panel.advance, hinc, if_neg (by decide), if_neg hcol]

theorem advance_pastLast (hinc : p.autoInc = true) (hcol : p.regs.ac = 15) :
    p.advance = { p with
      regs.ac := Config.freeBits 4 p.draws 0, regs.ar := Config.freeBits 6 p.draws 1, draws := p.draws + 1 } := by
  rw [Panel.advance, hinc, if_neg (by decide), if_pos hcol]

end

/-- Moving on changes the address and the count of free values taken, and nothing else of the panel. -/
theorem advance_frame (p : Panel) :
    p.advance = { p with
      regs := { p.regs with ar := p.advance.regs.ar, ac := p.advance.regs.ac }, draws := p.advance.draws } := by
  by_cases hinc : p.autoInc = true
  · by_cases hcol : p.regs.ac = 15
    · rw [advance_pastLast hinc hcol]
    · rw [advance_nextColumn hinc hcol]
  · rw [advance_fixed (Bool.eq_false_iff.mpr hinc)]

/-- Before column 15 the column does not wrap. -/
theorem toNat_nextColumn {col : BitVec 4} (h : col ≠ 15) : (col + 1).toNat = col.toNat + 1 := by bv_omega

/-! ## A data byte (R282) -/

section
variable {p : Panel} (d : Byte) (he : p.regs.modeE = true) (hg : p.regs.modeG = true)
include he hg

theorem dataByte_held (hb : p.regs.bp = false) :
    p.dataByte d = .ok { p with regs.hb := d, regs.bp := true, regs.rx.payload := none } := by
  rw [Panel.dataByte, whenGraphic_open _ he hg, hb]; rfl

theorem dataByte_writes (hb : p.regs.bp = true) (hrow : p.regs.ar.toNat < 32) :
    p.dataByte d = .ok { p with
      gram := gramWrite p.gram p.regs.ar.toNat p.regs.ac.toNat (joinBytes p.regs.hb d)
      draws := p.advance.draws
      regs := { p.regs with
        ar := p.advance.regs.ar, ac := p.advance.regs.ac, bp := false, rx := { p.regs.rx with payload := none } } } := by
  rw [Panel.dataByte, whenGraphic_open _ he hg, hb, if_neg (by decide), if_neg (by omega), advance_frame p]

end

/-! ## A configuration operation over a sound link -/

/-- Its one write goes through, so it completes (R35, R141). -/
theorem instruction_completes {s : State} (hr : s.lc = .ready) (hl : linkSound s = true) (v : Byte) :
    whenReady s (finishOperation (sendInstruction v s)) = .next { s.instructed v with ci := s.ci + 1 } := by
  have hwrite : s.env.writes.headD .all = .all := nextWriteResult_sound hl
  rw [instruction_of_ready hr, hwrite]
  rfl

/-- What a configuration instruction leaves before its mode bits are set (R285). -/
theorem configured_eq (p : Panel) :
    p.configured = { p with regs := { p.regs with busyUs := p.floorUs, rx := .instructionDone } } := rfl

section
variable {s : State} (hp : panelPaced s = true)
include hp

theorem panel_instructed_shiftControl (sh right : Bool) :
    (s.instructed (shiftControlByte sh right)).panel = { s.panel with
      regs := { s.panel.regs with modeS := sh, modeR := right, busyUs := 0, rx := .instructionDone } } := by
  obtain ⟨hfollows, hidle, -⟩ := panelPaced_fields hp
  refine panel_instructed hp (regs := { s.panel.regs with modeS := sh, modeR := right }) ?_
  rw [receive_shiftControl s.panel sh right hfollows hidle, configured_eq]

theorem panel_instructed_entryMode (inc sh : Bool) :
    (s.instructed (entryModeByte inc sh)).panel = { s.panel with
      regs := { s.panel.regs with modeI := inc, modeH := sh, busyUs := 0, rx := .instructionDone } } := by
  obtain ⟨hfollows, hidle, -⟩ := panelPaced_fields hp
  refine panel_instructed hp (regs := { s.panel.regs with modeI := inc, modeH := sh }) ?_
  rw [receive_entryMode s.panel inc sh hfollows hidle, configured_eq]

end

/-! ## The block never reads the panel (R280) -/

/-- Two operations stand at the same point, in states that differ in the panel alone. -/
inductive FlowAgrees : Flow → Flow → Prop
  | ok (s : State) (q : Panel) : FlowAgrees (.ok s) (.ok { s with panel := q })
  | raised (s : State) (q : Panel) : FlowAgrees (.raised s) (.raised { s with panel := q })

/-- Two answers are the same, the panel of the next state apart. -/
inductive ResultAgrees : Result → Result → Prop
  | next (t : State) (q : Panel) : ResultAgrees (.next t) (.next { t with panel := q })
  | fault (f : Fault) : ResultAgrees (.fault f) (.fault f)
  | refused (why : Refusal) : ResultAgrees (.refused why) (.refused why)

/-- With any other panel the step gets to the same point. -/
def PanelBlind (f : State → Flow) : Prop := ∀ (s : State) (q : Panel), FlowAgrees (f s) (f { s with panel := q })

theorem ResultAgrees.of_next {t : State} {l : Result} (h : ResultAgrees (.next t) l) :
    ∃ q, l = .next { t with panel := q } := by
  cases h with
  | next t q => exact ⟨q, rfl⟩

theorem ResultAgrees.of_fault {f : Fault} {l : Result} (h : ResultAgrees (.fault f) l) : l = .fault f := by
  cases h with
  | fault f => rfl

theorem ResultAgrees.of_refused {why : Refusal} {l : Result} (h : ResultAgrees (.refused why) l) : l = .refused why := by
  cases h with
  | refused why => rfl

theorem FlowAgrees.ite {c : Prop} [Decidable c] {m m' n n' : Flow} (hm : FlowAgrees m m') (hn : FlowAgrees n n') :
    FlowAgrees (if c then m else n) (if c then m' else n') := by
  split
  · exact hm
  · exact hn

theorem ResultAgrees.ite {c : Prop} [Decidable c] {k k' l l' : Result} (hk : ResultAgrees k k') (hl : ResultAgrees l l') :
    ResultAgrees (if c then k else l) (if c then k' else l') := by
  split
  · exact hk
  · exact hl

theorem FlowAgrees.andThen {m m' : Flow} {k : State → Flow} (h : FlowAgrees m m') (hk : PanelBlind k) :
    FlowAgrees (m.andThen k) (m'.andThen k) := by
  cases h with
  | ok s q => exact hk s q
  | raised s q => exact .raised s q

theorem FlowAgrees.finishOperation {m m' : Flow} (h : FlowAgrees m m') :
    ResultAgrees (Machine.finishOperation m) (Machine.finishOperation m') := by
  cases h with
  | ok s q => exact .next { s with ci := s.ci + 1 } q
  | raised s q => exact .next s q

theorem FlowAgrees.finishMicro {m m' : Flow} (h : FlowAgrees m m') :
    ResultAgrees (Machine.finishMicro m) (Machine.finishMicro m') := by
  cases h with
  | ok s q => exact .next s q
  | raised s q => exact .next s q

theorem panelBlind_forEach {α : Type} {f : α → State → Flow} (hf : ∀ a, PanelBlind (f a)) (l : List α) :
    PanelBlind (forEach f l) := by
  induction l with
  | nil => exact .ok
  | cons a l ih => exact fun s q => (hf a s q).andThen ih

/-- A write's result comes from the Transport, and its bytes from the caller (R33, R35). -/
theorem panelBlind_transportWrite (bytes : List Byte) : PanelBlind (transportWrite bytes) := by
  intro s q
  rw [transportWrite_eq, transportWrite_eq]
  exact .ite (.ok (s.sent [bytes]) _) (.raised s.writeFailed _)

theorem panelBlind_sendInstruction (b : Byte) : PanelBlind (sendInstruction b) := fun s q =>
  (panelBlind_transportWrite _ s q).andThen fun t _ => .ok (settle t) _

theorem panelBlind_sendAll (frames : List (List Byte)) : PanelBlind (sendAll frames) :=
  panelBlind_forEach panelBlind_transportWrite frames

/-- The flushes send frames made of `PB` (R174, R176, R170). -/
theorem panelBlind_flushRow (r : Nat) : PanelBlind (flushRow r) := by
  intro s q
  rw [flushRow_eq, flushRow_eq]
  exact panelBlind_sendAll _ s q

theorem panelBlind_flushAll : PanelBlind flushAll := panelBlind_forEach panelBlind_flushRow _

theorem panelBlind_flushCell (cell : Nat × Nat) : PanelBlind (flushCell cell) := by
  intro s q
  rw [flushCell_eq, flushCell_eq]
  exact panelBlind_sendAll _ s q

theorem panelBlind_fontHeightStep (px : Nat) : PanelBlind (fontHeightStep px) := fun s q =>
  .ite (.ok { s with fh := px } q) (.raised (raiseFault .fontLoadFailure px s) q)

theorem panelBlind_paintFlow (p : Painted) : PanelBlind (paintFlow p) := by
  intro s q
  cases hf : p.failed with
  | none =>
    rw [paintFlow_painted hf, paintFlow_painted hf]
    exact .ok { s with pb := p.pb } q
  | some cp =>
    rw [paintFlow_failed hf, paintFlow_failed hf]
    exact .raised (raiseFault .glyphLoadFailure cp { s with pb := p.pb }) q

theorem panelBlind_initSequence : PanelBlind initSequence := by
  intro s q
  rw [initSequence_eq, initSequence_eq]
  exact (panelBlind_forEach panelBlind_sendInstruction initBytes s q).andThen fun t => panelBlind_fontHeightStep _ t

theorem panelBlind_constructFlow (busId deviceId : Byte) : PanelBlind (constructFlow busId deviceId) := fun s q =>
  .ite (.raised (raiseFault .deviceOpenFailure 0 s) q)
    (.ite (.raised (raiseFault .modeConfigFailure 0 s) q)
      (.ite (.raised (raiseFault .fontLoadFailure 0 s) q)
        ((panelBlind_initSequence (acquired busId deviceId s) q).andThen fun t => .ok { t with lc := .ready })))

theorem panelBlind_closeDown : PanelBlind closeDown := fun t =>
  .ok { releaseHandles (freePixelBuffer t) with lc := .closed }

/-- `DESTRUCT` flushes the cleared buffer and closes (R242). -/
theorem panelBlind_destructFlow : PanelBlind destructFlow := by
  intro s q
  show FlowAgrees ((flushAll { s with pb := cleared s.pb }).andThen closeDown)
    ((flushAll { s with panel := q, pb := cleared s.pb }).andThen closeDown)
  generalize cleared s.pb = pb -- a flush of any buffer is blind to the panel
  have hflush := panelBlind_flushAll { s with pb := pb } q
  exact hflush.andThen panelBlind_closeDown

section
variable {s : State} {q : Panel} {k l : Result}

theorem ResultAgrees.whenReady (h : ResultAgrees k l) :
    ResultAgrees (Machine.whenReady s k) (Machine.whenReady { s with panel := q } l) := .ite h (.refused _)

theorem ResultAgrees.onCanvas (h : ResultAgrees k l) :
    ResultAgrees (Machine.onCanvas s k) (Machine.onCanvas { s with panel := q } l) := .whenReady (.ite h (.fault _))

end

/-- What a host-level operation answers does not depend on the panel. -/
theorem exec_resultAgrees {i : Instr} (hi : i.port = .host) (s : State) (q : Panel) :
    ResultAgrees (exec i s) (exec i { s with panel := q }) := by
  cases i with
  | construct busId deviceId => exact .ite (panelBlind_constructFlow busId deviceId s q).finishOperation (.refused _)
  | destruct => exact .onCanvas (panelBlind_destructFlow s q).finishOperation
  | setFunctionSet ext gfx => exact .whenReady (panelBlind_sendInstruction _ s q).finishOperation
  | setDisplayControl d c b => exact .whenReady (panelBlind_sendInstruction _ s q).finishOperation
  | setShiftControl shifting right => exact .whenReady (panelBlind_sendInstruction _ s q).finishOperation
  | setEntryMode inc sh => exact .whenReady (panelBlind_sendInstruction _ s q).finishOperation
  | setFontHeight px => exact .whenReady (panelBlind_fontHeightStep px s q).finishOperation
  | setPixel x y on => exact .onCanvas (.next (drawn s (drawPixel x y on s.pb) s.fh true none) q)
  | setRegion x1 y1 x2 y2 on => exact .onCanvas (.next (drawn s (drawRegion x1 y1 x2 y2 on s.pb) s.fh true none) q)
  | putString x y text => exact .onCanvas (panelBlind_paintFlow _ s q).finishOperation
  | putBitmap x y width data =>
    exact .onCanvas (.ite (.next (drawn s (drawBitmap x y width.toNat data s.pb).pb s.fh true none) q) (.refused _))
  | drawAll => exact .onCanvas (panelBlind_flushAll s q).finishOperation
  | drawRow r => exact .onCanvas (.ite (panelBlind_flushRow r.toNat s q).finishOperation (.refused _))
  | drawSectionsForBB x1 y1 x2 y2 =>
    exact .onCanvas (.ite (panelBlind_forEach panelBlind_flushCell _ s q).finishOperation (.refused _))
  | send rs rw data => exact .whenReady (panelBlind_transportWrite _ s q).finishMicro
  | gramAddrSet row col => exact .whenReady (panelBlind_transportWrite _ s q).finishMicro
  | putChar x y codepoint => exact .onCanvas (panelBlind_paintFlow _ s q).finishMicro
  | wireFunctionSet | wireDisplayControl | wireShiftControl | wireEntryMode | wireGramAddrRow | wireGramAddrCol | wireSync
  | wireNibbleHigh | wireNibbleLow | wireData => cases hi

/-! ## The obligations -/

/-- Settles O32: both faults come before anything is held or sent, and before `CONSTRUCT` the trace is empty. -/
theorem openAndConfigureErrorsLeaveNothing : Obligations.OpenAndConfigureErrorsLeaveNothing := by
  intro s busId deviceId hinv hoff
  obtain ⟨hquiet, -⟩ := hinv.quietBefore hoff
  rw [exec_construct_of_off hoff]
  refine ⟨fun hopen => ?_, fun hopen hmode => ?_⟩
  · rw [constructFlow_unopenable hopen]
    exact ⟨_, rfl, ⟨0, rfl⟩, rfl, rfl, hquiet, rfl⟩
  · rw [constructFlow_modeRejected hopen hmode]
    exact ⟨_, rfl, ⟨0, rfl⟩, rfl, rfl, hquiet, rfl⟩

/-- Settles O34: each operation completes with its one instruction sent, which the idle panel takes. -/
theorem configurationSetsPanelBits : Obligations.ConfigurationSetsPanelBits := by
  intro s hr hl hp
  exact ⟨fun ext gfx => ⟨_, _, instruction_completes hr hl _, panel_instructed_functionSet hp ext gfx⟩,
    fun d c b => ⟨_, _, instruction_completes hr hl _, panel_instructed_displayControl hp d c b⟩,
    fun sh right => ⟨_, _, instruction_completes hr hl _, panel_instructed_shiftControl hp sh right⟩,
    fun inc sh => ⟨_, _, instruction_completes hr hl _, panel_instructed_entryMode hp inc sh⟩⟩

/-- Settles O47: every step of an operation gets to the same point with either panel, so the two answers agree. -/
theorem panelDoesNotSteerBlock : Obligations.PanelDoesNotSteerBlock := by
  intro i s p hi
  have hagrees := exec_resultAgrees hi s p
  exact ⟨fun t h => (h ▸ hagrees).of_next, fun f h => (h ▸ hagrees).of_fault, fun why h => (h ▸ hagrees).of_refused⟩

/-- Settles O52: by the byte phase; the second byte's cell is what was written last, and the address is `advance`'s. -/
theorem wireDataWritesWordCells : Obligations.WireDataWritesWordCells := by
  refine fun s d hs he hg => ⟨fun hb => onPanel_ok hs (dataByte_held d he hg hb), fun hb hrow =>
    ⟨_, _, _, _, onPanel_ok hs (dataByte_writes d he hg hb hrow), fun a hhigh hlow => ?_, ?_, fun hinc => ?_,
      fun hinc hcol => ?_, fun hinc hcol => ?_⟩⟩
  · rw [cellAt_gramWrite, if_neg hlow, if_neg hhigh]
  · rw [gramRead_gramWrite _ _ _ _ _ _ (BitVec.isLt _) (BitVec.isLt _), if_pos ⟨rfl, rfl⟩]
    rfl
  · rw [advance_fixed hinc]
    exact ⟨rfl, rfl, rfl⟩
  · rw [advance_nextColumn hinc hcol]
    exact ⟨rfl, toNat_nextColumn hcol, rfl⟩
  · rw [advance_pastLast hinc hcol]

/-- Settles O49: each byte's effect on a panel that follows; the function set byte is not the one that is never emitted. -/
theorem wireConfigurationBytesSetBits : Obligations.WireConfigurationBytesSetBits := by
  refine fun s hs => ⟨fun e g hemitted => ?_, fun d c b => ?_, fun sh right => ?_, fun inc sh => ?_⟩
  · have hmeaning : ∀ e g : Bool, (e || !g) = true → ¬ (g && !e) = true := by decide
    exact onPanel_ok hs (if_neg (hmeaning e g hemitted))
  · exact onPanel_ok (effect := Panel.displayControl d c b) hs rfl
  · exact onPanel_ok (effect := Panel.shiftControl sh right) hs rfl
  · exact onPanel_ok (effect := Panel.entryMode inc sh) hs rfl

/-- Settles O50: the gate of extended graphics mode is open, and the row exists. -/
theorem wireAddressBytesPoint : Obligations.WireAddressBytesPoint := by
  refine fun s hs he hg => ⟨fun row hrow => ?_, fun col => ?_⟩
  · exact onPanel_ok hs ((whenGraphic_open _ he hg).trans (if_neg (by omega)))
  · exact onPanel_ok hs (whenGraphic_open _ he hg)

/-- Settles O54: the panel that is still busy becomes any value. -/
theorem earlyFrameLosesPanel : Obligations.EarlyFrameLosesPanel :=
  fun s _ _ hs hbusy => ⟨freeRegs s.panel.draws, onPanel_ok hs (if_neg hbusy)⟩

end Sys2Proof.Machine
end

section
/-! The invariants family: text and bitmaps only ever set pixels (R313). -/

namespace Sys2Proof.Machine

/-! ## Pixels that stay on -/

/-- No pixel of the canvas that is on in `pb` is off in `m`. -/
def KeepsOn (pb m : List Host.Cell) : Prop :=
  ∀ x y : Nat, x < 128 → y < 64 → pixelOf pb x y = true → pixelOf m x y = true

theorem KeepsOn.refl (pb : List Host.Cell) : KeepsOn pb pb := fun _ _ _ _ h => h

/-- Setting one more pixel switches none off; the only step of the paintings (R196, R220). -/
theorem KeepsOn.drawPixel_on {pb : List Host.Cell} (m : List Host.Cell) (x y : Int) (h : KeepsOn pb m) :
    KeepsOn pb (drawPixel x y true m) := by
  intro px py hx hy hon
  rw [pixelOf_drawPixel x y true m hx hy]
  split
  · rfl
  · exact h px py hx hy hon

theorem keepsOn_paintChar (size : Option FontSize) (pen y : Int) (cp : Nat) (pb : List Host.Cell) :
    KeepsOn pb (paintChar size pen y cp pb).pb :=
  paintChar_induct (KeepsOn pb) KeepsOn.drawPixel_on size pen y cp pb (.refl pb)

theorem keepsOn_paintText (size : Option FontSize) (y : Int) (text : List Nat) (pen : Int) (pb : List Host.Cell) :
    KeepsOn pb (paintText size y text pen pb).pb :=
  paintText_induct (KeepsOn pb) KeepsOn.drawPixel_on size y text pen pb (.refl pb)

theorem keepsOn_drawBitmap (x y : Int) (width : Nat) (data : List Byte) (pb : List Host.Cell) :
    KeepsOn pb (drawBitmap x y width data pb).pb :=
  blitBits_induct (KeepsOn pb) KeepsOn.drawPixel_on x y width _ 0 0 pb (.refl pb)

/-- Taking a fault keeps what was painted, so the buffer is the same whether the operation completed or faulted. -/
@[simp] theorem drawn_pb (s : State) (pb : List Host.Cell) (fh : Nat) (counted : Bool) (fault : Option (FaultKind × Nat)) :
    (drawn s pb fh counted fault).pb = pb := by
  cases fault with
  | none => rfl
  | some f => exact raiseFault_pb f.1 f.2 _

/-! ## The obligation -/

/-- Settles O46: all three paintings are made of `SET_PIXEL`s that switch on, up to the fault where there is one. -/
theorem textAndBitmapsOnlySetBits : Obligations.TextAndBitmapsOnlySetBits := by
  intro i s t h hi
  obtain ⟨x, y, text, rfl⟩ | ⟨x, y, w, data, rfl⟩ | ⟨x, y, cp, rfl⟩ := hi
  · obtain ⟨-, -, p, rfl, rfl⟩ := execPutString_next h
    rw [drawn_pb]
    exact keepsOn_paintText _ y text x s.pb
  · obtain ⟨-, -, -, rfl⟩ := execPutBitmap_next h
    rw [drawn_pb]
    exact keepsOn_drawBitmap x y w.toNat data s.pb
  · obtain ⟨-, -, p, rfl, rfl⟩ := execPutChar_next h
    rw [drawn_pb]
    exact keepsOn_paintChar _ x y cp s.pb

end Sys2Proof.Machine
end
